-- ==== Sys2Proof/Word.lean ====
section
/-! DEFINITION. The words of HUFFCORE: the 32-bit bus word, the byte, and the bit string of rule R12. -/

namespace Sys2Proof

/-- One bus word, one register, one command word (rules R80, R110). -/
abbrev Word := BitVec 32

/-- One letter, one buffer byte (rules R6, R93). -/
abbrev Byte := BitVec 8

/-- A finite sequence of bits, first bit first (rule R12): `false` is the bit 0, `true` the bit 1. -/
abbrev BitString := List Bool

end Sys2Proof
end

