-- ==== Sys2Proof/Syntax.lean ====
section
/-! DEFINITION. HUFFCORE-CMD version 1: the 13 commands of rule R116, with their operand fields as counts. -/

namespace Sys2Proof

/-- The commands (rules R111, R116). An operand is the unsigned number its field holds (rule R112);
WellFormed says which numbers fit. -/
inductive Instr where
  /-- NOP, rule R150. -/
  | nop
  /-- SRESET, rule R151. -/
  | sreset
  /-- WCLR, rule R152. -/
  | wclr
  /-- BUILD, rule R170. -/
  | build
  /-- LOOKUP x, rule R200: x is ARG. -/
  | lookup (x : Nat)
  /-- TSER, rule R213. -/
  | tser
  /-- TDES tpad=TPAD, lw=LW, rule R220. -/
  | tdes (tpad lw : Nat)
  /-- ESTART, rule R240. -/
  | estart
  /-- ECHUNK f=F, rule R241: F is FL. -/
  | echunk (f : Bool)
  /-- DSTART, rule R270. -/
  | dstart
  /-- DCHUNK l=L, pad=DPAD, rule R272: L is FL. -/
  | dchunk (l : Bool) (dpad : Nat)
  /-- HBUILD, rule R300. -/
  | hbuild
  /-- HPARSE, rule R303. -/
  | hparse
  deriving DecidableEq, Repr

end Sys2Proof
end

