-- ==== Sys2Proof/WellFormed.lean ====
section
/-! DEFINITION. A command is well formed when each operand fits its field of the command word (rule R111). -/

namespace Sys2Proof

/-- Rule R111: ARG has 8 bits, PAD 3 and LW 4. Whether a command ACCEPTS a value its field can hold
(LW ≠ 1 on TDES) is that command's own check, not a matter of form (rule R118). -/
def Instr.wellFormed : Instr → Bool
  | .nop => true
  | .sreset => true
  | .wclr => true
  | .build => true
  | .lookup x => decide (x < 256)
  | .tser => true
  | .tdes tpad lw => decide (tpad < 8) && decide (lw < 16)
  | .estart => true
  | .echunk _ => true
  | .dstart => true
  | .dchunk _ dpad => decide (dpad < 8)
  | .hbuild => true
  | .hparse => true

end Sys2Proof
end

