-- ==== Sys2Proof/Decode.lean ====
section
/-! DEFINITION. The command word (rules R110 to R119): the opcode map as data, the decoder, total on every
word and rejecting by name, and after it the encoder. -/

namespace Sys2Proof

/-- Why a word is no command: the two cases of rule R117. -/
inductive DecodeError where
  /-- The opcode is 0x0D to 0xFF. -/
  | undefinedOpcode (op : Byte)
  /-- The opcode is defined and a bit it does not use is 1. -/
  | unusedBitSet (op : Byte)
  deriving DecidableEq, Repr

/-- OP, ARG, FL, PAD and LW of a command word (rule R111), each an unsigned number (rule R112). -/
def opField (w : Word) : Byte := w.extractLsb' 0 8
def argField (w : Word) : Nat := (w.extractLsb' 8 8).toNat
def flField (w : Word) : Bool := w.getLsbD 16
def padField (w : Word) : Nat := (w.extractLsb' 17 3).toNat
def lwField (w : Word) : Nat := (w.extractLsb' 20 4).toNat

/-- A row of the opcode map, rule R116. -/
structure OpRow where
  mnemonic : String
  matchBits : Word
  mask : Word
  deriving DecidableEq, Repr

/-- The opcode map of rule R116, row by row. -/
def opTable : List OpRow :=
  [ ⟨"NOP",    0x00000000#32, 0xFFFFFFFF#32⟩,
    ⟨"SRESET", 0x00000001#32, 0xFFFFFFFF#32⟩,
    ⟨"WCLR",   0x00000002#32, 0xFFFFFFFF#32⟩,
    ⟨"BUILD",  0x00000003#32, 0xFFFFFFFF#32⟩,
    ⟨"LOOKUP", 0x00000004#32, 0xFFFF00FF#32⟩,
    ⟨"TSER",   0x00000005#32, 0xFFFFFFFF#32⟩,
    ⟨"TDES",   0x00000006#32, 0xFF01FFFF#32⟩,
    ⟨"ESTART", 0x00000007#32, 0xFFFFFFFF#32⟩,
    ⟨"ECHUNK", 0x00000008#32, 0xFFFEFFFF#32⟩,
    ⟨"DSTART", 0x00000009#32, 0xFFFFFFFF#32⟩,
    ⟨"DCHUNK", 0x0000000A#32, 0xFFF0FFFF#32⟩,
    ⟨"HBUILD", 0x0000000B#32, 0xFFFFFFFF#32⟩,
    ⟨"HPARSE", 0x0000000C#32, 0xFFFFFFFF#32⟩ ]

/-- Rule R117: the word selects some row. -/
def legalWord (w : Word) : Bool := opTable.any fun r => w &&& r.mask == r.matchBits

/-- The command an opcode names, with its operands taken from the word (rules R110 to R112). -/
def commandOf (w : Word) : Option Instr :=
  match (opField w).toNat with
  | 0x00 => some .nop
  | 0x01 => some .sreset
  | 0x02 => some .wclr
  | 0x03 => some .build
  | 0x04 => some (.lookup (argField w))
  | 0x05 => some .tser
  | 0x06 => some (.tdes (padField w) (lwField w))
  | 0x07 => some .estart
  | 0x08 => some (.echunk (flField w))
  | 0x09 => some .dstart
  | 0x0A => some (.dchunk (flField w) (padField w))
  | 0x0B => some .hbuild
  | 0x0C => some .hparse
  | _ => none

/-- The decoder: OP alone tells the commands apart, and the rest of the word is then checked against
that opcode's fields (rules R110, R117). -/
def decode (w : Word) : Except DecodeError Instr :=
  match commandOf w with
  | none => .error (.undefinedOpcode (opField w))
  | some i => if legalWord w then .ok i else .error (.unusedBitSet (opField w))

/-- The word of a command, from the encodings of rule R124. -/
def encode : Instr → Word
  | .nop => 0x00000000#32
  | .sreset => 0x00000001#32
  | .wclr => 0x00000002#32
  | .build => 0x00000003#32
  | .lookup x => 0x00000004#32 ||| (BitVec.ofNat 32 x <<< 8)
  | .tser => 0x00000005#32
  | .tdes tpad lw => 0x00000006#32 ||| (BitVec.ofNat 32 tpad <<< 17) ||| (BitVec.ofNat 32 lw <<< 20)
  | .estart => 0x00000007#32
  | .echunk f => 0x00000008#32 ||| (BitVec.ofNat 32 f.toNat <<< 16)
  | .dstart => 0x00000009#32
  | .dchunk l dpad => 0x0000000A#32 ||| (BitVec.ofNat 32 l.toNat <<< 16) ||| (BitVec.ofNat 32 dpad <<< 17)
  | .hbuild => 0x0000000B#32
  | .hparse => 0x0000000C#32

/-- The command word whose low nbits bits are those of w and whose other bits are 0. -/
def tableWord (nbits w : Nat) : Word := BitVec.ofNat 32 (w % 2 ^ nbits)

/-- What the decoder reads from an opcode-table word: a command is one 32-bit word (rule R110). -/
def decodeTableWord (nbits w : Nat) : Option Instr := (decode (tableWord nbits w)).toOption

end Sys2Proof
end

