-- ==== Sys2Proof/Config.lean ====
section
/-! DEFINITION. The implementation parameters of rule R6, and the one free value the model draws from. -/

namespace Sys2Proof.Config

/-- ID, rule R31. -/
def idValue : Word := 0x48554646#32

/-- LW_NATIVE, rule R6: the letter width in bytes. -/
def lwNative : Nat := 1

/-- ALPHABET, rule R6: the letters are 0 to 255. -/
def alphabet : Nat := 256

/-- MAX_NODES, rule R6. -/
def maxNodes : Nat := 511

/-- MAX_CODE_LEN, rule R6. -/
def maxCodeLen : Nat := 255

/-- TREE_MAX_BYTES, rule R6. -/
def treeMaxBytes : Nat := 320

/-- HDR_BYTES, rule R6. -/
def hdrBytes : Nat := 5

/-- The bus addresses are 0 to 2^BUS_ADDR_BITS − 1, rules R6 and R80. -/
def busAddrBits : Nat := 27

/-- The one OPEN implementation parameter of the block, IBUF_BYTES (rule R6, decision D7, item I1).
A state carries it (State.params), so that a claim about every state quantifies over it. -/
structure Params where
  /-- IBUF_BYTES: the capacity of the input buffer in bytes. -/
  ibufBytes : Nat := 4096
  deriving DecidableEq, Repr

/-- Rule R6: a multiple of 4 with 328 ≤ IBUF_BYTES ≤ 2^20. -/
abbrev Params.Valid (p : Params) : Prop :=
  p.ibufBytes % 4 = 0 ∧ 328 ≤ p.ibufBytes ∧ p.ibufBytes ≤ 2 ^ 20

/-- OBUF_BYTES = 32 × IBUF_BYTES + 4 (rules R6, R33). -/
def Params.obufBytes (p : Params) : Nat := 32 * p.ibufBytes + 4

/-- The free value of the model: the word the n-th host read draws where the spec says the value read
is any value (rules R57, R84, R343; items I5, I6). It has no body: nothing can be proved of it.
An undefined OBUF lane takes its own byte of the word, an undefined whole word takes all of it. -/
opaque freeWord : Nat → Word

end Sys2Proof.Config
end

