-- ==== Sys2Proof/Machine/State.lean ====
section
/-! DEFINITION. The state of HUFFCORE (rule R30), the ways a step can stop, and the state after reset (rule R62). -/

namespace Sys2Proof.Machine

/-- A sparse table: pairs of a key and a value, keys strictly rising, one entry a key.
What an unlisted key means is said where the table is used. -/
abbrev Table (α : Type) := List (Nat × α)

/-- A byte buffer, keyed by the byte's index in it (rules R56, R57). An unlisted byte HOLDS NO VALUE:
no write has covered it since reset, or no output command has defined it. -/
abbrev Memory := List Host.Cell

/-- A node record, rule R52. -/
inductive Node where
  | leaf (letter : Byte) (weight : BitVec 72)
  | internal (weight : BitVec 72) (left right : BitVec 9)
  deriving DecidableEq, Repr

/-- The typed errors of rule R331. IoError is reserved and never raised (rule R347). -/
inductive ErrCode where
  | inputEmpty
  | missingCode
  | treeFormatTooSmall
  | treeFormatTooLarge
  | treeFormatTypeMismatch
  | missingHeader
  | invalidHeader
  | ioError
  | noTree
  | treeFormatDuplicate
  | dataMalformed
  | illegalCommand
  | bufferBounds
  deriving DecidableEq, Repr

/-- Why the machine stops with a model fault (rule R348). -/
inductive Fault where
  /-- Raised by TDES, ECHUNK, DCHUNK and HPARSE when they read an IBUF byte that no host write has
  covered since reset or SRESET (rule R56, item I4). Safe: the model stops where the hardware reads
  whatever its RAM holds. -/
  | ibufByteUnwritten (index : Nat)
  deriving DecidableEq, Repr

/-- Why the model has no move. -/
inductive Refusal where
  /-- An instruction that has no meaning yet: raised by no arm of this model. Safe. -/
  | notModelled (mnemonic : String)
  /-- Raised by a host access that is not an aligned 32-bit word below 2^27 (rules R80, R348, item I3).
  Safe: the spec gives such an access no effect. -/
  | busAccessNotAdmitted (addr size : Nat)
  deriving DecidableEq, Repr

/-- How a command stops short of success: a typed error with its detail value (rule R345), or a model
fault (rule R348). -/
inductive Stop where
  | err (code : ErrCode) (info : Word)
  | fault (f : Fault)
  deriving DecidableEq, Repr

/-- What can happen next at the block's boundary (rule R9): a host read or write of size bytes, a
hardware reset, or the block getting its turn to perform the command it has accepted. -/
inductive Input where
  | busRead (addr size : Nat)
  | busWrite (addr size : Nat) (data : Word)
  | hardReset
  | blockTurn
  deriving DecidableEq, Repr

/-- The state. The first fields are the block's, in the order of rule R30; the last three are the
model's own (log entries 1, 2 and 3). -/
structure State where
  /-- IBUF_BYTES, which IBUF_SIZE and OBUF_SIZE show (rules R32, R33). No step changes it. -/
  params : Config.Params
  /-- CTRL.IE, rule R34. -/
  ie : Bool
  /-- LAST_CMD: the word of the most recently accepted command (rules R35, R58). -/
  lastCmd : Word
  /-- STATUS.BUSY, rule R36. -/
  busy : Bool
  /-- STATUS.DONE, rule R36. -/
  done : Bool
  /-- STATUS.ERRS, rule R36. -/
  errs : Bool
  /-- STATUS.DROP, rule R36. -/
  drop : Bool
  /-- STATUS.TREE_VALID, rule R36. -/
  treeValid : Bool
  /-- ERR[7:0], rule R37. -/
  err : Byte
  /-- ERR_INFO, rule R38. -/
  errInfo : Word
  /-- IBUF_LEN, rule R39. -/
  ibufLen : Word
  /-- OBUF_LEN, rule R40. -/
  obufLen : Word
  /-- TREE_LEN, rule R41. -/
  treeLen : Word
  /-- TREE_PAD[2:0], rule R42. -/
  treePad : BitVec 3
  /-- DATA_PAD[2:0], rule R43. -/
  dataPad : BitVec 3
  /-- ROOT[8:0], rule R44. -/
  root : BitVec 9
  /-- NODE_COUNT[9:0], rule R45. -/
  nodeCount : BitVec 10
  /-- PEND_BYTE, rule R46. -/
  pendByte : Byte
  /-- PEND_BITS, rule R46. -/
  pendBits : BitVec 3
  /-- CURSOR[8:0], rule R47. -/
  cursor : BitVec 9
  /-- STREAM_LEN_LO, rule R48. -/
  streamLenLo : Word
  /-- STREAM_LEN_HI, rule R48. -/
  streamLenHi : Word
  /-- DATA_OFF, rule R49. -/
  dataOff : Word
  /-- LK_LEN[8:0], rule R51. -/
  lkLen : BitVec 9
  /-- LK_BITS0 to LK_BITS7, rule R51. -/
  lkBits : Vector Word 8
  /-- WEIGHT, rule R50, keyed by letter: an unlisted letter has weight 0, a listed one never has. -/
  weights : Table (BitVec 64)
  /-- NODE, rule R52: the valid records, record i at position i. -/
  nodes : List Node
  /-- CODE, rule R54, keyed by letter: a listed letter is PRESENT and its BITS are the entry, whose
  length is LEN; an unlisted one has PRESENT = 0, LEN = 0 and BITS all 0. -/
  codes : Table BitString
  /-- IBUF, rule R56. -/
  ibuf : Memory
  /-- OBUF, rule R57: the bytes that hold a defined value. -/
  obuf : Memory
  /-- The model's own: what happens next at the boundary, first event first. -/
  inputs : List Input
  /-- The model's own: the words the host has read, newest first. -/
  hostReads : List Word
  /-- The model's own: how many host reads there have been, which numbers the free value of the next. -/
  draws : Nat
  deriving DecidableEq, Repr

/-- The state of rule R62 for a block whose parameters are p, with no event pending. -/
def State.resetWith (p : Config.Params) : State where
  params := p
  ie := false
  lastCmd := 0#32
  busy := false
  done := false
  errs := false
  drop := false
  treeValid := false
  err := 0#8
  errInfo := 0#32
  ibufLen := 0#32
  obufLen := 0#32
  treeLen := 0#32
  treePad := 0#3
  dataPad := 0#3
  root := 0#9
  nodeCount := 0#10
  pendByte := 0#8
  pendBits := 0#3
  cursor := 0#9
  streamLenLo := 0#32
  streamLenHi := 0#32
  dataOff := 0#32
  lkLen := 0#9
  lkBits := #v[0#32, 0#32, 0#32, 0#32, 0#32, 0#32, 0#32, 0#32]
  weights := []
  nodes := []
  codes := []
  ibuf := []
  obuf := []
  inputs := []
  hostReads := []
  draws := 0

/-- The machine right after reset (rule R62), at the default IBUF_BYTES = 4096 of rule R6. -/
def State.reset : State := State.resetWith (Config.Params.mk 4096)

end Sys2Proof.Machine
end

