-- ==== Sys2Proof/Machine/Ops.lean ====
section
/-! DEFINITION. The shared operations: sparse tables and byte buffers, reset, accepting a command, completing
it, and ending it in an error (rules R340, R341, R345, R346, R370). -/

namespace Sys2Proof.Machine

/-! ### Sparse tables and byte buffers -/

/-- The entry of key k, if one is listed. -/
def Table.lookup {α : Type} : Table α → Nat → Option α
  | [], _ => none
  | (k', v) :: t, k => if k' = k then some v else Table.lookup t k

/-- The table with the entry of key k replaced by v, or v listed under it. -/
def Table.insert {α : Type} : Table α → Nat → α → Table α
  | [], k, v => [(k, v)]
  | (k', v') :: t, k, v =>
    if k < k' then (k, v) :: (k', v') :: t
    else if k = k' then (k, v) :: t
    else (k', v') :: Table.insert t k v

/-- The table with key k unlisted. -/
def Table.erase {α : Type} (t : Table α) (k : Nat) : Table α := t.filter fun e => e.1 != k

/-- The canonical form: keys strictly rising. -/
abbrev Table.wf {α : Type} (t : Table α) : Prop := (t.map Prod.fst).Pairwise (· < ·)

/-- Byte i of a buffer; none where the byte holds no value (rules R56, R57). -/
def Memory.read (m : Memory) (i : Nat) : Option Byte := Table.lookup m i

/-- The buffer with byte i written. No byte value is an unlisted byte's, so none removes an entry. -/
def Memory.write (m : Memory) (i : Nat) (b : Byte) : Memory := Table.insert m i b

/-- The canonical form of a buffer: indices strictly rising. -/
abbrev Memory.wf (m : Memory) : Prop := Table.wf m

/-- The buffer whose bytes from index i on are bs, and which holds no other value. -/
def Memory.ofBytesFrom : Nat → List Byte → Memory
  | _, [] => []
  | i, b :: bs => (i, b) :: Memory.ofBytesFrom (i + 1) bs

/-- The buffer that holds bs from index 0 on, and no other value (rule R57). -/
def Memory.ofBytes (bs : List Byte) : Memory := Memory.ofBytesFrom 0 bs

/-- WEIGHT[x], rule R50. -/
def State.weight (s : State) (x : Nat) : BitVec 64 := (Table.lookup s.weights x).getD 0#64

/-- WEIGHT[x] <- w. Weight 0 unlists the letter. -/
def State.setWeight (s : State) (x : Nat) (w : BitVec 64) : State :=
  { s with weights := if w = 0#64 then Table.erase s.weights x else Table.insert s.weights x w }

/-- code(x) of rule R201: CODE[x].BITS where CODE[x].PRESENT = 1, none where the letter is absent. -/
def State.code (s : State) (x : Nat) : Option BitString := Table.lookup s.codes x

/-- OBUF[0..|bs|) <- bs and OBUF_LEN <- |bs|: afterwards only these bytes hold defined values (rule R57). -/
def State.setOutput (s : State) (bs : List Byte) : State :=
  { s with obuf := Memory.ofBytes bs, obufLen := BitVec.ofNat 32 bs.length }

/-! ### Reset -/

/-- Every state element of rule R62 takes its reset value. The parameters are no state element of the
table, and the pending events, the host's own record and the draw count are not the block's. -/
def State.resetBlock (s : State) : State :=
  { State.resetWith s.params with inputs := s.inputs, hostReads := s.hostReads, draws := s.draws }

/-! ### Accepting and completing a command -/

/-- accept(w), rule R340. -/
def State.accept (s : State) (w : Word) : State :=
  { s with lastCmd := w, done := false, busy := true }

/-- complete(), rule R341. -/
def State.complete (s : State) : State :=
  { s with err := 0#8, errInfo := 0#32, busy := false, done := true }

/-! ### Ending a command in an error -/

/-- The codes of rule R331. -/
def ErrCode.code : ErrCode → Byte
  | .inputEmpty => 0x01#8
  | .missingCode => 0x02#8
  | .treeFormatTooSmall => 0x03#8
  | .treeFormatTooLarge => 0x04#8
  | .treeFormatTypeMismatch => 0x05#8
  | .missingHeader => 0x06#8
  | .invalidHeader => 0x07#8
  | .ioError => 0x08#8
  | .noTree => 0x09#8
  | .treeFormatDuplicate => 0x0A#8
  | .dataMalformed => 0x0B#8
  | .illegalCommand => 0x0C#8
  | .bufferBounds => 0x0D#8

/-- The output commands of rule R40. -/
def isOutputCommand : Instr → Bool
  | .tser => true
  | .echunk _ => true
  | .dchunk _ _ => true
  | .hbuild => true
  | .nop => false
  | .sreset => false
  | .wclr => false
  | .build => false
  | .lookup _ => false
  | .tdes _ _ => false
  | .estart => false
  | .dstart => false
  | .hparse => false

/-- The commands whose errors invalidate the tree, rule R346. -/
def makesTree : Instr → Bool
  | .build => true
  | .tdes _ _ => true
  | .hparse => true
  | .nop => false
  | .sreset => false
  | .wclr => false
  | .lookup _ => false
  | .tser => false
  | .estart => false
  | .echunk _ => false
  | .dstart => false
  | .dchunk _ _ => false
  | .hbuild => false

/-- OBUF_LEN <- 0, after which no OBUF byte is defined (rules R57, R345). -/
def State.discardOutput (s : State) : State := { s with obufLen := 0#32, obuf := [] }

/-- invalidateTree(), rule R346. With NODE_COUNT = 0 no record is valid, so none is kept. -/
def State.invalidateTree (s : State) : State :=
  { s with
    treeValid := false
    nodeCount := 0#10
    root := 0#9
    nodes := []
    codes := []
    treeLen := 0#32
    treePad := 0#3
    dataOff := 0#32
    cursor := 0#9 }

/-- The command discards its output when it ends in error e (rule R345). -/
def discardsOutput (cmd : Option Instr) (e : ErrCode) : Bool :=
  match cmd with
  | none => false
  | some i => isOutputCommand i && e != .illegalCommand

/-- The command invalidates the tree when it ends in error e (rule R346). -/
def invalidatesTree (cmd : Option Instr) (e : ErrCode) : Bool :=
  match cmd with
  | none => false
  | some i => makesTree i && e != .illegalCommand && e != .bufferBounds

/-- raise E(info), rule R345. The command is none for an illegal word, which is no command even when
its OP field names one. -/
def State.raise (s : State) (cmd : Option Instr) (e : ErrCode) (info : Word) : State :=
  let s1 := { s with err := e.code, errInfo := info }
  let s2 := if discardsOutput cmd e then s1.discardOutput else s1
  let s3 := if invalidatesTree cmd e then s2.invalidateTree else s2
  { s3 with errs := true, busy := false, done := true }

/-- The end of a command's atomic step (rules R330, R342): the body r was computed from s; success
completes its result, an error is raised on s itself, so that nothing the body computed is kept. -/
def finish (i : Instr) (s : State) (r : Except Stop State) : Host.Outcome State Fault Refusal :=
  match r with
  | .ok t => .next t.complete
  | .error (.err e info) => .next (s.raise (some i) e info)
  | .error (.fault f) => .fault f

end Sys2Proof.Machine
end

