-- ==== Sys2Proof/Machine/Operands.lean ====
section
/-! DEFINITION. The operands of the commands: bit strings and their packing (rules R12 to R14, R92, R93), the
bytes and bits of IBUF (rules R13, R56, R333), the pending bits (rule R46) and STREAM_LEN (rule R48). -/

namespace Sys2Proof.Machine

/-! ### Bit strings -/

/-- The number whose binary digits are bs, most significant first. -/
def bitsToNat (bs : BitString) : Nat := bs.foldl (fun v b => 2 * v + b.toNat) 0

/-- The n-bit word whose bits, most significant first, are bits 0 to n − 1 of bs, with 0 where bs has
no such bit. -/
def msbWord (n : Nat) (bs : BitString) : BitVec n :=
  BitVec.ofNat n (bitsToNat ((List.range n).map fun j => bs.getD j false))

/-- padOf(n) = (8 − (n mod 8)) mod 8, rule R13. -/
def padOf (n : Nat) : Nat := (8 - n % 8) % 8

/-- pack(s), rule R13: ceil(|s| / 8) bytes, bit i of s at bit 7 − (i mod 8) of byte i div 8, 0 elsewhere. -/
def pack (bs : BitString) : List Byte :=
  (List.range ((bs.length + 7) / 8)).map fun q => msbWord 8 (bs.drop (8 * q))

/-- bits8(x), rule R14: bit 7 first. -/
def bits8 (x : Byte) : BitString := (List.range 8).map fun j => x.getLsbD (7 - j)

/-- be32(b0, b1, b2, b3), rule R14. -/
def be32 (b0 b1 b2 b3 : Byte) : Nat :=
  b0.toNat * 2 ^ 24 + b1.toNat * 2 ^ 16 + b2.toNat * 2 ^ 8 + b3.toNat

/-- The four bytes of a word, most significant first (rules R94, R300). -/
def bytesBE (w : Word) : List Byte :=
  [w.extractLsb' 24 8, w.extractLsb' 16 8, w.extractLsb' 8 8, w.extractLsb' 0 8]

/-- The layout rules R51 and R88 share: code bit i is bit 31 − (i mod 32) of word i div 32. -/
def codeWord (bs : BitString) (k : Nat) : Word := msbWord 32 (bs.drop (32 * k))

/-- letter << 24 OR low: the shape of a detail value that names a letter or a sub-code (rule R332). -/
def detail (high low : Nat) : Word := (BitVec.ofNat 32 high <<< 24) ||| BitVec.ofNat 32 low

/-! ### The input buffer -/

/-- bitAt(B, i), rule R13; none where the byte holds no value. -/
def bitAt (m : Memory) (i : Nat) : Option Bool :=
  (Memory.read m (i / 8)).map fun b => b.getLsbD (7 - i % 8)

/-- IBUF[j] as a command reads it (rules R56, R348). -/
def ibufByte (m : Memory) (j : Nat) : Except Stop Byte :=
  match Memory.read m j with
  | some b => .ok b
  | none => .error (.fault (.ibufByteUnwritten j))

/-- Bit i of IBUF as a command reads it (rules R13, R56, R348). -/
def ibufBit (m : Memory) (i : Nat) : Except Stop Bool :=
  match bitAt m i with
  | some b => .ok b
  | none => .error (.fault (.ibufByteUnwritten (i / 8)))

/-- BufferBounds(1), rule R333: the check uses the full 32-bit IBUF_LEN. -/
def ibufTooLong (s : State) : Bool := decide (s.params.ibufBytes < s.ibufLen.toNat)

/-! ### Other register operands -/

/-- The first PEND_BITS bits of PEND_BYTE, bit 7 first (rules R46, R241). -/
def State.pendingBits (s : State) : BitString := (bits8 s.pendByte).take s.pendBits.toNat

/-- STREAM_LEN, rule R48. -/
def State.streamLen (s : State) : BitVec 64 := s.streamLenHi ++ s.streamLenLo

end Sys2Proof.Machine
end

