-- ==== Sys2Proof/Machine/Flags.lean ====
section
/-! DEFINITION. The flags of STATUS, the interrupt, and the fields of the other registers that are made of
fields (rules R34, R36, R46, R47, R350). -/

namespace Sys2Proof.Machine

/-- IRQ = STATUS.DONE AND CTRL.IE at all times (rules R36, R350). -/
def State.irq (s : State) : Bool := s.done && s.ie

/-- STATUS as a word, rule R36: BUSY, DONE, ERRS, DROP, TREE_VALID and IRQ in bits 0 to 5. -/
def State.statusWord (s : State) : Word :=
  BitVec.ofNat 32 (s.busy.toNat + 2 * s.done.toNat + 4 * s.errs.toNat + 8 * s.drop.toNat
    + 16 * s.treeValid.toNat + 32 * s.irq.toNat)

/-- A host write of v to STATUS while idle, rules R36 and R85: a 1 clears DONE, ERRS or DROP, a 0
leaves it, and every other bit is ignored. -/
def State.clearStatus (s : State) (v : Word) : State :=
  { s with
    done := s.done && !v.getLsbD 1
    errs := s.errs && !v.getLsbD 2
    drop := s.drop && !v.getLsbD 3 }

/-- CTRL as a word, rule R34. -/
def State.ctrlWord (s : State) : Word := BitVec.ofNat 32 s.ie.toNat

/-- PEND as a word, rule R46: PEND_BYTE in bits 7:0, PEND_BITS in bits 10:8. -/
def State.pendWord (s : State) : Word := s.pendByte.setWidth 32 ||| (s.pendBits.setWidth 32 <<< 8)

/-- The mask of the first n bits of a byte: (0xFF << (8 − n)) AND 0xFF, rule R46. -/
def highMask (n : Nat) : Byte := 0xFF#8 <<< (8 - n)

/-- The WARL write of rule R46: the low 8 − PEND_BITS bits of PEND_BYTE are forced to 0. -/
def State.writePend (s : State) (w : Word) : State :=
  let n : BitVec 3 := w.extractLsb' 8 3
  { s with pendBits := n, pendByte := w.extractLsb' 0 8 &&& highMask n.toNat }

/-- The record at index i is Internal. -/
def Node.isInternal : Node → Bool
  | .leaf _ _ => false
  | .internal _ _ _ => true

/-- The WARL write of rule R47: v = w[8:0] is stored only where TREE_VALID = 1, v < NODE_COUNT and
NODE[v] is Internal, and ROOT is stored in every other case. -/
def State.writeCursor (s : State) (w : Word) : State :=
  let v : BitVec 9 := w.extractLsb' 0 9
  let keep := s.treeValid && decide (v.toNat < s.nodeCount.toNat)
    && (match s.nodes[v.toNat]? with
        | some n => n.isInternal
        | none => false)
  { s with cursor := if keep then v else s.root }

end Sys2Proof.Machine
end

