-- ==== Sys2Proof/Machine/Tree.lean ====
section
/-! DEFINITION. The tree: its node records, the code derivation and the installation that BUILD, TDES and
HPARSE share, the serialization, and the parser that TDES and HPARSE share (rules R52, R121, R176, R180,
R210, R222 to R225). -/

namespace Sys2Proof.Machine

/-! ### Node records -/

/-- NODE[i]. A record that is not valid is never read in a state a run reaches (rule R53); the leaf of
letter 0 stands there, so that the function is total. -/
def nodeAt (N : List Node) (i : BitVec 9) : Node := N.getD i.toNat (.leaf 0#8 0#72)

/-- A node's weight (rules R52, R172). -/
def Node.weight : Node → BitVec 72
  | .leaf _ w => w
  | .internal w _ _ => w

/-- The left child index, 0 for a Leaf, as rule R89 shows it. -/
def Node.left : Node → BitVec 9
  | .leaf _ _ => 0#9
  | .internal _ l _ => l

/-- The right child index, 0 for a Leaf, as rule R89 shows it. -/
def Node.right : Node → BitVec 9
  | .leaf _ _ => 0#9
  | .internal _ _ r => r

/-- The letter of a Leaf, 0 for an Internal, as rule R89 shows it. -/
def Node.letter : Node → Byte
  | .leaf x _ => x
  | .internal _ _ _ => 0#8

/-! ### Deriving the codes and installing a tree -/

/-- walk(i, p), rule R180: the letters of the leaves below node i with their codes, in the order of the
walk. The first argument bounds the depth; 511 records hold no deeper tree. -/
def walk (N : List Node) : Nat → BitVec 9 → BitString → List (Nat × BitString)
  | 0, _, _ => []
  | f + 1, i, p =>
    match nodeAt N i with
    | .leaf x _ => [(x.toNat, p)]
    | .internal _ l r => walk N f l (p ++ [false]) ++ walk N f r (p ++ [true])

/-- The entries deriveCodes() writes, in its order: the walk from the root, or the one-bit code of a
tree that is a single leaf (rules R175, R180). -/
def codeEntries (N : List Node) (r : BitVec 9) : List (Nat × BitString) :=
  match nodeAt N r with
  | .leaf x _ => [(x.toNat, [false])]
  | .internal _ _ _ => walk N Config.maxNodes r []

/-- The code table in which each of the entries, in turn, is written to the empty table. -/
def codeTable (es : List (Nat × BitString)) : Table BitString :=
  es.foldl (fun t e => Table.insert t e.1 e.2) []

/-- deriveCodes(), rule R180. -/
def deriveCodes (N : List Node) (r : BitVec 9) : Table BitString := codeTable (codeEntries N r)

/-- How many of the records are Leaf. -/
def leafCount (N : List Node) : Nat := N.countP fun n => !n.isInternal

/-- S = 10k − 1, the length in bits of the serialization of a tree of k leaves (rule R212). -/
def serializedBits (k : Nat) : Nat := 10 * k - 1

/-- installTree(N, n, r), rule R176, with n the number of records of N. -/
def State.installTree (s : State) (N : List Node) (r : BitVec 9) : State :=
  let S := serializedBits (leafCount N)
  { s with
    nodes := N
    nodeCount := BitVec.ofNat 10 N.length
    root := r
    codes := deriveCodes N r
    treeLen := BitVec.ofNat 32 ((S + 7) / 8)
    treePad := BitVec.ofNat 3 (padOf S)
    dataOff := 0#32
    cursor := r
    treeValid := true }

/-! ### The serialization -/

/-- ser(i), rule R210. The first argument bounds the depth, as for walk. -/
def ser (N : List Node) : Nat → BitVec 9 → BitString
  | 0, _ => []
  | f + 1, i =>
    match nodeAt N i with
    | .leaf x _ => false :: bits8 x
    | .internal _ l r => true :: (ser N f l ++ ser N f r)

/-- ser(ROOT), the serialization of the current tree (rule R210). -/
def State.serialized (s : State) : BitString := ser s.nodes Config.maxNodes s.root

/-! ### The parser -/

/-- What the grammar of rule R121 describes: a tree of letters, with no weights and no indices. -/
inductive Shape where
  | leaf (letter : Byte)
  | node (left right : Shape)
  deriving DecidableEq, Repr

/-- How many nodes a shape has. -/
def Shape.size : Shape → Nat
  | .leaf _ => 1
  | .node l r => 1 + l.size + r.size

/-- The records of a shape whose root has index i, numbered in pre-order (rule R224): an Internal's left
child is the next index after it, its right child the first after the left subtree; every weight is 0. -/
def Shape.records : Shape → Nat → List Node
  | .leaf x, _ => [.leaf x 0#72]
  | .node l r, i =>
    .internal 0#72 (BitVec.ofNat 9 (i + 1)) (BitVec.ofNat 9 (i + 1 + l.size))
      :: (l.records (i + 1) ++ r.records (i + 1 + l.size))

/-- take(), rule R222: bit pos of the string of nbits bits that starts at byte off. -/
def takeBit (m : Memory) (off nbits pos : Nat) : Except Stop Bool :=
  if pos < nbits then ibufBit m (8 * off + pos)
  else .error (.err .treeFormatTooSmall (BitVec.ofNat 32 nbits))

/-- The next n bits, most significant first, after the bits that made x (rule R222). -/
def takeNumber (m : Memory) (off nbits : Nat) : Nat → Nat → Nat → Except Stop Nat
  | 0, _, x => .ok x
  | n + 1, pos, x =>
    match takeBit m off nbits pos with
    | .error e => .error e
    | .ok b => takeNumber m off nbits n (pos + 1) (2 * x + b.toNat)

/-- node(), rules R222 and R223: the subtree whose first bit is bit pos, with the position after it and
the letters placed so far. The first argument bounds the depth; each level takes a bit, so nbits + 1
levels are never used up. -/
def parseNode (m : Memory) (off nbits : Nat) : Nat → Nat → List Byte →
    Except Stop (Shape × Nat × List Byte)
  | 0, _, _ => .error (.err .treeFormatTooSmall (BitVec.ofNat 32 nbits))
  | f + 1, pos, seen =>
    match takeBit m off nbits pos with
    | .error e => .error e
    | .ok true =>
      match parseNode m off nbits f (pos + 1) seen with
      | .error e => .error e
      | .ok (l, pos1, seen1) =>
        match parseNode m off nbits f pos1 seen1 with
        | .error e => .error e
        | .ok (r, pos2, seen2) => .ok (.node l r, pos2, seen2)
    | .ok false =>
      match takeNumber m off nbits 8 (pos + 1) 0 with
      | .error e => .error e
      | .ok x =>
        if BitVec.ofNat 8 x ∈ seen then .error (.err .treeFormatDuplicate (detail x pos))
        else .ok (.leaf (BitVec.ofNat 8 x), pos + 9, BitVec.ofNat 8 x :: seen)

/-- parseTree(B, off, nbits), rules R222 and R225. -/
def parseTree (m : Memory) (off nbits : Nat) : Except Stop Shape :=
  match parseNode m off nbits (nbits + 1) 0 [] with
  | .error e => .error e
  | .ok (t, pos, _) =>
    if pos = nbits then .ok t
    else .error (.err .treeFormatTooLarge (BitVec.ofNat 32 pos))

end Sys2Proof.Machine
end

