-- ==== Sys2Proof/Machine/Bus.lean ====
section
/-! DEFINITION. The host bus: the register block, the windows, and the read and write transactions (rules R80
to R91, R343). -/

namespace Sys2Proof.Machine

/-! ### The register block -/

/-- The registers of rule R30 that have an offset. -/
inductive Reg where
  | id | ibufSize | obufSize | ctrl | cmd | status | err | errInfo | ibufLen | obufLen
  | treeLen | treePad | dataPad | root | nodeCount | pend | cursor | streamLenLo | streamLenHi
  | dataOff | lkLen
  | lkBits (k : Fin 8)
  deriving DecidableEq, Repr

/-- The offsets of rules R31 to R51. -/
def regMap : List (Nat × Reg) :=
  [ (0x000, .id), (0x004, .ibufSize), (0x008, .obufSize), (0x010, .ctrl), (0x014, .cmd),
    (0x018, .status), (0x01C, .err), (0x020, .errInfo), (0x024, .ibufLen), (0x028, .obufLen),
    (0x02C, .treeLen), (0x030, .treePad), (0x034, .dataPad), (0x038, .root), (0x03C, .nodeCount),
    (0x040, .pend), (0x044, .cursor), (0x048, .streamLenLo), (0x04C, .streamLenHi),
    (0x050, .dataOff), (0x054, .lkLen) ]
  ++ [ (0x060, .lkBits 0), (0x064, .lkBits 1), (0x068, .lkBits 2), (0x06C, .lkBits 3),
    (0x070, .lkBits 4), (0x074, .lkBits 5), (0x078, .lkBits 6), (0x07C, .lkBits 7) ]

/-- The register at an offset of the register block, if there is one (rule R81). -/
def regAt (a : Nat) : Option Reg := Table.lookup regMap a

/-- The word a register reads as (rules R31 to R51). -/
def State.readReg (s : State) : Reg → Word
  | .id => Config.idValue
  | .ibufSize => BitVec.ofNat 32 s.params.ibufBytes
  | .obufSize => BitVec.ofNat 32 s.params.obufBytes
  | .ctrl => s.ctrlWord
  | .cmd => s.lastCmd
  | .status => s.statusWord
  | .err => s.err.setWidth 32
  | .errInfo => s.errInfo
  | .ibufLen => s.ibufLen
  | .obufLen => s.obufLen
  | .treeLen => s.treeLen
  | .treePad => s.treePad.setWidth 32
  | .dataPad => s.dataPad.setWidth 32
  | .root => s.root.setWidth 32
  | .nodeCount => s.nodeCount.setWidth 32
  | .pend => s.pendWord
  | .cursor => s.cursor.setWidth 32
  | .streamLenLo => s.streamLenLo
  | .streamLenHi => s.streamLenHi
  | .dataOff => s.dataOff
  | .lkLen => s.lkLen.setWidth 32
  | .lkBits k => s.lkBits[k.val]

/-- A host write to a register while idle (rule R85): a read-only register ignores it (rule R81). -/
def State.writeReg (s : State) (r : Reg) (v : Word) : State :=
  match r with
  | .ctrl => { s with ie := v.getLsbD 0 }
  | .cmd => s.accept v
  | .status => s.clearStatus v
  | .ibufLen => { s with ibufLen := v }
  | .pend => s.writePend v
  | .cursor => s.writeCursor v
  | .streamLenLo => { s with streamLenLo := v }
  | .streamLenHi => { s with streamLenHi := v }
  | .id => s
  | .ibufSize => s
  | .obufSize => s
  | .err => s
  | .errInfo => s
  | .obufLen => s
  | .treeLen => s
  | .treePad => s
  | .dataPad => s
  | .root => s
  | .nodeCount => s
  | .dataOff => s
  | .lkLen => s
  | .lkBits _ => s

/-! ### The windows -/

/-- The places a bus address can name (rule R81), each with its index in the place. -/
inductive Place where
  /-- A register. -/
  | reg (r : Reg)
  /-- Half h of WEIGHT[x], 0 the low half (rule R87). -/
  | weight (x h : Nat)
  /-- Word m of CODE[x] (rule R88). -/
  | code (x m : Nat)
  /-- Word m of NODE[i] (rule R89). -/
  | node (i m : Nat)
  /-- The word at byte j of IBUF (rule R90). -/
  | ibuf (j : Nat)
  /-- The word at byte j of OBUF (rule R91). -/
  | obuf (j : Nat)
  /-- Everything else: reads return 0, writes are ignored. -/
  | nothing
  deriving DecidableEq, Repr

/-- The address map, rule R81. -/
def placeAt (p : Config.Params) (a : Nat) : Place :=
  if a < 0x1000 then
    match regAt a with
    | some r => .reg r
    | none => .nothing
  else if 0x1000 ≤ a ∧ a < 0x1800 then .weight ((a - 0x1000) / 8) ((a - 0x1000) / 4 % 2)
  else if 0x2000 ≤ a ∧ a < 0x6000 then .code ((a - 0x2000) / 64) ((a - 0x2000) / 4 % 16)
  else if 0x8000 ≤ a ∧ a < 0xC000 then .node ((a - 0x8000) / 32) ((a - 0x8000) / 4 % 8)
  else if 0x1000000 ≤ a ∧ a < 0x1000000 + p.ibufBytes then .ibuf (a - 0x1000000)
  else if 0x4000000 ≤ a ∧ a < 0x4000000 + p.obufBytes then .obuf (a - 0x4000000)
  else .nothing

/-- The weight-window word, rule R87. -/
def State.weightWord (s : State) (x h : Nat) : Word := (s.weight x).extractLsb' (32 * h) 32

/-- The weight-window write, rule R87: one half is replaced, the other kept. -/
def State.writeWeight (s : State) (x h : Nat) (v : Word) : State :=
  let w := s.weight x
  s.setWeight x (if h = 0 then w.extractLsb' 32 32 ++ v else v ++ w.extractLsb' 0 32)

/-- The code-window word, rule R88: PRESENT and LEN in word 0, the bits in words 1 to 8. -/
def State.codeWindowWord (s : State) (x m : Nat) : Word :=
  match s.code x with
  | none => 0#32
  | some bs =>
    if m = 0 then 0x80000000#32 ||| BitVec.ofNat 32 (bs.length % 512)
    else if m ≤ 8 then codeWord bs (m - 1)
    else 0#32

/-- Word m of a valid record, rule R89. -/
def Node.windowWord (n : Node) (m : Nat) : Word :=
  match m with
  | 0 => if n.isInternal then 0x80000000#32 else 0xC0000000#32 ||| n.letter.setWidth 32
  | 1 => n.left.setWidth 32
  | 2 => n.right.setWidth 32
  | 3 => n.weight.extractLsb' 0 32
  | 4 => n.weight.extractLsb' 32 32
  | 5 => (n.weight.extractLsb' 64 8).setWidth 32
  | _ => 0#32

/-- The node-window word, rule R89: an invalid record reads 0. -/
def State.nodeWindowWord (s : State) (i m : Nat) : Word :=
  if i < s.nodeCount.toNat then
    match s.nodes[i]? with
    | some n => n.windowWord m
    | none => 0#32
  else 0#32

/-- One lane of an OBUF-window word, rules R57 and R91: the defined byte, or the lane's byte of the free
value where the byte has no defined value. -/
def State.obufLane (s : State) (j lane : Nat) : Byte :=
  let free := (Config.freeWord s.draws).extractLsb' (8 * lane) 8
  if j + lane < s.obufLen.toNat then (Memory.read s.obuf (j + lane)).getD free else free

/-- The OBUF-window word in the lane order of rule R83. -/
def State.obufWord (s : State) (j : Nat) : Word :=
  s.obufLane j 3 ++ s.obufLane j 2 ++ s.obufLane j 1 ++ s.obufLane j 0

/-- The IBUF-window write in the lane order of rule R83 (rules R85, R90). -/
def State.writeIbufWord (s : State) (j : Nat) (v : Word) : State :=
  if j + 3 < s.params.ibufBytes then
    { s with ibuf :=
        Memory.write (Memory.write (Memory.write (Memory.write s.ibuf j (v.extractLsb' 0 8))
          (j + 1) (v.extractLsb' 8 8)) (j + 2) (v.extractLsb' 16 8)) (j + 3) (v.extractLsb' 24 8) }
  else s

/-! ### Transactions -/

/-- MemRead(A, 4), rule R84. -/
def State.memRead (s : State) (a : Nat) : Word :=
  if s.busy && a != 0x018 && a != 0x014 then Config.freeWord s.draws
  else
    match placeAt s.params a with
    | .reg r => s.readReg r
    | .weight x h => s.weightWord x h
    | .code x m => s.codeWindowWord x m
    | .node i m => s.nodeWindowWord i m
    | .ibuf _ => 0#32
    | .obuf j => s.obufWord j
    | .nothing => 0#32

/-- MemWrite(A, 4, v), rule R85: dropped while busy (rule R343). -/
def State.memWrite (s : State) (a : Nat) (v : Word) : State :=
  if s.busy then { s with drop := true }
  else
    match placeAt s.params a with
    | .reg r => s.writeReg r v
    | .weight x h => s.writeWeight x h v
    | .ibuf j => s.writeIbufWord j v
    | .code _ _ => s
    | .node _ _ => s
    | .obuf _ => s
    | .nothing => s

/-- The accesses the bus admits, rule R80: one aligned 32-bit word below 2^27. -/
def admitted (a size : Nat) : Bool :=
  decide (size = 4) && decide (a % 4 = 0) && decide (a < 2 ^ Config.busAddrBits)

/-- A host read: the host records the word read; the block's state is not touched (rule R86). -/
def busRead (s : State) (a size : Nat) : Host.Outcome State Fault Refusal :=
  if admitted a size then
    .next { s with hostReads := s.memRead a :: s.hostReads, draws := s.draws + 1 }
  else .refused (.busAccessNotAdmitted a size)

/-- A host write. -/
def busWrite (s : State) (a size : Nat) (v : Word) : Host.Outcome State Fault Refusal :=
  if admitted a size then .next (s.memWrite a v)
  else .refused (.busAccessNotAdmitted a size)

end Sys2Proof.Machine
end

