-- ==== Sys2Proof/Machine/BitPacker.lean ====
section
/-! DEFINITION. ESTART and ECHUNK, the bit-packer and cross-chunk stitcher (rules R240 to R245). -/

namespace Sys2Proof.Machine

/-- ESTART, rule R240. -/
def execEstart (s : State) : Host.Outcome State Fault Refusal :=
  finish .estart s (.ok { s with pendBits := 0#3, pendByte := 0#8 })

/-- The codes of the next n letters of IBUF from index j on, concatenated; the first letter without a
code stops it (rules R201, R241, R244). -/
def chunkCodes (s : State) : Nat → Nat → Except Stop BitString
  | 0, _ => .ok []
  | n + 1, j =>
    match ibufByte s.ibuf j with
    | .error e => .error e
    | .ok x =>
      match s.code x.toNat with
      | none => .error (.err .missingCode (detail x.toNat j))
      | some bs =>
        match chunkCodes s n (j + 1) with
        | .error e => .error e
        | .ok rest => .ok (bs ++ rest)

/-- The complete bytes of a bit string, rule R241: |s| div 8 of them. -/
def wholeBytes (bs : BitString) : List Byte := pack (bs.take (8 * (bs.length / 8)))

/-- The 0 to 7 bits after the complete bytes, rule R241. -/
def leftover (bs : BitString) : BitString := bs.drop (8 * (bs.length / 8))

/-- The pending bits become r (rule R241): PEND_BITS = |r|, PEND_BYTE = r packed, 0 where r is empty. -/
def State.setPending (s : State) (r : BitString) : State :=
  { s with pendBits := BitVec.ofNat 3 r.length, pendByte := msbWord 8 r }

/-- The chunk's effect, rule R241, where bs is the pending bits and the codes of its letters: a last
chunk emits the leftover bits zero-padded and reports the padding (rule R245), any other keeps them. -/
def State.emitChunk (s : State) (f : Bool) (bs : BitString) : State :=
  let r := leftover bs
  if f then
    { (s.setOutput (wholeBytes bs ++ pack r)).setPending [] with
      dataPad := BitVec.ofNat 3 (padOf r.length) }
  else (s.setOutput (wholeBytes bs)).setPending r

/-- ECHUNK f=F, rule R241. -/
def execEchunk (f : Bool) (s : State) : Host.Outcome State Fault Refusal :=
  finish (.echunk f) s <|
    if ibufTooLong s then .error (.err .bufferBounds 1#32)
    else if s.treeValid then
      match chunkCodes s s.ibufLen.toNat 0 with
      | .error e => .error e
      | .ok bs => .ok (s.emitChunk f (s.pendingBits ++ bs))
    else .error (.err .noTree 0#32)

end Sys2Proof.Machine
end

