-- ==== Sys2Proof/Machine/BitUnpacker.lean ====
section
/-! DEFINITION. DSTART and DCHUNK, the bit-unpacker with its persistent cursor (rules R270 to R277). -/

namespace Sys2Proof.Machine

/-- DSTART, rule R270. -/
def execDstart (s : State) : Host.Outcome State Fault Refusal :=
  finish .dstart s (.ok { s with cursor := s.root })

/-- step(c, b), rule R271: the new cursor, and the letter emitted if there is one. -/
def cursorStep (s : State) (c : BitVec 9) (b : Bool) : BitVec 9 × List Byte :=
  let d := if b then (nodeAt s.nodes c).right else (nodeAt s.nodes c).left
  match nodeAt s.nodes d with
  | .leaf x _ => (s.root, [x])
  | .internal _ _ _ => (d, [])

/-- One bit of the decode loop of rule R272, bit i of the chunk: under a one-leaf tree a 0 emits the
letter and a 1 is DataMalformed sub-code 2 (rule R274). -/
def decodeBit (s : State) (i : Nat) (c : BitVec 9) (b : Bool) : Except Stop (BitVec 9 × List Byte) :=
  match nodeAt s.nodes s.root with
  | .leaf x _ => if b then .error (.err .dataMalformed (detail 2 i)) else .ok (c, [x])
  | .internal _ _ _ => .ok (cursorStep s c b)

/-- The next n bits of IBUF from bit i on, decoded from cursor c: the cursor after them and the letters
emitted (rule R272). -/
def decodeBits (s : State) : Nat → Nat → BitVec 9 → Except Stop (BitVec 9 × List Byte)
  | 0, _, c => .ok (c, [])
  | n + 1, i, c =>
    match ibufBit s.ibuf i with
    | .error e => .error e
    | .ok b =>
      match decodeBit s i c b with
      | .error e => .error e
      | .ok (c1, xs) =>
        match decodeBits s n (i + 1) c1 with
        | .error e => .error e
        | .ok (c2, ys) => .ok (c2, xs ++ ys)

/-- nb of rule R272: the padding is excluded only in a last chunk that has a last byte (rule R277). -/
def chunkBits (n : Nat) (l : Bool) (dpad : Nat) : Nat :=
  if l && decide (0 < n) then 8 * n - dpad else 8 * n

/-- DCHUNK l=L, pad=DPAD, rule R272. -/
def execDchunk (l : Bool) (dpad : Nat) (s : State) : Host.Outcome State Fault Refusal :=
  finish (.dchunk l dpad) s <|
    if ibufTooLong s then .error (.err .bufferBounds 1#32)
    else if s.treeValid then
      let nb := chunkBits s.ibufLen.toNat l dpad
      match decodeBits s nb 0 s.cursor with
      | .error e => .error e
      | .ok (c, out) =>
        if l && c != s.root then .error (.err .dataMalformed (detail 1 nb))
        else .ok { s.setOutput out with cursor := c }
    else .error (.err .noTree 0#32)

end Sys2Proof.Machine
end

