-- ==== Sys2Proof/Machine/CodeLookup.lean ====
section
/-! DEFINITION. LOOKUP (rules R200 to R202). -/

namespace Sys2Proof.Machine

/-- LK_LEN and LK_BITS0 to LK_BITS7 for a code, rule R51. -/
def State.setLookup (s : State) (bs : BitString) : State :=
  { s with
    lkLen := BitVec.ofNat 9 bs.length
    lkBits := #v[codeWord bs 0, codeWord bs 1, codeWord bs 2, codeWord bs 3,
                 codeWord bs 4, codeWord bs 5, codeWord bs 6, codeWord bs 7] }

/-- LOOKUP x, rule R200. -/
def execLookup (x : Nat) (s : State) : Host.Outcome State Fault Refusal :=
  finish (.lookup x) s <|
    if s.treeValid then
      match s.code x with
      | none => .error (.err .missingCode (detail x 0))
      | some bs => .ok (s.setLookup bs)
    else .error (.err .noTree 0#32)

end Sys2Proof.Machine
end

