-- ==== Sys2Proof/Machine/Control.lean ====
section
/-! DEFINITION. The control commands NOP, SRESET and WCLR (rules R150 to R152). -/

namespace Sys2Proof.Machine

/-- NOP, rule R150. -/
def execNop (s : State) : Host.Outcome State Fault Refusal := finish .nop s (.ok s)

/-- SRESET, rule R151: every state element takes its reset value, and LAST_CMD then the SRESET word. -/
def execSreset (s : State) : Host.Outcome State Fault Refusal :=
  finish .sreset s (.ok { s.resetBlock with lastCmd := 0x00000001#32 })

/-- WCLR, rule R152: every weight becomes 0. -/
def execWclr (s : State) : Host.Outcome State Fault Refusal :=
  finish .wclr s (.ok { s with weights := [] })

end Sys2Proof.Machine
end

