-- ==== Sys2Proof/Machine/TreeCodec.lean ====
section
/-! DEFINITION. TSER and TDES (rules R210 to R227). -/

namespace Sys2Proof.Machine

/-- TREE_LEN <- n; TREE_PAD <- p. -/
def State.setTreeForm (s : State) (n p : Nat) : State :=
  { s with treeLen := BitVec.ofNat 32 n, treePad := BitVec.ofNat 3 p }

/-- TSER, rule R213. -/
def execTser (s : State) : Host.Outcome State Fault Refusal :=
  finish .tser s <|
    if s.treeValid then
      let bytes := pack s.serialized
      .ok ((s.setOutput bytes).setTreeForm bytes.length (padOf s.serialized.length))
    else .error (.err .noTree 0#32)

/-- TDES tpad=TPAD, lw=LW, rule R220. -/
def execTdes (tpad lw : Nat) (s : State) : Host.Outcome State Fault Refusal :=
  finish (.tdes tpad lw) s <|
    if ibufTooLong s then .error (.err .bufferBounds 1#32)
    else if lw ≠ Config.lwNative then .error (.err .treeFormatTypeMismatch (BitVec.ofNat 32 lw))
    else
      match parseTree s.ibuf 0 (8 * s.ibufLen.toNat - tpad) with
      | .error e => .error e
      | .ok t => .ok ((s.installTree (t.records 0) 0#9).setTreeForm s.ibufLen.toNat tpad)

end Sys2Proof.Machine
end

