-- ==== Sys2Proof/Machine/StreamFraming.lean ====
section
/-! DEFINITION. HBUILD and HPARSE, the container header (rules R300 to R308). -/

namespace Sys2Proof.Machine

/-- The five header bytes of rule R300: the two padding nibbles, then TREE_LEN as a u32 big-endian. -/
def headerBytes (s : State) : List Byte :=
  ((s.treePad.setWidth 8 <<< 4) ||| s.dataPad.setWidth 8) :: bytesBE s.treeLen

/-- HBUILD, rule R300. -/
def execHbuild (s : State) : Host.Outcome State Fault Refusal :=
  finish .hbuild s (.ok (s.setOutput (headerBytes s)))

/-- The header byte and the declared tree length L, from the first five bytes of IBUF (rules R94, R303). -/
def readHeader (m : Memory) : Except Stop (Byte × Nat) := do
  let h ← ibufByte m 0
  let b1 ← ibufByte m 1
  let b2 ← ibufByte m 2
  let b3 ← ibufByte m 3
  let b4 ← ibufByte m 4
  pure (h, be32 b1 b2 b3 b4)

/-- A tree parse error inside HPARSE is InvalidHeader with detail 0x10 OR its code (rule R307); a model
fault stays one. -/
def headerParseStop : Stop → Stop
  | .err e _ => .err .invalidHeader (0x10#32 ||| e.code.setWidth 32)
  | .fault f => .fault f

/-- The registers HPARSE writes after it has installed the tree (rules R303, R308). -/
def State.setHeader (s : State) (L tp dp : Nat) : State :=
  { s.setTreeForm L tp with
    dataPad := BitVec.ofNat 3 dp
    dataOff := BitVec.ofNat 32 (5 + L) }

/-- The part of HPARSE after the header has been read: the checks of rule R305 from the declared length
on, then the parse, then the installation. -/
def parseContainer (s : State) (h : Byte) (L : Nat) : Except Stop State :=
  let tp := (h.extractLsb' 4 4).toNat
  let dp := (h.extractLsb' 0 4).toNat
  if s.streamLen.toNat - 5 < L then .error (.err .missingHeader 2#32)
  else if 7 < tp then .error (.err .invalidHeader 1#32)
  else if 7 < dp then .error (.err .invalidHeader 2#32)
  else if Config.treeMaxBytes < L then .error (.err .invalidHeader 3#32)
  else if s.ibufLen.toNat < 5 + L then .error (.err .bufferBounds 3#32)
  else
    match parseTree s.ibuf 5 (8 * L - tp) with
    | .error e => .error (headerParseStop e)
    | .ok t => .ok ((s.installTree (t.records 0) 0#9).setHeader L tp dp)

/-- HPARSE, rule R303. -/
def execHparse (s : State) : Host.Outcome State Fault Refusal :=
  finish .hparse s <|
    if ibufTooLong s then .error (.err .bufferBounds 1#32)
    else if s.streamLen.toNat < 5 then .error (.err .missingHeader 1#32)
    else if s.ibufLen.toNat < 5 then .error (.err .bufferBounds 2#32)
    else
      match readHeader s.ibuf with
      | .error e => .error e
      | .ok (h, L) => parseContainer s h L

end Sys2Proof.Machine
end

