-- ==== Sys2Proof/Machine/TreeBuilder.lean ====
section
/-! DEFINITION. BUILD, the greedy minimum-weight merger (rules R170 to R177). -/

namespace Sys2Proof.Machine

/-- The leaves of BUILD in ascending letter order (rules R170, R171). -/
def buildLeaves (s : State) : List Node :=
  (List.range Config.alphabet).filterMap fun x =>
    if s.weight x = 0#64 then none
    else some (.leaf (BitVec.ofNat 8 x) ((s.weight x).setWidth 72))

/-- N[i].weight, for the working index i of BUILD. -/
def weightAt (N : List Node) (i : Nat) : BitVec 72 := (N.getD i (.leaf 0#8 0#72)).weight

/-- Node i comes before node j: the pair (weight, index) is smaller (rule R173). -/
def lighter (N : List Node) (i j : Nat) : Bool :=
  decide ((weightAt N i).toNat < (weightAt N j).toNat)
    || (weightAt N i == weightAt N j && decide (i < j))

/-- argmin over {i} ∪ Q of (N[i].weight, i), rule R173. -/
def argmin (N : List Node) : Nat → List Nat → Nat
  | i, [] => i
  | i, j :: Q => argmin N (if lighter N j i then j else i) Q

/-- The merge loop of rules R170 and R174, over the records N and the priority structure Q; its answer
is the records and the root. The first argument bounds the merges, each of which takes one element
from Q. -/
def mergeAll : Nat → List Node → List Nat → List Node × Nat
  | _, N, [] => (N, 0)
  | _, N, [r] => (N, r)
  | 0, N, r :: _ :: _ => (N, r)
  | k + 1, N, i :: j :: Q =>
    let a := argmin N i (j :: Q)
    let Qa := (i :: j :: Q).erase a
    let b := argmin N (Qa.headD 0) Qa.tail
    let Qb := Qa.erase b
    mergeAll k
      (N ++ [.internal (weightAt N a + weightAt N b) (BitVec.ofNat 9 a) (BitVec.ofNat 9 b)])
      (Qb ++ [N.length])

/-- BUILD's records and root: the leaves, then the Internal nodes in the order of the merges (rule R171). -/
def buildTree (leaves : List Node) : List Node × Nat :=
  mergeAll leaves.length leaves (List.range leaves.length)

/-- BUILD, rule R170. -/
def execBuild (s : State) : Host.Outcome State Fault Refusal :=
  finish .build s <|
    match buildLeaves s with
    | [] => .error (.err .inputEmpty 0#32)
    | leaf :: leaves =>
      let built := buildTree (leaf :: leaves)
      .ok (s.installTree built.1 (BitVec.ofNat 9 built.2))

end Sys2Proof.Machine
end

