-- ==== Sys2Proof/Machine/Dispatch.lean ====
section
/-! DEFINITION. The command's one atomic step (rules R9, R340), by command. -/

namespace Sys2Proof.Machine

def exec (i : Instr) (s : State) : Host.Outcome State Fault Refusal :=
  match i with
  | .nop => Sys2Proof.Machine.execNop s
  | .sreset => Sys2Proof.Machine.execSreset s
  | .wclr => Sys2Proof.Machine.execWclr s
  | .build => Sys2Proof.Machine.execBuild s
  | .lookup x => Sys2Proof.Machine.execLookup x s
  | .tser => Sys2Proof.Machine.execTser s
  | .tdes tpad lw => Sys2Proof.Machine.execTdes tpad lw s
  | .estart => Sys2Proof.Machine.execEstart s
  | .echunk f => Sys2Proof.Machine.execEchunk f s
  | .dstart => Sys2Proof.Machine.execDstart s
  | .dchunk l dpad => Sys2Proof.Machine.execDchunk l dpad s
  | .hbuild => Sys2Proof.Machine.execHbuild s
  | .hparse => Sys2Proof.Machine.execHparse s

end Sys2Proof.Machine
end

