-- ==== Sys2Proof/Machine/Perform.lean ====
section
/-! DEFINITION. The block's turn and the other events at its boundary (rules R9, R117, R340, R370), and where
the step takes its command word from. -/

namespace Sys2Proof.Machine

/-- The word of the command being performed, rules R58 and R101: the accepted one, which LAST_CMD shows. -/
def State.commandWord (s : State) : Word := s.lastCmd

/-- The block performs the accepted command in one atomic step; an illegal word raises IllegalCommand
with ERR_INFO = 0 and changes nothing else (rules R117, R340). -/
def performCommand (s : State) : Host.Outcome State Fault Refusal :=
  match decode s.commandWord with
  | .ok i => exec i s
  | .error _ => .next (s.raise none .illegalCommand 0#32)

/-- The block's turn: it performs its command while busy, and has no step while idle (rule R9). -/
def blockTurn (s : State) : Host.Outcome State Fault Refusal :=
  if s.busy then performCommand s else .next s

/-- Hardware reset, rule R370: one atomic step from any state, busy or not. -/
def hardReset (s : State) : Host.Outcome State Fault Refusal := .next s.resetBlock

/-- One event at the boundary (rule R9). -/
def handleInput (e : Input) (s : State) : Host.Outcome State Fault Refusal :=
  match e with
  | .busRead a size => busRead s a size
  | .busWrite a size v => busWrite s a size v
  | .hardReset => hardReset s
  | .blockTurn => blockTurn s

/-- The next event at the boundary. When none is pending the block has its turn, so that an accepted
command completes after finitely many steps (rules R9, R385). -/
def stepOnce (s : State) : Host.Outcome State Fault Refusal :=
  match s.inputs with
  | [] => blockTurn s
  | e :: rest => handleInput e { s with inputs := rest }

/-- The state in which word w has just been accepted (rule R340) and the block has the next turn. -/
def State.withAccepted (s : State) (w : Word) : State :=
  { s.accept w with inputs := .blockTurn :: s.inputs }

end Sys2Proof.Machine
end

