-- ==== Sys2Proof/Machine/Step.lean ====
section
/-! DEFINITION. The step function, and how a command word is placed for the very next step. -/

namespace Sys2Proof.Machine

/-- One step: one host transaction, one hardware reset, or one whole command (rules R9, R98). -/
def step (s : State) : Host.Outcome State Fault Refusal := stepOnce s

/-- s with the command word accepted and the block's turn next, so that the very next step performs it.
HUFFCORE fetches nothing (rule R61): the host's CMD write is how a command comes to run, and this is
the state that write leaves (log entry 4). -/
def State.withFetchWord (s : State) (nbits w : Nat) : State := s.withAccepted (tableWord nbits w)

end Sys2Proof.Machine
end

