-- ==== Sys2Proof/Machine/HostProgram.lean ====
section
/-! DEFINITION. Host programs: the assembler statements of rule R124, the pseudo-commands of rule R125 with their
expansions, the events at the block's boundary that a statement is, and the bytes that obuf yields. -/

namespace Sys2Proof.Machine

/-! ### Statements and their expansions -/

/-- The statements that every other one expands to: those of rule R124, and wait. -/
inductive Basic where
  /-- A command statement: issue the command. -/
  | command (i : Instr)
  /-- wr: write the word at this bus address, which for a register is its offset. -/
  | wr (a : Nat) (v : Word)
  /-- rd: read the word at this bus address. -/
  | rd (a : Nat)
  /-- wait: poll STATUS until BUSY reads 0. -/
  | wait
  deriving DecidableEq, Repr

/-- A statement of a host program: one of rule R124, or a pseudo-command of rule R125. -/
inductive Stmt where
  | basic (b : Basic)
  /-- run C. -/
  | run (i : Instr)
  /-- weight x, w. -/
  | weight (x w : Nat)
  /-- ibuf b0 b1 ... -/
  | ibuf (bs : List Byte)
  /-- obuf. -/
  | obuf
  /-- encode. -/
  | encode
  /-- decode p. -/
  | decode (p : Nat)
  deriving DecidableEq, Repr

/-- The operands fit: a command is well formed, and an address is one the bus admits (rule R80). The pseudo-commands
of rule R125 expand to writes and reads of the windows as well as of the registers. -/
def Basic.wellFormed : Basic → Bool
  | .command i => i.wellFormed
  | .wr a _ => admitted a 4
  | .rd a => admitted a 4
  | .wait => true

/-- The operands fit: a letter is a byte, a weight has 64 bits, a padding count is at most 7, and the bytes of an
ibuf have bus addresses. -/
def Stmt.wellFormed : Stmt → Bool
  | .basic b => b.wellFormed
  | .run i => i.wellFormed
  | .weight x w => decide (x < 256) && decide (w < 2 ^ 64)
  | .ibuf bs => decide (0x1000000 + bs.length ≤ 2 ^ Config.busAddrBits)
  | .obuf => true
  | .encode => true
  | .decode p => decide (p < 8)

/-- run C, rule R125. -/
def runBasics (i : Instr) : List Basic := [.command i, .wait]

/-- Word j of a byte string in the lane order of rule R83, 0x00 where there is no byte (rule R125). -/
def laneWord (bs : List Byte) (j : Nat) : Word :=
  bs.getD (4 * j + 3) 0#8 ++ bs.getD (4 * j + 2) 0#8 ++ bs.getD (4 * j + 1) 0#8 ++ bs.getD (4 * j) 0#8

/-- The expansions of rule R125, down to the statements of rule R124 and wait. n is the value of OBUF_LEN, which only
obuf depends on. -/
def Stmt.expand (n : Nat) : Stmt → List Basic
  | .basic b => [b]
  | .run i => runBasics i
  | .weight x w =>
    [.wr (0x1000 + 8 * x) (BitVec.ofNat 32 (w % 2 ^ 32)), .wr (0x1004 + 8 * x) (BitVec.ofNat 32 (w / 2 ^ 32))]
  | .ibuf bs =>
    ((List.range ((bs.length + 3) / 4)).map fun j => Basic.wr (0x1000000 + 4 * j) (laneWord bs j))
      ++ [.wr 0x024 (BitVec.ofNat 32 bs.length)]
  | .obuf => (List.range ((n + 3) / 4)).map fun j => Basic.rd (0x4000000 + 4 * j)
  | .encode => runBasics .estart ++ runBasics (.echunk true)
  | .decode p => runBasics .dstart ++ runBasics (.dchunk true p)

/-! ### The events of a statement -/

/-- wait, rule R125: k reads of STATUS that find the block busy, the block's turn, and the read that finds it idle. -/
def waitEvents (k : Nat) : List Input := List.replicate k (.busRead 0x018 4) ++ [.blockTurn, .busRead 0x018 4]

/-- The transactions of rule R124; a command statement writes the command's word to CMD. -/
def Basic.events (k : Nat) : Basic → List Input
  | .command i => [.busWrite 0x014 4 (encode i)]
  | .wr a v => [.busWrite a 4 v]
  | .rd a => [.busRead a 4]
  | .wait => waitEvents k

/-- The events of a statement, where n is OBUF_LEN and each wait finds the block busy k times. -/
def Stmt.events (n k : Nat) (s : Stmt) : List Input := (s.expand n).flatMap (Basic.events k)

/-- The events of a program, each statement with the OBUF_LEN it meets and the number of its busy polls. -/
def programEvents (p : List (Stmt × Nat × Nat)) : List Input := p.flatMap fun e => e.1.events e.2.1 e.2.2

/-! ### The result of obuf -/

/-- The four bytes of a bus word in the lane order of rule R83. -/
def laneBytes (w : Word) : List Byte :=
  [w.extractLsb' 0 8, w.extractLsb' 8 8, w.extractLsb' 16 8, w.extractLsb' 24 8]

/-- The result of obuf, rule R125: the first n bytes, in lane order, of the words its reads returned. -/
def obufBytes (n : Nat) (words : List Word) : List Byte := (words.flatMap laneBytes).take n

/-- The words of the host's last m reads, in the order of the reads. -/
def State.lastReads (s : State) (m : Nat) : List Word := (s.hostReads.take m).reverse

/-- What the obuf that has just run yields, where n was OBUF_LEN (rules R91, R125). -/
def State.obufResult (s : State) (n : Nat) : List Byte := obufBytes n (s.lastReads ((n + 3) / 4))

/-! ### Statements as they are written -/

/-- A command statement as it is written, with the operands that may be omitted (rule R124). -/
inductive Written where
  /-- A command with no operand to omit. -/
  | command (i : Instr)
  /-- TDES tpad=t, lw=w. -/
  | tdes (tpad : Nat) (lw : Option Nat)
  /-- ECHUNK f=b. -/
  | echunk (f : Option Bool)
  /-- DCHUNK l=b, pad=p. -/
  | dchunk (l : Option Bool) (pad : Option Nat)
  deriving DecidableEq, Repr

/-- The command a statement issues: an omitted lw= means 1, and an omitted f=, l= or pad= means 0 (rule R124). -/
def Written.instr : Written → Instr
  | .command i => i
  | .tdes tpad lw => .tdes tpad (lw.getD 1)
  | .echunk f => .echunk (f.getD false)
  | .dchunk l pad => .dchunk (l.getD false) (pad.getD 0)

/-- The characters that have an ASCII code, the only ones rules R124 and R125 give a byte for. DESIGN CHOICE (log
entry 18): a statement written with any other is not well formed. -/
def textWellFormed (s : String) : Bool := s.toList.all fun c => decide (c.toNat < 128)

/-- A letter written as a character stands for its ASCII code (rule R124). DESIGN CHOICE (log entry 18): the rule
gives a character outside ASCII none, textWellFormed refuses it, and the function, total, answers its code point. -/
def letterOf (c : Char) : Nat := c.toNat

/-- A text string stands for the bytes of its ASCII characters (rule R125). DESIGN CHOICE (log entry 18): the rule
gives a character outside ASCII no byte, textWellFormed refuses it, and the function, total, answers its code point
modulo 256. -/
def textBytes (s : String) : List Byte := s.toList.map fun c => BitVec.ofNat 8 c.toNat

/-- The names of the registers, with their offsets (rules R31 to R51, R124). -/
def registerNames : List (String × Nat) :=
  [ ("ID", 0x000), ("IBUF_SIZE", 0x004), ("OBUF_SIZE", 0x008), ("CTRL", 0x010), ("CMD", 0x014), ("STATUS", 0x018),
    ("ERR", 0x01C), ("ERR_INFO", 0x020), ("IBUF_LEN", 0x024), ("OBUF_LEN", 0x028), ("TREE_LEN", 0x02C),
    ("TREE_PAD", 0x030), ("DATA_PAD", 0x034), ("ROOT", 0x038), ("NODE_COUNT", 0x03C), ("PEND", 0x040),
    ("CURSOR", 0x044), ("STREAM_LEN_LO", 0x048), ("STREAM_LEN_HI", 0x04C), ("DATA_OFF", 0x050), ("LK_LEN", 0x054) ]
  ++ [ ("LK_BITS0", 0x060), ("LK_BITS1", 0x064), ("LK_BITS2", 0x068), ("LK_BITS3", 0x06C), ("LK_BITS4", 0x070),
    ("LK_BITS5", 0x074), ("LK_BITS6", 0x078), ("LK_BITS7", 0x07C) ]

/-- The offset of the register of this name. -/
def registerOffset (name : String) : Option Nat :=
  (registerNames.find? fun e => e.1 == name).map Prod.snd

end Sys2Proof.Machine
end

