-- ==== Sys2Proof/Safety.lean ====
section
/-! DEFINITION. What counts as a good state of HUFFCORE, and the words the claims are stated in: a host
transaction, the tree that the node records form (rule R53), the serialization of a shape (rule R121), a loaded
chunk (rule R380). -/

namespace Sys2Proof.Machine

/-! ### Steps -/

/-- The next event at the boundary is the block's turn: none is pending, or the first one is that turn. -/
def State.turn (s : State) : Prop := s.inputs = [] ∨ ∃ rest, s.inputs = .blockTurn :: rest

/-- The host reads word v at address a: the step in which it does answers s with the word recorded. -/
def State.reads (s : State) (a : Nat) (v : Word) : Prop :=
  ∀ rest, step { s with inputs := .busRead a 4 :: rest }
    = .next { s with inputs := rest, hostReads := v :: s.hostReads, draws := s.draws + 1 }

/-- The host writes word v at address a: the step in which it does answers t. -/
def State.writes (s : State) (a : Nat) (v : Word) (t : State) : Prop :=
  ∀ rest, step { s with inputs := .busWrite a 4 v :: rest } = .next { t with inputs := rest }

/-- The state n steps on, where none of them stops. -/
def runSteps : Nat → State → Option State
  | 0, s => some s
  | n + 1, s =>
    match step s with
    | .next t => runSteps n t
    | .fault _ => none
    | .refused _ => none

/-- The addresses the bus admits, rule R80. -/
abbrev BusAddress (a : Nat) : Prop := a % 4 = 0 ∧ a < 2 ^ 27

/-! ### The tree -/

/-- The indices met when children are followed from node i, in pre-order. The first argument bounds the
depth. -/
def visits (N : List Node) : Nat → BitVec 9 → List Nat
  | 0, _ => []
  | f + 1, i =>
    i.toNat :: (match nodeAt N i with
      | .leaf _ _ => []
      | .internal _ l r => visits N f l ++ visits N f r)

/-- The letters of the Leaf records, in index order. -/
def leafLetters (N : List Node) : List Byte :=
  N.filterMap fun n => match n with
    | .leaf x _ => some x
    | .internal _ _ _ => none

/-- The child indices the Internal records name, in index order. -/
def childIndices (N : List Node) : List Nat :=
  N.flatMap fun n => match n with
    | .leaf _ _ => []
    | .internal _ l r => [l.toNat, r.toNat]

/-- Internal.weight == left.weight + right.weight, exactly, for every Internal record (rules R53, R172). -/
def WeightsAdd (N : List Node) : Prop :=
  ∀ n ∈ N, match n with
    | .leaf _ _ => True
    | .internal w l r => w.toNat = (nodeAt N l).weight.toNat + (nodeAt N r).weight.toNat

/-- The records N form one tree with root r (rule R53): following children from r meets every record
exactly once, the leaves' letters are distinct, there are 2k − 1 records for k leaves, 1 ≤ k ≤ 256, and
the weights add up. -/
structure ProperTree (N : List Node) (r : BitVec 9) : Prop where
  reaches : (visits N (N.length + 1) r).Perm (List.range N.length)
  letters : (leafLetters N).Nodup
  count : N.length + 1 = 2 * leafCount N
  someLeaf : 1 ≤ leafCount N
  fewLeaves : leafCount N ≤ 256
  weightsAdd : WeightsAdd N

/-- The index is that of an Internal record. -/
def internalAt (N : List Node) (i : BitVec 9) : Prop := ∃ w l r, N[i.toNat]? = some (.internal w l r)

/-- The node a path leads to from node i, left on 0 and right on 1; a Leaf has nothing below it (rules R120,
R180). -/
def descend (N : List Node) : BitVec 9 → BitString → Option Node
  | i, [] => some (nodeAt N i)
  | i, b :: p =>
    match nodeAt N i with
    | .leaf _ _ => none
    | .internal _ l r => descend N (if b then r else l) p

/-- The letters with a non-zero weight, ascending (rules R170, R171). -/
def presentLetters (s : State) : List Nat :=
  (List.range Config.alphabet).filter fun x => s.weight x != 0#64

/-- The pair (weight, index) of node i is at most that of node j (rule R173). -/
def NotHeavier (N : List Node) (i j : Nat) : Prop :=
  (weightAt N i).toNat < (weightAt N j).toNat ∨ ((weightAt N i).toNat = (weightAt N j).toNat ∧ i ≤ j)

/-- Node i is in the priority structure when record m is made: it exists, and no earlier record is its
parent (rule R174). -/
def Awaits (N : List Node) (m i : Nat) : Prop := i < m ∧ i ∉ childIndices (N.take m)

/-- While TREE_VALID = 1 the records form a tree, and the registers and the code table describe it
(rules R41, R42, R44, R45, R47, R53, R54); while it is 0 they hold nothing (rules R53, R54, R346). -/
def State.TreeOk (s : State) : Prop :=
  (s.treeValid = true →
    ProperTree s.nodes s.root ∧ s.nodeCount.toNat = s.nodes.length
      ∧ s.codes = deriveCodes s.nodes s.root
      ∧ s.treeLen.toNat = (serializedBits (leafCount s.nodes) + 7) / 8
      ∧ s.treePad.toNat = padOf (serializedBits (leafCount s.nodes))
      ∧ (s.cursor = s.root ∨ internalAt s.nodes s.cursor))
  ∧ (s.treeValid = false →
    s.nodes = [] ∧ s.nodeCount = 0#10 ∧ s.root = 0#9 ∧ s.codes = [] ∧ s.treeLen = 0#32
      ∧ s.treePad = 0#3 ∧ s.dataOff = 0#32 ∧ s.cursor = 0#9)

/-! ### Registers and buffers -/

/-- BUSY and DONE are never both set (rules R340, R341, R345); ERR holds a code of rule R331 that a
command can raise, with ERR_INFO = 0 on success (rules R38, R347); the low bits of PEND_BYTE that
PEND_BITS does not cover are 0 (rule R46). -/
def State.RegistersOk (s : State) : Prop :=
  (s.busy = true → s.done = false)
  ∧ s.err.toNat ≤ 0x0D ∧ s.err ≠ 0x08#8 ∧ (s.err = 0#8 → s.errInfo = 0#32)
  ∧ s.pendByte &&& ~~~ highMask s.pendBits.toNat = 0#8

/-- Memory is in canonical form: IBUF and WEIGHT list rising keys inside their ranges, WEIGHT lists no
zero, and OBUF lists the bytes below OBUF_LEN and no other (rules R50, R56, R57). -/
def State.BuffersOk (s : State) : Prop :=
  Memory.wf s.ibuf ∧ (∀ c ∈ s.ibuf, c.1 < s.params.ibufBytes)
  ∧ (∃ bs, s.obuf = Memory.ofBytes bs ∧ bs.length = s.obufLen.toNat)
  ∧ Table.wf s.weights ∧ (∀ e ∈ s.weights, e.1 < Config.alphabet ∧ e.2 ≠ 0#64)

/-- The invariant of the machine: the parameters are legal, the registers, the buffers and the tree are
as the rules say, and no command has overflowed OBUF (rules R8, R40). -/
structure State.Inv (s : State) : Prop where
  params : s.params.Valid
  registers : s.RegistersOk
  buffers : s.BuffersOk
  tree : s.TreeOk
  output : s.obufLen.toNat ≤ s.params.obufBytes

/-! ### Shapes and chunks -/

/-- The serialized tree of the grammar of rule R121. -/
def Shape.bits : Shape → BitString
  | .leaf x => false :: bits8 x
  | .node l r => true :: (l.bits ++ r.bits)

/-- The letters of a shape's leaves, left to right. -/
def Shape.letters : Shape → List Byte
  | .leaf x => [x]
  | .node l r => l.letters ++ r.letters

/-- The letters of the leaves whose tag and letter lie wholly within the first n bits of the serialization, left to
right: those a parser that has been given only these bits has met (rules R121, R223). -/
def Shape.lettersWithin : Shape → Nat → List Byte
  | .leaf x, n => if 9 ≤ n then [x] else []
  | .node l r, n => l.lettersWithin (n - 1) ++ r.lettersWithin (n - 1 - l.bits.length)

/-- The letters with their codes, left to right, under the path p (rule R180's walk, on a shape). -/
def Shape.paths : Shape → BitString → List (Nat × BitString)
  | .leaf x, p => [(x.toNat, p)]
  | .node l r, p => l.paths (p ++ [false]) ++ r.paths (p ++ [true])

/-- The bit offsets of the leaves' tags, left to right, where the first bit has offset pos (rule R223). -/
def Shape.leafOffsets : Shape → Nat → List Nat
  | .leaf _, pos => [pos]
  | .node l r, pos => l.leafOffsets (pos + 1) ++ r.leafOffsets (pos + 1 + l.bits.length)

/-- IBUF holds the bytes bs and IBUF_LEN counts them: what a host leaves that has loaded a chunk
(rule R380, duty 4). -/
def State.Loaded (s : State) (bs : List Byte) : Prop :=
  s.ibufLen.toNat = bs.length ∧ bs.length ≤ s.params.ibufBytes
  ∧ ∀ j, (h : j < bs.length) → Memory.read s.ibuf j = some bs[j]

/-- IBUF holds the bytes bs, and its next byte, which IBUF_LEN counts, holds no value: what a host leaves that has
broken duty 4 of rule R380. -/
structure State.WrittenUpTo (s : State) (bs : List Byte) : Prop where
  fits : s.ibufLen.toNat ≤ s.params.ibufBytes
  counted : bs.length < s.ibufLen.toNat
  written : ∀ j, (h : j < bs.length) → Memory.read s.ibuf j = some bs[j]
  unwritten : Memory.read s.ibuf bs.length = none

/-- Every byte below IBUF_LEN is covered by a host write (rule R380, duty 4). -/
def State.Covered (s : State) : Prop := ∀ j, j < s.ibufLen.toNat → ∃ b, Memory.read s.ibuf j = some b

/-- The state after the host has loaded the chunk bs over an input buffer that held no other byte. -/
def State.load (s : State) (bs : List Byte) : State :=
  { s with ibuf := Memory.ofBytes bs, ibufLen := BitVec.ofNat 32 bs.length }

/-- The bytes OBUF[0..OBUF_LEN). -/
def State.output (s : State) : List Byte := s.obuf.map Prod.snd

/-- The bits of a byte string, most significant first (rule R13). -/
def bitsOf (bs : List Byte) : BitString := bs.flatMap bits8

/-- The codes of a letter sequence, concatenated, where every letter has one (rules R123, R201). -/
def codesOf (s : State) : List Byte → Option BitString
  | [] => some []
  | x :: xs =>
    match s.code x.toNat, codesOf s xs with
    | some c, some cs => some (c ++ cs)
    | _, _ => none

/-- The decode loop of rules R271 and R272 on a bit string, for a tree of two leaves or more: the cursor after
it and the letters emitted. -/
def State.unpack (s : State) : BitVec 9 → BitString → BitVec 9 × List Byte
  | c, [] => (c, [])
  | c, b :: bs =>
    let d := if b then (nodeAt s.nodes c).right else (nodeAt s.nodes c).left
    match nodeAt s.nodes d with
    | .leaf x _ => ((s.unpack s.root bs).1, x :: (s.unpack s.root bs).2)
    | .internal _ _ _ => s.unpack d bs

/-- The bits of the chunk bs that DCHUNK decodes (rules R272, R277). -/
def dataBits (bs : List Byte) (l : Bool) (dpad : Nat) : BitString :=
  if l = true ∧ bs ≠ [] then (bitsOf bs).take (8 * bs.length - dpad) else bitsOf bs

/-! ### Streams -/

/-- The host loads a chunk and the block performs i on it: the state after and the output, where the
command succeeds. -/
def State.runOn (s : State) (i : Instr) (chunk : List Byte) : Option (State × List Byte) :=
  match exec i (s.load chunk) with
  | .next t => if t.err = 0#8 then some (t, t.output) else none
  | .fault _ => none
  | .refused _ => none

/-- The pass over a stream that rule R246 describes, after ESTART: ECHUNK f=0 for every chunk but the
last, ECHUNK f=1 for the last; the outputs are concatenated. -/
def State.packStream (s : State) : List (List Byte) → Option (State × List Byte)
  | [] => none
  | [c] => s.runOn (.echunk true) c
  | c :: d :: cs =>
    match s.runOn (.echunk false) c with
    | none => none
    | some (t, out) => (t.packStream (d :: cs)).map fun p => (p.1, out ++ p.2)

/-- The pass over a data region that rule R276 describes, after DSTART: DCHUNK l=0 for every chunk but
the last, DCHUNK l=1, pad=p for the last; the outputs are concatenated. -/
def State.unpackStream (s : State) (p : Nat) : List (List Byte) → Option (State × List Byte)
  | [] => none
  | [c] => s.runOn (.dchunk true p) c
  | c :: d :: cs =>
    match s.runOn (.dchunk false 0) c with
    | none => none
    | some (t, out) => (t.unpackStream p (d :: cs)).map fun q => (q.1, out ++ q.2)

/-! ### What a command leaves when it ends -/

/-- The error codes each command can raise on a legal word, rule R331's "raised by" column. -/
def raisable : Instr → List Byte
  | .nop => []
  | .sreset => []
  | .wclr => []
  | .build => [0x01#8]
  | .lookup _ => [0x02#8, 0x09#8]
  | .tser => [0x09#8]
  | .tdes _ _ => [0x03#8, 0x04#8, 0x05#8, 0x0A#8, 0x0D#8]
  | .estart => []
  | .echunk _ => [0x02#8, 0x09#8, 0x0D#8]
  | .dstart => []
  | .dchunk _ _ => [0x09#8, 0x0B#8, 0x0D#8]
  | .hbuild => []
  | .hparse => [0x06#8, 0x07#8, 0x0D#8]

/-- The table of rule R62, as the host and the commands see each element; its constant registers are those of
rules R31 to R33. -/
structure State.ResetTable (s : State) : Prop where
  constants : s.readReg .id = 0x48554646#32 ∧ s.readReg .ibufSize = BitVec.ofNat 32 s.params.ibufBytes
    ∧ s.readReg .obufSize = BitVec.ofNat 32 (32 * s.params.ibufBytes + 4)
  ctrl : s.ctrlWord = 0#32
  lastCmd : s.lastCmd = 0#32
  status : s.statusWord = 0#32
  err : s.err = 0#8 ∧ s.errInfo = 0#32
  lengths : s.ibufLen = 0#32 ∧ s.obufLen = 0#32
  treeForm : s.treeLen = 0#32 ∧ s.treePad = 0#3 ∧ s.dataPad = 0#3
  treeShape : s.root = 0#9 ∧ s.nodeCount = 0#10
  pend : s.pendWord = 0#32
  cursor : s.cursor = 0#9
  streamLen : s.streamLenLo = 0#32 ∧ s.streamLenHi = 0#32
  dataOff : s.dataOff = 0#32
  lookup : s.lkLen = 0#9 ∧ ∀ k, (h : k < 8) → s.lkBits[k] = 0#32
  weights : ∀ x, s.weight x = 0#64
  nodes : s.nodes = []
  codes : ∀ x, s.code x = none
  ibuf : ∀ j, Memory.read s.ibuf j = none
  obuf : ∀ j, Memory.read s.obuf j = none

/-- s with the completion state of rule R341. -/
def State.succeeded (s : State) : State := { s with err := 0#8, errInfo := 0#32, busy := false, done := true }

/-- s with the completion state of rule R345 and nothing else changed. -/
def State.failed (s : State) (code : Byte) (info : Word) : State :=
  { s with err := code, errInfo := info, errs := true, busy := false, done := true }

/-- s with no tree, every element of rule R346 at the value the rule gives it. -/
def State.withoutTree (s : State) : State :=
  { s with treeValid := false, nodeCount := 0#10, root := 0#9, nodes := [], codes := [],
           treeLen := 0#32, treePad := 0#3, dataOff := 0#32, cursor := 0#9 }

/-- s with no output (rules R57, R345). -/
def State.withoutOutput (s : State) : State := { s with obufLen := 0#32, obuf := [] }

/-- s with the output bs, and OBUF_LEN its length (rule R57). -/
def State.withOutput (s : State) (bs : List Byte) : State :=
  { s with obuf := Memory.ofBytes bs, obufLen := BitVec.ofNat 32 bs.length }

/-- s with the pre-order records of a parsed shape installed (rules R176, R224), whose serialization has
len bytes and pad padding bits and whose data, if it stands in a container, begins at byte off. -/
def State.withParsedTree (s : State) (t : Shape) (len pad off : Nat) : State :=
  { s with
    nodes := t.records 0
    nodeCount := BitVec.ofNat 10 t.size
    root := 0#9
    codes := codeTable (codeEntries (t.records 0) 0#9)
    treeLen := BitVec.ofNat 32 len
    treePad := BitVec.ofNat 3 pad
    dataOff := BitVec.ofNat 32 off
    cursor := 0#9
    treeValid := true }

end Sys2Proof.Machine
end

