-- ==== Sys2Proof/Certificates/Slice0/Obligations.lean ====
section
/-! DEFINITION. The statements for the provers, by the spec's own order: encoding, steps, bus, errors, commands,
frames, invariants, streams. -/

open Sys2Proof Sys2Proof.Machine

/-! ### Encoding -/

/-- Every well-formed command is read back from its word, operands included, and a word that decodes is the
one word of a well-formed command (rules R110, R111, R112, R116, R118, R119, R124). -/
def Obligations.DecodeEncodeAgree : Prop :=
  (∀ i : Instr, i.wellFormed = true → decode (encode i) = .ok i)
  ∧ ∀ (w : Word) (i : Instr), decode w = .ok i → i.wellFormed = true ∧ encode i = w

/-- Words written out from rule R124 and the 4N files' encodings decode to the commands they stand for. -/
def Obligations.WrittenWordsDecode : Prop :=
  decode 0x00000000#32 = .ok .nop
  ∧ decode 0x00000003#32 = .ok .build
  ∧ decode 0x00006104#32 = .ok (.lookup 0x61)
  ∧ decode 0x00160006#32 = .ok (.tdes 3 1)
  ∧ decode 0x00010008#32 = .ok (.echunk true)
  ∧ decode 0x000F000A#32 = .ok (.dchunk true 7)
  ∧ decode 0x0000000C#32 = .ok .hparse
  ∧ decode 0x0000000D#32 = .error (.undefinedOpcode 0x0D#8)
  ∧ decode 0x01000000#32 = .error (.unusedBitSet 0x00#8)

/-- Rule R117: a word is legal exactly when it selects a row of the opcode map, its two cases are all the
illegal words, and the block performs an accepted illegal word by raising IllegalCommand with ERR_INFO = 0,
changing nothing else. -/
def Obligations.IllegalWords : Prop :=
  ∀ w : Word,
    ((∃ i, decode w = .ok i) ↔ ∃ r ∈ opTable, w &&& r.mask = r.matchBits)
    ∧ ((¬ ∃ r ∈ opTable, w &&& r.mask = r.matchBits) ↔
        (0x0D ≤ (w.extractLsb' 0 8).toNat
          ∨ ∃ r ∈ opTable, w.extractLsb' 0 8 = r.matchBits.setWidth 8
              ∧ w &&& (r.mask &&& 0xFFFFFF00#32) ≠ 0#32))
    ∧ ∀ s : State, s.busy = true → s.turn → s.lastCmd = w → (¬ ∃ r ∈ opTable, w &&& r.mask = r.matchBits) →
        step s = .next ({ s with inputs := s.inputs.tail }.failed 0x0C#8 0#32)

/-! ### Steps -/

/-- While busy, the block's turn is exec of the command its accepted word decodes to (rules R9, R58, R340); a
word placed by withFetchWord is performed by the very next step (log entry 4); with no write and no reset next, a
step of an idle block changes nothing but the host's own record (rules R9, R361); and a reset keeps the parameter
IBUF_BYTES, the pending events and the host's own record (the model's choice, log entries 1 to 3 and 5). -/
def Obligations.StepRunsDecodedCommand : Prop :=
  (∀ (s : State) (i : Instr), s.busy = true → s.turn → decode s.lastCmd = .ok i →
    step s = exec i { s with inputs := s.inputs.tail })
  ∧ (∀ (s : State) (n w : Nat) (i : Instr), decode (BitVec.ofNat 32 (w % 2 ^ n)) = .ok i →
    step (s.withFetchWord n w)
      = exec i { s with lastCmd := BitVec.ofNat 32 (w % 2 ^ n), done := false, busy := true })
  ∧ (∀ s t : State, s.busy = false → step s = .next t →
    (∀ a size v rest, s.inputs ≠ .busWrite a size v :: rest) → (∀ rest, s.inputs ≠ .hardReset :: rest) →
    t = { s with inputs := s.inputs.tail, hostReads := t.hostReads, draws := t.draws })
  ∧ (∀ (s : State) (rest : List Input), ∃ t, step { s with inputs := .hardReset :: rest } = .next t
      ∧ t.params = s.params ∧ t.inputs = rest ∧ t.hostReads = s.hostReads ∧ t.draws = s.draws)
  ∧ ∀ s : State, ∃ t, exec .sreset s = .next t
      ∧ t.params = s.params ∧ t.inputs = s.inputs ∧ t.hostReads = s.hostReads ∧ t.draws = s.draws

/-- Rule R35: a CMD write while idle is accepted and while busy dropped, a read returns LAST_CMD, LAST_CMD
resets to 0, and nothing but acceptance, a hardware reset and SRESET changes it. -/
def Obligations.CmdRegister : Prop :=
  (∀ (s : State) (w : Word), s.busy = false →
    s.writes 0x014 w { s with lastCmd := w, done := false, busy := true })
  ∧ (∀ (s : State) (w : Word), s.busy = true → s.writes 0x014 w { s with drop := true })
  ∧ (∀ s : State, s.reads 0x014 s.lastCmd)
  ∧ State.reset.lastCmd = 0#32
  ∧ (∀ s t : State, step s = .next t → t.lastCmd ≠ s.lastCmd →
      (∃ v rest, s.inputs = .busWrite 0x014 4 v :: rest ∧ s.busy = false ∧ t.lastCmd = v)
        ∨ (∃ rest, s.inputs = .hardReset :: rest ∧ t.lastCmd = 0#32))
  ∧ ∀ s t : State, exec .sreset s = .next t → t.lastCmd = 0x00000001#32

/-- Rule R343: while busy, every host write is dropped with STATUS.DROP set, STATUS and CMD read as they are
(BUSY = 1, DONE = 0), and any other address reads as a value nothing constrains. -/
def Obligations.BusyAccesses : Prop :=
  ∀ s : State, s.busy = true →
    (∀ (a : Nat) (v : Word), BusAddress a → s.writes a v { s with drop := true })
    ∧ s.reads 0x018 s.statusWord ∧ s.reads 0x014 s.lastCmd
    ∧ (s.RegistersOk → s.statusWord.getLsbD 0 = true ∧ s.statusWord.getLsbD 1 = false)
    ∧ ∀ a, BusAddress a → a ≠ 0x018 → a ≠ 0x014 → s.reads a (Config.freeWord s.draws)

/-- Rule R80: the bus admits exactly the aligned 32-bit words below 2^27; the model refuses every other access
and answers every admitted one. -/
def Obligations.UnadmittedAccesses : Prop :=
  ∀ (s : State) (a size : Nat) (v : Word) (rest : List Input),
    (¬ (size = 4 ∧ BusAddress a) →
      step { s with inputs := .busRead a size :: rest } = .refused (.busAccessNotAdmitted a size)
      ∧ step { s with inputs := .busWrite a size v :: rest } = .refused (.busAccessNotAdmitted a size))
    ∧ (size = 4 ∧ BusAddress a →
      (∃ t, step { s with inputs := .busRead a size :: rest } = .next t)
      ∧ ∃ t, step { s with inputs := .busWrite a size v :: rest } = .next t)

/-- Where a step stops at all, it is a model fault of rule R348: TDES, ECHUNK, DCHUNK or HPARSE reading an IBUF
byte below IBUF_LEN that holds no value (rule R56), or a host access the bus does not admit (rule R80). And where
the bytes bs are written and the next is not, these commands do fault on it if their pseudocode comes to it: TDES and
HPARSE if the tree's bits before it are a proper beginning of a serialization whose leaves wholly within them have
distinct letters and more bits are counted; ECHUNK if the letters before it have codes; DCHUNK if the bits before it
decode; HPARSE if it is one of the five header bytes. That a byte is read only when the pseudocode comes to it, so
that the lowest unwritten byte is the one reached first, is the model's reading (log entry 7, DEDUCED). -/
def Obligations.ModelStops : Prop :=
  ∀ s : State,
    (∀ f, step s = .fault f →
      s.busy = true ∧ s.turn
      ∧ (∃ j, f = .ibufByteUnwritten j ∧ j < s.ibufLen.toNat ∧ Memory.read s.ibuf j = none)
      ∧ ∃ i, decode s.lastCmd = .ok i
          ∧ ((∃ p w, i = .tdes p w) ∨ (∃ f, i = .echunk f) ∨ (∃ l p, i = .dchunk l p) ∨ i = .hparse))
    ∧ (∀ r, step s = .refused r →
      ∃ a size, r = .busAccessNotAdmitted a size ∧ ¬ (size = 4 ∧ BusAddress a)
        ∧ ((∃ rest, s.inputs = .busRead a size :: rest) ∨ ∃ v rest, s.inputs = .busWrite a size v :: rest))
    ∧ ∀ bs : List Byte, s.WrittenUpTo bs →
      (∀ (tpad : Nat) (sh : Shape) (more : BitString), tpad < 8 → sh.bits = bitsOf bs ++ more → more ≠ [] →
        (sh.lettersWithin (8 * bs.length)).Nodup → 8 * bs.length < 8 * s.ibufLen.toNat - tpad →
        exec (.tdes tpad 1) s = .fault (.ibufByteUnwritten bs.length))
      ∧ (∀ (f : Bool) (codes : BitString), s.treeValid = true → codesOf s bs = some codes →
        exec (.echunk f) s = .fault (.ibufByteUnwritten bs.length))
      ∧ (∀ (l : Bool) (dpad : Nat), s.treeValid = true → dpad < 8 →
        (internalAt s.nodes s.root
          ∨ ∃ x w, s.nodes[s.root.toNat]? = some (.leaf x w) ∧ ∀ b ∈ bitsOf bs, b = false) →
        exec (.dchunk l dpad) s = .fault (.ibufByteUnwritten bs.length))
      ∧ (5 ≤ s.streamLen.toNat → 5 ≤ s.ibufLen.toNat → bs.length < 5 →
        exec .hparse s = .fault (.ibufByteUnwritten bs.length))
      ∧ ∀ (h b1 b2 b3 b4 : Byte) (ts : List Byte) (L : Nat) (sh : Shape) (more : BitString),
        bs = h :: b1 :: b2 :: b3 :: b4 :: ts →
        L = b1.toNat * 2 ^ 24 + b2.toNat * 2 ^ 16 + b3.toNat * 2 ^ 8 + b4.toNat →
        5 + L ≤ s.streamLen.toNat → L ≤ 320 → 5 + L ≤ s.ibufLen.toNat → h.toNat / 16 ≤ 7 → h.toNat % 16 ≤ 7 →
        sh.bits = bitsOf ts ++ more → more ≠ [] → (sh.lettersWithin (8 * ts.length)).Nodup →
        8 * ts.length < 8 * L - h.toNat / 16 →
        exec .hparse s = .fault (.ibufByteUnwritten bs.length)

/-- The interrupt of rules R350 and R351: STATUS.IRQ is DONE AND IE; every completion, of a command or of an
illegal word, sets DONE, so that an error raises IRQ where IE = 1; only a completion raises DONE; a dropped write
leaves IRQ as it is; a write of 1 to STATUS bit 1 and an acceptance lower it; setting IE shows a pending DONE at
once, clearing IE keeps DONE. -/
def Obligations.InterruptIsCompletion : Prop :=
  (∀ s : State, s.statusWord.getLsbD 5 = (s.done && s.ie) ∧ s.irq = (s.done && s.ie))
  ∧ (∀ s t : State, s.busy = true → s.turn → step s = .next t →
      t.done = true ∧ t.irq = t.ie ∧ (t.err ≠ 0#8 → t.ie = s.ie))
  ∧ (∀ s t : State, step s = .next t → s.done = false → t.done = true →
      s.busy = true ∧ s.turn ∧ t.busy = false)
  ∧ (∀ (s : State) (a : Nat) (v : Word), s.busy = true → BusAddress a → ∃ t, s.writes a v t ∧ t.irq = s.irq)
  ∧ ∀ s : State, s.busy = false →
      (∀ v : Word, v.getLsbD 1 = true → ∃ t, s.writes 0x018 v t ∧ t.irq = false ∧ t.ie = s.ie)
      ∧ (∀ w : Word, ∃ t, s.writes 0x014 w t ∧ t.irq = false ∧ t.ie = s.ie)
      ∧ (∃ t, s.writes 0x010 1#32 t ∧ t.irq = s.done ∧ t.done = s.done)
      ∧ ∃ t, s.writes 0x010 0#32 t ∧ t.irq = false ∧ t.done = s.done

/-- Rule R62: the state after reset, after a hardware reset at any moment and after SRESET has every element at
its reset value, but that SRESET leaves DONE = 1 and LAST_CMD = 0x00000001 (rule R151). -/
def Obligations.ResetValues : Prop :=
  State.reset.ResetTable
  ∧ (∀ (s : State) (rest : List Input), ∃ t, step { s with inputs := .hardReset :: rest } = .next t ∧ t.ResetTable)
  ∧ ∀ s : State, ∃ t, exec .sreset s = .next t ∧ t.done = true ∧ t.lastCmd = 0x00000001#32
      ∧ { t with done := false, lastCmd := 0#32 }.ResetTable

/-! ### Registers and windows -/

/-- What each register reads as while idle (rules R31 to R51), and the writes of CTRL, STATUS, IBUF_LEN and
STREAM_LEN: a 1 clears DONE, ERRS or DROP, a 0 leaves it, every other bit of CTRL and STATUS is ignored. -/
def Obligations.RegisterAccess : Prop :=
  (∀ (s : State) (v : Word), s.busy = false →
    s.writes 0x010 v { s with ie := v.getLsbD 0 }
    ∧ s.writes 0x018 v
        { s with
          done := if v.getLsbD 1 then false else s.done
          errs := if v.getLsbD 2 then false else s.errs
          drop := if v.getLsbD 3 then false else s.drop }
    ∧ s.writes 0x024 v { s with ibufLen := v }
    ∧ s.writes 0x048 v { s with streamLenLo := v }
    ∧ s.writes 0x04C v { s with streamLenHi := v })
  ∧ ∀ s : State, s.busy = false →
    s.reads 0x000 0x48554646#32
    ∧ s.reads 0x004 (BitVec.ofNat 32 s.params.ibufBytes)
    ∧ s.reads 0x008 (BitVec.ofNat 32 (32 * s.params.ibufBytes + 4))
    ∧ s.reads 0x010 (if s.ie then 1#32 else 0#32) ∧ s.reads 0x014 s.lastCmd
    ∧ s.reads 0x01C (s.err.setWidth 32) ∧ s.reads 0x020 s.errInfo
    ∧ s.reads 0x024 s.ibufLen ∧ s.reads 0x028 s.obufLen
    ∧ s.reads 0x02C s.treeLen ∧ s.reads 0x030 (s.treePad.setWidth 32) ∧ s.reads 0x034 (s.dataPad.setWidth 32)
    ∧ s.reads 0x038 (s.root.setWidth 32) ∧ s.reads 0x03C (s.nodeCount.setWidth 32)
    ∧ (∃ v, s.reads 0x040 v ∧ v.extractLsb' 0 8 = s.pendByte ∧ v.extractLsb' 8 3 = s.pendBits
        ∧ v.extractLsb' 11 21 = 0#21)
    ∧ s.reads 0x044 (s.cursor.setWidth 32)
    ∧ s.reads 0x048 (s.streamLen.extractLsb' 0 32) ∧ s.reads 0x04C (s.streamLen.extractLsb' 32 32)
    ∧ s.reads 0x050 s.dataOff ∧ s.reads 0x054 (s.lkLen.setWidth 32)
    ∧ (∀ k, (h : k < 8) → s.reads (0x060 + 4 * k) s.lkBits[k])
    ∧ ∃ v, s.reads 0x018 v ∧ v.getLsbD 0 = false ∧ v.getLsbD 1 = s.done ∧ v.getLsbD 2 = s.errs
        ∧ v.getLsbD 3 = s.drop ∧ v.getLsbD 4 = s.treeValid ∧ v.getLsbD 5 = (s.done && s.ie)
        ∧ ∀ b, 6 ≤ b → v.getLsbD b = false

/-- PEND (rule R46) and the exact save and restore of rule R251: its reset value, what a PEND write stores and a
PEND read returns, and that the unused low bits of PEND_BYTE stay 0 in every step. -/
def Obligations.PendRegister : Prop :=
  State.reset.pendByte = 0#8 ∧ State.reset.pendBits = 0#3 ∧
  (∀ (s : State) (w : Word), s.busy = false →
    s.writes 0x040 w
      { s with
        pendBits := w.extractLsb' 8 3
        pendByte := w.extractLsb' 0 8 &&& (0xFF#8 <<< (8 - (w.extractLsb' 8 3).toNat)) })
  ∧ (∀ s : State, s.busy = false → ∃ v, s.reads 0x040 v
      ∧ v.extractLsb' 0 8 = s.pendByte ∧ v.extractLsb' 8 3 = s.pendBits ∧ v.extractLsb' 11 21 = 0#21)
  ∧ (∀ s t : State, step s = .next t →
      s.pendByte &&& ~~~ (0xFF#8 <<< (8 - s.pendBits.toNat)) = 0#8 →
      t.pendByte &&& ~~~ (0xFF#8 <<< (8 - t.pendBits.toNat)) = 0#8)
  ∧ ∀ (s u : State) (v : Word), s.busy = false → s.RegistersOk → s.reads 0x040 v → u.busy = false →
      u.writes 0x040 v { u with pendByte := s.pendByte, pendBits := s.pendBits }

/-- The CURSOR write of rule R47, the commands that set CURSOR to ROOT, and that CURSOR is ROOT or the index of
an Internal record while a tree is valid. -/
def Obligations.CursorRegister : Prop :=
  (∀ (s : State) (w : Word), s.busy = false →
    ∃ c, s.writes 0x044 w { s with cursor := c }
      ∧ (s.treeValid = true ∧ (w.extractLsb' 0 9).toNat < s.nodeCount.toNat
          ∧ internalAt s.nodes (w.extractLsb' 0 9) → c = w.extractLsb' 0 9)
      ∧ (¬ (s.treeValid = true ∧ (w.extractLsb' 0 9).toNat < s.nodeCount.toNat
          ∧ internalAt s.nodes (w.extractLsb' 0 9)) → c = s.root))
  ∧ (∀ (s t : State) (i : Instr), exec i s = .next t → t.err = 0#8 →
      (i = .sreset ∨ i = .dstart ∨ i = .build ∨ (∃ p w, i = .tdes p w) ∨ i = .hparse) → t.cursor = t.root)
  ∧ State.reset.cursor = State.reset.root
  ∧ ∀ s : State, s.Inv → s.treeValid = true → s.cursor = s.root ∨ internalAt s.nodes s.cursor

/-- Rule R87: the weight window reads the two halves of each weight, and a write while idle replaces one half
and leaves the other, every other weight and all other state as they are. -/
def Obligations.WeightWindow : Prop :=
  ∀ (s : State) (x : Nat) (v : Word), s.busy = false → x < 256 →
    s.reads (0x1000 + 8 * x) ((s.weight x).extractLsb' 0 32)
    ∧ s.reads (0x1000 + 8 * x + 4) ((s.weight x).extractLsb' 32 32)
    ∧ (∃ W, s.writes (0x1000 + 8 * x) v { s with weights := W }
        ∧ ∀ y, { s with weights := W }.weight y
            = if y = x then (s.weight x).extractLsb' 32 32 ++ v else s.weight y)
    ∧ ∃ W, s.writes (0x1000 + 8 * x + 4) v { s with weights := W }
        ∧ ∀ y, { s with weights := W }.weight y
            = if y = x then v ++ (s.weight x).extractLsb' 0 32 else s.weight y

/-- Rule R88: the sixteen words of a letter's code, all 0 for an absent letter, and no write to them. -/
def Obligations.CodeWindow : Prop :=
  ∀ (s : State) (x m : Nat), s.Inv → s.busy = false → x < 256 → m < 16 →
    (∀ v, s.writes (0x2000 + 64 * x + 4 * m) v s)
    ∧ (s.code x = none → s.reads (0x2000 + 64 * x + 4 * m) 0#32)
    ∧ ∀ bs, s.code x = some bs → ∃ v, s.reads (0x2000 + 64 * x + 4 * m) v
        ∧ (m = 0 → v.getLsbD 31 = true ∧ (v.extractLsb' 0 9).toNat = bs.length ∧ v.extractLsb' 9 22 = 0#22)
        ∧ (1 ≤ m → m ≤ 8 → ∀ b, b < 32 → v.getLsbD (31 - b) = bs.getD (32 * (m - 1) + b) false)
        ∧ (9 ≤ m → v = 0#32)

/-- Rule R89: the eight words of a node record, all 0 for an invalid one and for slot 511, and no write to
them. -/
def Obligations.NodeWindow : Prop :=
  ∀ (s : State) (i m : Nat), s.Inv → s.busy = false → i < 512 → m < 8 →
    (∀ v, s.writes (0x8000 + 32 * i + 4 * m) v s)
    ∧ (s.nodeCount.toNat ≤ i → s.reads (0x8000 + 32 * i + 4 * m) 0#32)
    ∧ (i = 511 → s.reads (0x8000 + 32 * i + 4 * m) 0#32)
    ∧ (∀ x w, s.nodes[i]? = some (.leaf x w) → s.reads (0x8000 + 32 * i + 4 * m)
        (if m = 0 then 0xC0000000#32 ||| x.setWidth 32 else if m = 3 then w.extractLsb' 0 32
          else if m = 4 then w.extractLsb' 32 32 else if m = 5 then (w.extractLsb' 64 8).setWidth 32 else 0#32))
    ∧ ∀ w l r, s.nodes[i]? = some (.internal w l r) → s.reads (0x8000 + 32 * i + 4 * m)
        (if m = 0 then 0x80000000#32 else if m = 1 then l.setWidth 32 else if m = 2 then r.setWidth 32
          else if m = 3 then w.extractLsb' 0 32 else if m = 4 then w.extractLsb' 32 32
          else if m = 5 then (w.extractLsb' 64 8).setWidth 32 else 0#32)

/-- Rule R90: a write to the IBUF window stores four bytes in lane order and nothing else, a read returns 0,
and a write at or past IBUF_BYTES is ignored. -/
def Obligations.IbufWindow : Prop :=
  ∀ (s : State) (j : Nat) (v : Word), s.params.Valid → s.busy = false → j % 4 = 0 → j < 2 ^ 20 →
    s.reads (0x1000000 + j) 0#32
    ∧ (s.params.ibufBytes ≤ j → s.writes (0x1000000 + j) v s)
    ∧ (j < s.params.ibufBytes → ∃ m, s.writes (0x1000000 + j) v { s with ibuf := m }
        ∧ (∀ lane, lane < 4 → Memory.read m (j + lane) = some (v.extractLsb' (8 * lane) 8))
        ∧ ∀ a, a < j ∨ j + 4 ≤ a → Memory.read m a = Memory.read s.ibuf a)

/-- The OBUF window (rules R57, R83, R91): the lanes below OBUF_LEN read as the output bytes, every other lane
as its byte of a word nothing constrains, and writes are ignored. That the lane takes its own byte of that word
is the model's choice of a free value (log entry 3). -/
def Obligations.ObufWindow : Prop :=
  ∀ (s : State) (j : Nat), s.Inv → s.busy = false → j % 4 = 0 → j < s.params.obufBytes →
    (∀ v, s.writes (0x4000000 + j) v s)
    ∧ ∃ v, s.reads (0x4000000 + j) v
        ∧ ∀ lane, lane < 4 →
          (j + lane < s.obufLen.toNat → some (v.extractLsb' (8 * lane) 8) = s.output[j + lane]?)
          ∧ (s.obufLen.toNat ≤ j + lane →
              v.extractLsb' (8 * lane) 8 = (Config.freeWord s.draws).extractLsb' (8 * lane) 8)

/-- The address map of rule R81 outside the registers and windows that have statements of their own: a write
that reaches no writable location changes nothing, and an unmapped address reads 0. -/
def Obligations.ReadOnlyAndUnmapped : Prop :=
  ∀ (s : State) (a : Nat), s.busy = false → BusAddress a →
    (a ∉ [0x010, 0x014, 0x018, 0x024, 0x040, 0x044, 0x048, 0x04C] → ¬ (0x1000 ≤ a ∧ a < 0x1800) →
      ¬ (0x1000000 ≤ a ∧ a < 0x1000000 + s.params.ibufBytes) → ∀ v, s.writes a v s)
    ∧ ((a = 0x00C ∨ a = 0x058 ∨ a = 0x05C ∨ (0x080 ≤ a ∧ a < 0x1000) ∨ (0x1800 ≤ a ∧ a < 0x2000)
        ∨ (0x6000 ≤ a ∧ a < 0x8000) ∨ (0xC000 ≤ a ∧ a < 0x1000000)
        ∨ (0x1000000 + s.params.ibufBytes ≤ a ∧ a < 0x4000000) ∨ 0x4000000 + s.params.obufBytes ≤ a) →
      s.params.Valid → s.reads a 0#32)

/-! ### How a command ends -/

/-- Rule R330, with the error codes of rule R331: where every IBUF byte below IBUF_LEN is covered, so that no
model fault of rule R348 arises, every command completes, with ERR = 0 or with one of its own codes. -/
def Obligations.EveryCommandEnds : Prop :=
  ∀ (s : State) (i : Instr), s.Covered →
    ∃ t, exec i s = .next t ∧ t.busy = false ∧ t.done = true
      ∧ ((t.err = 0#8 ∧ t.errInfo = 0#32) ∨ (t.err ∈ raisable i ∧ t.errs = true))

/-- Rules R342, R345 and R346: a command that ends in an error changes ERR, ERR_INFO, ERRS, BUSY and DONE; an
output command also discards its output; BUILD, TDES and HPARSE also invalidate the tree, except on
BufferBounds. An illegal word is no command: it changes those five and nothing else. -/
def Obligations.ErrorEffects : Prop :=
  (∀ (s t : State) (i : Instr), exec i s = .next t → t.err ≠ 0#8 →
    match i with
    | .tser => t = (s.failed t.err t.errInfo).withoutOutput
    | .echunk _ => t = (s.failed t.err t.errInfo).withoutOutput
    | .dchunk _ _ => t = (s.failed t.err t.errInfo).withoutOutput
    | .hbuild => t = (s.failed t.err t.errInfo).withoutOutput
    | .build => t = (s.failed t.err t.errInfo).withoutTree
    | .tdes _ _ => t = if t.err = 0x0D#8 then s.failed t.err t.errInfo
        else (s.failed t.err t.errInfo).withoutTree
    | .hparse => t = if t.err = 0x0D#8 then s.failed t.err t.errInfo
        else (s.failed t.err t.errInfo).withoutTree
    | .nop => t = s.failed t.err t.errInfo
    | .sreset => t = s.failed t.err t.errInfo
    | .wclr => t = s.failed t.err t.errInfo
    | .lookup _ => t = s.failed t.err t.errInfo
    | .estart => t = s.failed t.err t.errInfo
    | .dstart => t = s.failed t.err t.errInfo)
  ∧ ∀ (s : State) (e : DecodeError), s.busy = true → s.turn → decode s.lastCmd = .error e →
      step s = .next ({ s with inputs := s.inputs.tail }.failed 0x0C#8 0#32)

/-- Rule R333: TDES, ECHUNK, DCHUNK and HPARSE raise BufferBounds(1) where the full 32-bit IBUF_LEN exceeds
IBUF_BYTES, whatever IBUF holds, and every other command ignores IBUF_LEN and IBUF. -/
def Obligations.BufferBoundsFirst : Prop :=
  (∀ s : State, s.params.ibufBytes < s.ibufLen.toNat →
    (∀ p w, exec (.tdes p w) s = .next (s.failed 0x0D#8 1#32))
    ∧ (∀ f, exec (.echunk f) s = .next (s.failed 0x0D#8 1#32).withoutOutput)
    ∧ (∀ l p, exec (.dchunk l p) s = .next (s.failed 0x0D#8 1#32).withoutOutput)
    ∧ exec .hparse s = .next (s.failed 0x0D#8 1#32))
  ∧ ∀ (s t : State) (i : Instr) (n : Word) (m : Memory), i ≠ .sreset → (∀ p w, i ≠ .tdes p w) →
      (∀ f, i ≠ .echunk f) → (∀ l p, i ≠ .dchunk l p) → i ≠ .hparse → exec i s = .next t →
      exec i { s with ibufLen := n, ibuf := m } = .next { t with ibufLen := n, ibuf := m }

/-- Rule R334: LOOKUP, TSER, ECHUNK and DCHUNK raise NoTree where no tree is valid (BufferBounds(1) comes
first, rule R335), and no other command raises it. -/
def Obligations.NoTreeWithoutTree : Prop :=
  (∀ s : State, s.treeValid = false →
    (∀ x, exec (.lookup x) s = .next (s.failed 0x09#8 0#32))
    ∧ exec .tser s = .next (s.failed 0x09#8 0#32).withoutOutput
    ∧ (s.ibufLen.toNat ≤ s.params.ibufBytes →
        (∀ f, exec (.echunk f) s = .next (s.failed 0x09#8 0#32).withoutOutput)
        ∧ ∀ l p, exec (.dchunk l p) s = .next (s.failed 0x09#8 0#32).withoutOutput))
  ∧ ∀ (s t : State) (i : Instr), exec i s = .next t → t.err = 0x09#8 →
      (∃ x, i = .lookup x) ∨ i = .tser ∨ (∃ f, i = .echunk f) ∨ ∃ l p, i = .dchunk l p

/-! ### The control and start commands -/

/-- NOP, WCLR, ESTART and DSTART complete in every state, with exactly the effects of rules R150, R152, R240
and R270. -/
def Obligations.PlainCommandResults : Prop :=
  ∀ s : State,
    exec .nop s = .next s.succeeded
    ∧ (∃ W, exec .wclr s = .next { s with weights := W }.succeeded
        ∧ ∀ x, { s with weights := W }.weight x = 0#64)
    ∧ exec .estart s = .next { s with pendByte := 0#8, pendBits := 0#3 }.succeeded
    ∧ exec .dstart s = .next { s with cursor := s.root }.succeeded

/-- HBUILD completes in every state with the five header bytes (rules R94, R122, R300): the padding nibbles,
then TREE_LEN most significant byte first. -/
def Obligations.HbuildResult : Prop :=
  ∀ s : State, ∃ h b1 b2 b3 b4 : Byte,
    exec .hbuild s = .next (s.withOutput [h, b1, b2, b3, b4]).succeeded
    ∧ h.extractLsb' 4 4 = s.treePad.setWidth 4 ∧ h.extractLsb' 0 4 = s.dataPad.setWidth 4
    ∧ b1.toNat * 2 ^ 24 + b2.toNat * 2 ^ 16 + b3.toNat * 2 ^ 8 + b4.toNat = s.treeLen.toNat

/-! ### LOOKUP -/

/-- LOOKUP with a valid tree (rules R51, R200): a present letter's code goes to the LK registers, first bit in
bit 31 of LK_BITS0 and zeros after it, and nothing else changes; an absent letter is MissingCode. -/
def Obligations.LookupResult : Prop :=
  ∀ (s : State) (x : Byte), s.Inv → s.treeValid = true →
    (∀ bs, s.code x.toNat = some bs → ∃ (n : BitVec 9) (ws : Vector Word 8),
      exec (.lookup x.toNat) s = .next { s with lkLen := n, lkBits := ws }.succeeded
      ∧ n.toNat = bs.length
      ∧ ∀ k, (h : k < 8) → ∀ b, b < 32 → ws[k].getLsbD (31 - b) = bs.getD (32 * k + b) false)
    ∧ (s.code x.toNat = none → exec (.lookup x.toNat) s = .next (s.failed 0x02#8 (x.setWidth 32 <<< 24)))

/-! ### BUILD and the codes -/

/-- Rule R177: with every weight 0, BUILD raises InputEmpty and leaves no tree. -/
def Obligations.BuildInputEmpty : Prop :=
  ∀ s : State, (∀ x, x < 256 → s.weight x = 0#64) →
    exec .build s = .next (s.failed 0x01#8 0#32).withoutTree

/-- BUILD with k ≥ 1 letters present (rules R170, R171, R176): the leaves in ascending letter order with their
weights, then k − 1 Internal records, the root the last; the records form one tree; and the registers and the
code table describe it. -/
def Obligations.BuildResult : Prop :=
  ∀ (s : State) (k : Nat), (presentLetters s).length = k → 1 ≤ k →
    ∃ N M : List Node,
      N = ((presentLetters s).map fun x => Node.leaf (BitVec.ofNat 8 x) ((s.weight x).setWidth 72)) ++ M
      ∧ (∀ n ∈ M, n.isInternal = true) ∧ M.length + 1 = k
      ∧ ProperTree N (BitVec.ofNat 9 (2 * k - 2))
      ∧ exec .build s = .next
          { s with
            nodes := N
            nodeCount := BitVec.ofNat 10 (2 * k - 1)
            root := BitVec.ofNat 9 (2 * k - 2)
            codes := deriveCodes N (BitVec.ofNat 9 (2 * k - 2))
            treeLen := BitVec.ofNat 32 ((10 * k - 1 + 7) / 8)
            treePad := BitVec.ofNat 3 (padOf (10 * k - 1))
            dataOff := 0#32
            cursor := BitVec.ofNat 9 (2 * k - 2)
            treeValid := true }.succeeded

/-- The merges of BUILD are exactly the greedy ones of rules R173 and R174: the children of each Internal
record are the two least (weight, index) pairs among the nodes that have no parent yet, the least on the left,
and its weight is their exact sum (rule R172). -/
def Obligations.BuildMergeOrder : Prop :=
  ∀ s t : State, exec .build s = .next t → t.err = 0#8 →
    ∀ (m : Nat) (w : BitVec 72) (l r : BitVec 9), t.nodes[m]? = some (.internal w l r) →
      Awaits t.nodes m l.toNat ∧ (∀ i, Awaits t.nodes m i → NotHeavier t.nodes l.toNat i)
      ∧ Awaits t.nodes m r.toNat ∧ r ≠ l
      ∧ (∀ i, Awaits t.nodes m i → i ≠ l.toNat → NotHeavier t.nodes r.toNat i)
      ∧ w.toNat = (weightAt t.nodes l.toNat).toNat + (weightAt t.nodes r.toNat).toNat

/-- Rule R175: with one letter present the tree is that one Leaf, and the letter's code is the one bit 0. -/
def Obligations.BuildSingleLetter : Prop :=
  ∀ (s : State) (x : Byte), s.weight x.toNat ≠ 0#64 →
    (∀ y, y < 256 → y ≠ x.toNat → s.weight y = 0#64) →
    exec .build s = .next
      { s with
        nodes := [.leaf x ((s.weight x.toNat).setWidth 72)]
        nodeCount := 1#10
        root := 0#9
        codes := [(x.toNat, [false])]
        treeLen := 2#32
        treePad := 7#3
        dataOff := 0#32
        cursor := 0#9
        treeValid := true }.succeeded

/-- Rule R181's order: after BUILD a letter of strictly larger weight has a code that is no longer. -/
def Obligations.BuildCodeOrder : Prop :=
  ∀ (s t : State) (x y : Nat) (p q : BitString), exec .build s = .next t → t.err = 0#8 →
    t.code x = some p → t.code y = some q → (s.weight y).toNat < (s.weight x).toNat → p.length ≤ q.length

/-- Rule R53: the valid records of a state that meets the invariant form one tree, after BUILD an Internal
record's weight is the sum of its children's, after TDES and HPARSE every weight is 0, and with no tree
NODE_COUNT and ROOT are 0. -/
def Obligations.RecordsFormOneTree : Prop :=
  (∀ s : State, s.Inv → s.treeValid = true →
    (∃ k, 1 ≤ k ∧ k ≤ 256 ∧ s.nodeCount.toNat = 2 * k - 1 ∧ s.nodes.length = 2 * k - 1 ∧ leafCount s.nodes = k)
    ∧ s.root.toNat < s.nodeCount.toNat
    ∧ (childIndices s.nodes).Perm ((List.range s.nodes.length).erase s.root.toNat)
    ∧ (visits s.nodes (s.nodes.length + 1) s.root).Perm (List.range s.nodes.length)
    ∧ (leafLetters s.nodes).Nodup)
  ∧ (∀ s t : State, exec .build s = .next t → t.err = 0#8 → WeightsAdd t.nodes)
  ∧ (∀ (s t : State) (i : Instr), (∃ p w, i = .tdes p w) ∨ i = .hparse → exec i s = .next t → t.err = 0#8 →
      ∀ n ∈ t.nodes, n.weight = 0#72)
  ∧ ∀ s : State, s.Inv → s.treeValid = false → s.nodeCount = 0#10 ∧ s.root = 0#9

/-- Rules R120 and R180: in a tree of two leaves or more, a letter's code is the path from the root to its
leaf, and every path to a leaf is its letter's code; in a tree of one leaf the code is the one bit 0. -/
def Obligations.CodesArePaths : Prop :=
  ∀ (s : State) (x : Byte) (p : BitString), s.Inv → s.treeValid = true →
    (internalAt s.nodes s.root →
      (s.code x.toNat = some p ↔ ∃ w, descend s.nodes s.root p = some (.leaf x w)))
    ∧ ∀ y w, s.nodes[s.root.toNat]? = some (.leaf y w) → (s.code x.toNat = some p ↔ x = y ∧ p = [false])

/-- Rule R55: while a tree is valid no code is a prefix of another's, and every code has 1 to 255 bits. -/
def Obligations.CodesArePrefixFree : Prop :=
  ∀ s : State, s.Inv → s.treeValid = true →
    (∀ x y p q, s.code x = some p → s.code y = some q → x ≠ y → ¬ p <+: q)
    ∧ ∀ x p, s.code x = some p → 1 ≤ p.length ∧ p.length ≤ 255

/-- The Kraft equality of rule R181: the sum of 2^(−LEN) over the present letters is 1 for two leaves or more
and 1/2 for one, here multiplied by 2^256; and with k ≥ 2 leaves every length is at most k − 1. -/
def Obligations.KraftEquality : Prop :=
  ∀ s : State, s.Inv → s.treeValid = true →
    (2 ≤ leafCount s.nodes → (s.codes.map fun e => 2 ^ (256 - e.2.length)).sum = 2 ^ 256
      ∧ ∀ x p, s.code x = some p → p.length ≤ leafCount s.nodes - 1)
    ∧ (leafCount s.nodes = 1 → (s.codes.map fun e => 2 ^ (256 - e.2.length)).sum = 2 ^ 255)

/-! ### The tree codec -/

/-- Rule R212: a tree of k leaves serializes to 10k − 1 bits, in 2 to 320 bytes. -/
def Obligations.SerializedLength : Prop :=
  ∀ s : State, s.Inv → s.treeValid = true →
    s.serialized.length = 10 * leafCount s.nodes - 1
    ∧ 2 ≤ (pack s.serialized).length ∧ (pack s.serialized).length ≤ 320
    ∧ (leafCount s.nodes = 1 → (pack s.serialized).length = 2 ∧ padOf s.serialized.length = 7)
    ∧ (leafCount s.nodes = 256 → (pack s.serialized).length = 320 ∧ padOf s.serialized.length = 1)

/-- TSER with a valid tree (rules R211, R213): the output is the serialization packed, TREE_LEN and TREE_PAD
are its length and padding; and in a state that meets the invariant they held those values before. -/
def Obligations.TserResult : Prop :=
  ∀ s : State, s.treeValid = true →
    exec .tser s = .next
      { s.withOutput (pack s.serialized) with
        treeLen := BitVec.ofNat 32 ((s.serialized.length + 7) / 8)
        treePad := BitVec.ofNat 3 (padOf s.serialized.length) }.succeeded
    ∧ bitsOf (pack s.serialized) = s.serialized ++ List.replicate (padOf s.serialized.length) false
    ∧ (s.Inv → exec .tser s = .next (s.withOutput (pack s.serialized)).succeeded)

/-- TDES on the bytes bs with LW = 1 (rules R220, R224, R226, R227): where the bits but the last TPAD are the
serialization of a tree with distinct letters, whatever the padding holds, that tree is installed in pre-order
with weights 0; and TDES succeeds on nothing else. -/
def Obligations.TdesResult : Prop :=
  ∀ (s : State) (bs : List Byte) (tpad : Nat), s.Loaded bs → tpad < 8 →
    (∀ (sh : Shape) (pad : BitString), sh.letters.Nodup → bitsOf bs = sh.bits ++ pad → pad.length = tpad →
      exec (.tdes tpad 1) s = .next (s.withParsedTree sh bs.length tpad 0).succeeded)
    ∧ ∀ (lw : Nat) (t : State), exec (.tdes tpad lw) s = .next t → t.err = 0#8 →
      lw = 1 ∧ ∃ (sh : Shape) (pad : BitString), sh.letters.Nodup ∧ bitsOf bs = sh.bits ++ pad ∧ pad.length = tpad

/-- How TDES rejects its input (rules R221, R222, R223, R225): a width other than 1 before any bit; bits that run
out, where no letter repeats among the leaves that lie wholly within them (a run of 1 tags of any length is one such
input, rule R229); bits left over; and the first repeated letter, with the offset of its tag. -/
def Obligations.TdesRejects : Prop :=
  ∀ (s : State) (bs : List Byte) (tpad : Nat), s.Loaded bs → tpad < 8 →
    (∀ lw, lw < 16 → lw ≠ 1 →
      exec (.tdes tpad lw) s = .next (s.failed 0x05#8 (BitVec.ofNat 32 lw)).withoutTree)
    ∧ ∀ (bits : BitString), bits = (bitsOf bs).take (8 * bs.length - tpad) →
      (∀ (sh : Shape) (rest : BitString), (sh.lettersWithin bits.length).Nodup → sh.bits = bits ++ rest →
        rest ≠ [] →
        exec (.tdes tpad 1) s = .next (s.failed 0x03#8 (BitVec.ofNat 32 bits.length)).withoutTree)
      ∧ (∀ (sh : Shape) (rest : BitString), sh.letters.Nodup → bits = sh.bits ++ rest → rest ≠ [] →
        exec (.tdes tpad 1) s = .next (s.failed 0x04#8 (BitVec.ofNat 32 sh.bits.length)).withoutTree)
      ∧ ∀ (sh : Shape) (ys zs : List Byte) (x : Byte) (off : Nat), sh.letters = ys ++ x :: zs → ys.Nodup →
        x ∈ ys → (sh.leafOffsets 0)[ys.length]? = some off → sh.bits.take (off + 9) <+: bits →
        exec (.tdes tpad 1) s
          = .next (s.failed 0x0A#8 ((x.setWidth 32 <<< 24) ||| BitVec.ofNat 32 off)).withoutTree

/-! ### The packer -/

/-- ECHUNK on a chunk whose letters all have codes (rules R241, R245): the pending bits and the codes are one
bit string; f=1 emits it packed, reports its padding and empties PEND; f=0 emits its whole bytes and keeps the
rest in PEND. -/
def Obligations.EchunkResult : Prop :=
  ∀ (s : State) (bs : List Byte) (codes bits : BitString), s.Loaded bs → s.treeValid = true →
    codesOf s bs = some codes → bits = (bits8 s.pendByte).take s.pendBits.toNat ++ codes →
    exec (.echunk true) s = .next
      { s.withOutput (pack bits) with
        pendByte := 0#8
        pendBits := 0#3
        dataPad := BitVec.ofNat 3 (padOf bits.length) }.succeeded
    ∧ exec (.echunk false) s = .next
      { s.withOutput (pack (bits.take (8 * (bits.length / 8)))) with
        pendByte := (pack (bits.drop (8 * (bits.length / 8)))).headD 0#8
        pendBits := BitVec.ofNat 3 (bits.length % 8) }.succeeded

/-- Rule R243: the output size of an ECHUNK that succeeds, where P is PEND_BITS and T the total code length,
and that it fits OBUF. -/
def Obligations.EchunkSize : Prop :=
  ∀ (s t : State) (bs : List Byte) (codes : BitString) (f : Bool), s.Inv → s.Loaded bs →
    exec (.echunk f) s = .next t → t.err = 0#8 → codesOf s bs = some codes →
    (f = false → t.obufLen.toNat = (s.pendBits.toNat + codes.length) / 8)
    ∧ (f = true → t.obufLen.toNat = (s.pendBits.toNat + codes.length + 7) / 8)
    ∧ t.obufLen.toNat ≤ 32 * s.params.ibufBytes + 1 ∧ t.obufLen.toNat < s.params.obufBytes

/-- Rule R244: where letter j of the chunk is the first with no code, ECHUNK raises MissingCode naming it and
keeps PEND, DATA_PAD and the tree. -/
def Obligations.EchunkMissingCode : Prop :=
  ∀ (s : State) (bs : List Byte) (f : Bool) (j : Nat) (x : Byte), s.Loaded bs → s.treeValid = true →
    bs[j]? = some x → s.code x.toNat = none →
    (∀ k y, k < j → bs[k]? = some y → s.code y.toNat ≠ none) →
    exec (.echunk f) s
      = .next (s.failed 0x02#8 ((x.setWidth 32 <<< 24) ||| BitVec.ofNat 32 j)).withoutOutput

/-! ### The unpacker -/

/-- DCHUNK with a tree of two leaves or more (rules R271, R272, R275, R277): the letters its bits emit from
CURSOR on, and the new CURSOR; with L = 1 a chunk that ends inside a code is DataMalformed and keeps CURSOR. -/
def Obligations.DchunkResult : Prop :=
  ∀ (s : State) (bs : List Byte) (l : Bool) (dpad : Nat), s.Loaded bs → dpad < 8 → s.treeValid = true →
    internalAt s.nodes s.root →
    (l = false ∨ (s.unpack s.cursor (dataBits bs l dpad)).1 = s.root →
      exec (.dchunk l dpad) s = .next
        { s.withOutput (s.unpack s.cursor (dataBits bs l dpad)).2 with
          cursor := (s.unpack s.cursor (dataBits bs l dpad)).1 }.succeeded)
    ∧ (l = true → (s.unpack s.cursor (dataBits bs l dpad)).1 ≠ s.root →
      exec (.dchunk l dpad) s = .next
        (s.failed 0x0B#8 ((1#32 <<< 24) ||| BitVec.ofNat 32 (dataBits bs l dpad).length)).withoutOutput)

/-- Rule R274: with a one-leaf tree each 0 decodes to the letter and CURSOR stays, and the first 1, at index i,
is DataMalformed sub-code 2. -/
def Obligations.DchunkOneLeaf : Prop :=
  ∀ (s : State) (bs : List Byte) (l : Bool) (dpad : Nat) (x : Byte) (w : BitVec 72), s.Loaded bs → dpad < 8 →
    s.treeValid = true → s.nodes[s.root.toNat]? = some (.leaf x w) → s.cursor = s.root →
    ((∀ b ∈ dataBits bs l dpad, b = false) →
      exec (.dchunk l dpad) s
        = .next (s.withOutput (List.replicate (dataBits bs l dpad).length x)).succeeded)
    ∧ ∀ i rest, dataBits bs l dpad = List.replicate i false ++ true :: rest →
      exec (.dchunk l dpad) s
        = .next (s.failed 0x0B#8 ((2#32 <<< 24) ||| BitVec.ofNat 32 i)).withoutOutput

/-! ### The container -/

/-- HPARSE on the first bytes of a container (rules R303, R308): where the header is in range and the tree
region, whatever its padding holds, is the serialization of a tree with distinct letters, that tree is
installed and the header's values are stored; and HPARSE succeeds on nothing else. -/
def Obligations.HparseResult : Prop :=
  ∀ (s : State) (bs : List Byte), s.Loaded bs →
    (∀ (h b1 b2 b3 b4 : Byte) (rest : List Byte) (L : Nat) (sh : Shape) (pad : BitString),
      bs = h :: b1 :: b2 :: b3 :: b4 :: rest →
      L = b1.toNat * 2 ^ 24 + b2.toNat * 2 ^ 16 + b3.toNat * 2 ^ 8 + b4.toNat →
      5 + L ≤ s.streamLen.toNat → L ≤ 320 → L ≤ rest.length → h.toNat / 16 ≤ 7 → h.toNat % 16 ≤ 7 →
      sh.letters.Nodup → bitsOf (rest.take L) = sh.bits ++ pad → pad.length = h.toNat / 16 →
      exec .hparse s = .next
        { s.withParsedTree sh L (h.toNat / 16) (5 + L) with
          dataPad := BitVec.ofNat 3 (h.toNat % 16) }.succeeded)
    ∧ ∀ t, exec .hparse s = .next t → t.err = 0#8 →
      ∃ (h b1 b2 b3 b4 : Byte) (rest : List Byte) (L : Nat) (sh : Shape) (pad : BitString),
        bs = h :: b1 :: b2 :: b3 :: b4 :: rest
        ∧ L = b1.toNat * 2 ^ 24 + b2.toNat * 2 ^ 16 + b3.toNat * 2 ^ 8 + b4.toNat
        ∧ 5 + L ≤ s.streamLen.toNat ∧ L ≤ 320 ∧ L ≤ rest.length ∧ h.toNat / 16 ≤ 7 ∧ h.toNat % 16 ≤ 7
        ∧ sh.letters.Nodup ∧ bitsOf (rest.take L) = sh.bits ++ pad ∧ pad.length = h.toNat / 16

/-- The header checks of HPARSE in the order of rule R305 (rules R303, R304, R306), each where the ones before
it pass. -/
def Obligations.HparseHeaderChecks : Prop :=
  ∀ (s : State) (bs : List Byte), s.Loaded bs →
    (s.streamLen.toNat < 5 → exec .hparse s = .next (s.failed 0x06#8 1#32).withoutTree)
    ∧ (5 ≤ s.streamLen.toNat → bs.length < 5 → exec .hparse s = .next (s.failed 0x0D#8 2#32))
    ∧ ∀ (h b1 b2 b3 b4 : Byte) (rest : List Byte) (L : Nat), bs = h :: b1 :: b2 :: b3 :: b4 :: rest →
      L = b1.toNat * 2 ^ 24 + b2.toNat * 2 ^ 16 + b3.toNat * 2 ^ 8 + b4.toNat → 5 ≤ s.streamLen.toNat →
      (s.streamLen.toNat < 5 + L → exec .hparse s = .next (s.failed 0x06#8 2#32).withoutTree)
      ∧ (5 + L ≤ s.streamLen.toNat →
        (7 < h.toNat / 16 → exec .hparse s = .next (s.failed 0x07#8 1#32).withoutTree)
        ∧ (h.toNat / 16 ≤ 7 → 7 < h.toNat % 16 → exec .hparse s = .next (s.failed 0x07#8 2#32).withoutTree)
        ∧ (h.toNat / 16 ≤ 7 → h.toNat % 16 ≤ 7 → 320 < L →
            exec .hparse s = .next (s.failed 0x07#8 3#32).withoutTree)
        ∧ (h.toNat / 16 ≤ 7 → h.toNat % 16 ≤ 7 → L ≤ 320 → rest.length < L →
            exec .hparse s = .next (s.failed 0x0D#8 3#32)))

/-- Rule R307: a tree region that fails to parse is InvalidHeader, with 0x13 for bits that run out, where no letter
repeats among the leaves that lie wholly within them (a run of 1 tags of any length is one such region), 0x14 for bits
left over and 0x1A for a repeated letter. -/
def Obligations.HparseParseErrors : Prop :=
  ∀ (s : State) (h b1 b2 b3 b4 : Byte) (rest : List Byte) (L : Nat) (bits : BitString),
    s.Loaded (h :: b1 :: b2 :: b3 :: b4 :: rest) →
    L = b1.toNat * 2 ^ 24 + b2.toNat * 2 ^ 16 + b3.toNat * 2 ^ 8 + b4.toNat →
    5 + L ≤ s.streamLen.toNat → L ≤ 320 → L ≤ rest.length → h.toNat / 16 ≤ 7 → h.toNat % 16 ≤ 7 →
    bits = (bitsOf (rest.take L)).take (8 * L - h.toNat / 16) →
    (∀ (sh : Shape) (more : BitString), (sh.lettersWithin bits.length).Nodup → sh.bits = bits ++ more →
      more ≠ [] →
      exec .hparse s = .next (s.failed 0x07#8 0x13#32).withoutTree)
    ∧ (∀ (sh : Shape) (more : BitString), sh.letters.Nodup → bits = sh.bits ++ more → more ≠ [] →
      exec .hparse s = .next (s.failed 0x07#8 0x14#32).withoutTree)
    ∧ ∀ (sh : Shape) (ys zs : List Byte) (x : Byte) (off : Nat), sh.letters = ys ++ x :: zs → ys.Nodup →
      x ∈ ys → (sh.leafOffsets 0)[ys.length]? = some off → sh.bits.take (off + 9) <+: bits →
      exec .hparse s = .next (s.failed 0x07#8 0x1A#32).withoutTree

/-- Rule R310: a container of n < 5 bytes, whatever they are, is MissingHeader with ERR_INFO 1, and the block
is idle again. -/
def Obligations.ShortContainer : Prop :=
  ∀ (s : State) (bs : List Byte), bs.length < 5 → s.streamLen.toNat = bs.length → s.Loaded bs →
    ∃ t, exec .hparse s = .next t ∧ t = (s.failed 0x06#8 1#32).withoutTree ∧ t.busy = false

/-! ### Frames -/

/-- What a command other than SRESET leaves unchanged of the registers and tables: each is listed with the
commands the spec lets write it, and the completion state of rules R341 and R345 apart, nothing else changes. -/
def Obligations.RegisterFrame : Prop :=
  ∀ (s t : State) (i : Instr), i ≠ .sreset → exec i s = .next t →
    (t.params = s.params ∧ t.ie = s.ie ∧ t.lastCmd = s.lastCmd ∧ t.drop = s.drop ∧ t.ibufLen = s.ibufLen
      ∧ t.streamLenLo = s.streamLenLo ∧ t.streamLenHi = s.streamLenHi
      ∧ t.inputs = s.inputs ∧ t.hostReads = s.hostReads ∧ t.draws = s.draws)
    ∧ (t.busy = false ∧ t.done = true ∧ (t.err = 0#8 → t.errs = s.errs) ∧ (t.err ≠ 0#8 → t.errs = true))
    ∧ (i ≠ .wclr → t.weights = s.weights)
    ∧ ((∀ x, i ≠ .lookup x) → t.lkLen = s.lkLen ∧ t.lkBits = s.lkBits)
    ∧ (i ≠ .tser → (∀ f, i ≠ .echunk f) → (∀ l p, i ≠ .dchunk l p) → i ≠ .hbuild → t.obufLen = s.obufLen)
    ∧ (i ≠ .estart → (∀ f, i ≠ .echunk f) → t.pendByte = s.pendByte ∧ t.pendBits = s.pendBits)
    ∧ (i ≠ .echunk true → i ≠ .hparse → t.dataPad = s.dataPad)
    ∧ (i ≠ .build → (∀ p w, i ≠ .tdes p w) → i ≠ .hparse →
        (t.treeValid = s.treeValid ∧ t.root = s.root ∧ t.nodeCount = s.nodeCount ∧ t.nodes = s.nodes
          ∧ t.codes = s.codes ∧ t.dataOff = s.dataOff)
        ∧ (i ≠ .tser → t.treeLen = s.treeLen ∧ t.treePad = s.treePad)
        ∧ (i ≠ .dstart → (∀ l p, i ≠ .dchunk l p) → t.cursor = s.cursor))

/-- What a command other than SRESET leaves unchanged of the buffers: no command stores to IBUF; one that is no
output command stores nothing to OBUF; an output command stores OBUF[0..OBUF_LEN), each of whose bytes then
holds a value, and by rule R57 no byte past them holds one. -/
def Obligations.MemoryFrame : Prop :=
  ∀ (s t : State) (i : Instr), i ≠ .sreset → exec i s = .next t →
    (∀ a, Memory.read t.ibuf a = Memory.read s.ibuf a)
    ∧ (i ≠ .tser → (∀ f, i ≠ .echunk f) → (∀ l p, i ≠ .dchunk l p) → i ≠ .hbuild →
        ∀ a, Memory.read t.obuf a = Memory.read s.obuf a)
    ∧ ((i = .tser ∨ (∃ f, i = .echunk f) ∨ (∃ l p, i = .dchunk l p) ∨ i = .hbuild) → s.Inv →
        (∀ a, a < t.obufLen.toNat → ∃ b, Memory.read t.obuf a = some b)
        ∧ ∀ a, t.obufLen.toNat ≤ a → Memory.read t.obuf a = none)

/-- Rule R384: what a command does depends on no IBUF byte at or past IBUF_LEN, and it keeps every byte. -/
def Obligations.InputPastLengthIgnored : Prop :=
  ∀ (s t : State) (i : Instr) (m : Memory), i ≠ .sreset →
    (∀ j, j < s.ibufLen.toNat → Memory.read m j = Memory.read s.ibuf j) →
    exec i s = .next t → t.ibuf = s.ibuf ∧ exec i { s with ibuf := m } = .next { t with ibuf := m }

/-! ### Invariants -/

/-- The reset state meets the invariant, at every legal IBUF_BYTES. -/
def Obligations.ResetInvariant : Prop :=
  State.reset.Inv ∧ ∀ p : Config.Params, p.Valid → (State.resetWith p).Inv

/-- Every step keeps the invariant: legal registers (rules R37, R38, R46, R340, R347), canonical buffers and
weights (rules R50, R56, R57), one proper tree with the registers and codes that describe it or none at all
(rules R41, R42, R44, R45, R47, R53, R54, R346), and no output past OBUF_BYTES (rules R8, R40). -/
def Obligations.StepKeepsInvariant : Prop :=
  ∀ s t : State, s.Inv → step s = .next t → t.Inv

/-- Every step keeps the canonical form of IBUF, OBUF, WEIGHT and CODE, from any state that has it. -/
def Obligations.StepKeepsMemoryCanonical : Prop :=
  ∀ s t : State, Memory.wf s.ibuf → Memory.wf s.obuf → Table.wf s.weights → (∀ e ∈ s.weights, e.2 ≠ 0#64) →
    Table.wf s.codes → step s = .next t →
    Memory.wf t.ibuf ∧ Memory.wf t.obuf ∧ Table.wf t.weights ∧ (∀ e ∈ t.weights, e.2 ≠ 0#64) ∧ Table.wf t.codes

/-! ### Streams -/

/-- Rule R247: after ESTART, a stream packed chunk by chunk is the codes of all its letters packed once,
wherever it is split, and the final DATA_PAD is the padding of the whole. -/
def Obligations.ChunkSizeInvariance : Prop :=
  ∀ (s : State) (chunks : List (List Byte)) (bits : BitString), s.params.Valid → s.treeValid = true →
    s.pendBits = 0#3 → chunks ≠ [] → (∀ c ∈ chunks, c.length ≤ s.params.ibufBytes) →
    codesOf s chunks.flatten = some bits →
    ∃ t, s.packStream chunks = some (t, pack bits) ∧ t.dataPad.toNat = padOf bits.length
      ∧ t.pendByte = 0#8 ∧ t.pendBits = 0#3 ∧ t.nodes = s.nodes ∧ t.root = s.root ∧ t.codes = s.codes

/-- Rule R276: from CURSOR = ROOT, a data region decoded chunk by chunk gives the letters its bits give from
the root, or fails where they end inside a code; and it gives what one DCHUNK of the whole gives. -/
def Obligations.CursorPersistence : Prop :=
  ∀ (s : State) (chunks : List (List Byte)) (last : List Byte) (p : Nat), s.params.Valid → s.treeValid = true →
    s.cursor = s.root → p < 8 → last ≠ [] → (∀ c ∈ chunks ++ [last], c.length ≤ s.params.ibufBytes) →
    (internalAt s.nodes s.root → ∀ out : BitVec 9 × List Byte,
      out = s.unpack s.root ((bitsOf (chunks ++ [last]).flatten).take (8 * (chunks ++ [last]).flatten.length - p)) →
      (out.1 = s.root → ∃ t, s.unpackStream p (chunks ++ [last]) = some (t, out.2) ∧ t.cursor = s.root)
      ∧ (out.1 ≠ s.root → s.unpackStream p (chunks ++ [last]) = none))
    ∧ ((chunks ++ [last]).flatten.length ≤ s.params.ibufBytes →
      (s.unpackStream p (chunks ++ [last])).map Prod.snd
        = (s.unpackStream p [(chunks ++ [last]).flatten]).map Prod.snd)

/-- Rule R278: a non-empty letter sequence whose letters all have codes, packed in any chunks and unpacked in
any chunks with DATA_PAD, is given back. -/
def Obligations.StreamRoundTrip : Prop :=
  ∀ (s : State) (letters : List Byte) (chunks : List (List Byte)), s.Inv → s.treeValid = true →
    s.pendBits = 0#3 → letters ≠ [] → chunks.flatten = letters → (∀ c ∈ chunks, c.length ≤ s.params.ibufBytes) →
    (∀ x ∈ letters, s.code x.toNat ≠ none) →
    ∃ (t : State) (D : List Byte), s.packStream chunks = some (t, D)
      ∧ ∀ (pieces : List (List Byte)) (last : List Byte), (pieces ++ [last]).flatten = D → last ≠ [] →
        (∀ d ∈ pieces ++ [last], d.length ≤ s.params.ibufBytes) →
        ∃ u, { t with cursor := t.root }.unpackStream t.dataPad.toNat (pieces ++ [last]) = some (u, letters)

/-- Rule R228: TSER and then TDES of its bytes give the same codes and the same serialization, with pre-order
numbering and every weight 0. -/
def Obligations.TreeRoundTrip : Prop :=
  ∀ s : State, s.Inv → s.treeValid = true →
    ∃ t, exec .tser s = .next t ∧ t.err = 0#8
      ∧ ∀ u : State, u.Loaded t.output →
        ∃ v, exec (.tdes t.treePad.toNat 1) u = .next v ∧ v.err = 0#8 ∧ v.treeValid = true
          ∧ v.codes = s.codes ∧ v.serialized = s.serialized ∧ v.root = 0#9 ∧ ∀ n ∈ v.nodes, n.weight = 0#72

/-- Rules R301 and R309: HPARSE of the HBUILD bytes, the TSER bytes and any data gives back the codes, DATA_PAD
and the place of the data. -/
def Obligations.ContainerRoundTrip : Prop :=
  ∀ s : State, s.Inv → s.treeValid = true →
    ∃ a b, exec .tser s = .next a ∧ exec .hbuild a = .next b
      ∧ ∀ (u : State) (data : List Byte), u.Loaded (b.output ++ a.output ++ data) →
        (b.output ++ a.output ++ data).length ≤ u.streamLen.toNat →
        ∃ v, exec .hparse u = .next v ∧ v.err = 0#8 ∧ v.treeValid = true ∧ v.codes = s.codes
          ∧ v.dataPad = s.dataPad ∧ v.treeLen = s.treeLen ∧ v.treePad = s.treePad
          ∧ v.dataOff.toNat = 5 + a.output.length ∧ v.cursor = v.root

/-- Host programs (rules R124, R125), from an idle block, however often a wait finds the block busy (k times): a
well-formed statement is transactions the bus admits; run C performs the command and records each STATUS read, the
last with BUSY = 0; weight sets one weight; ibuf leaves its bytes loaded; obuf yields OBUF[0..OBUF_LEN); encode and
decode are the single-shot pack and unpack (rule R248). That the block's turn comes after the k-th busy poll is the
model's way to end a wait (log entry 1). -/
def Obligations.HostStatements : Prop :=
  (∀ (c : Stmt) (n k : Nat), c.wellFormed = true → n ≤ 2 ^ 26 → ∀ e ∈ c.events n k,
    e = .blockTurn ∨ (∃ a, e = .busRead a 4 ∧ BusAddress a) ∨ ∃ a v, e = .busWrite a 4 v ∧ BusAddress a)
  ∧ (∀ (s t u : State) (i : Instr) (n k : Nat) (rest : List Input), s.busy = false → i.wellFormed = true →
    u = { s with lastCmd := encode i, done := false, busy := true, inputs := rest } → exec i u = .next t →
    runSteps (k + 3) { s with inputs := (Stmt.run i).events n k ++ rest }
      = some { t with
          hostReads := t.statusWord :: (List.replicate k u.statusWord ++ t.hostReads)
          draws := t.draws + k + 1 }
    ∧ t.statusWord.getLsbD 0 = false ∧ u.statusWord.getLsbD 0 = true)
  ∧ (∀ (s : State) (x w n k : Nat) (rest : List Input), s.busy = false → x < 256 → w < 2 ^ 64 →
    ∃ W, runSteps 2 { s with inputs := (Stmt.weight x w).events n k ++ rest }
        = some { s with inputs := rest, weights := W }
      ∧ ∀ y, { s with weights := W }.weight y = if y = x then BitVec.ofNat 64 w else s.weight y)
  ∧ (∀ (s : State) (bs : List Byte) (n k : Nat) (rest : List Input), s.busy = false → s.params.Valid →
    bs.length ≤ s.params.ibufBytes →
    ∃ m, runSteps ((bs.length + 3) / 4 + 1) { s with inputs := (Stmt.ibuf bs).events n k ++ rest }
        = some { s with inputs := rest, ibuf := m, ibufLen := BitVec.ofNat 32 bs.length }
      ∧ { s with ibuf := m, ibufLen := BitVec.ofNat 32 bs.length }.Loaded bs)
  ∧ (∀ (s : State) (n k : Nat) (rest : List Input), s.Inv → s.busy = false → n = s.obufLen.toNat →
    ∃ words : List Word, words.length = (n + 3) / 4
      ∧ runSteps ((n + 3) / 4) { s with inputs := Stmt.obuf.events n k ++ rest }
        = some { s with
            inputs := rest
            hostReads := words.reverse ++ s.hostReads
            draws := s.draws + (n + 3) / 4 }
      ∧ { s with hostReads := words.reverse ++ s.hostReads }.obufResult n = s.output)
  ∧ (∀ (s : State) (bs : List Byte) (codes : BitString) (n k : Nat) (rest : List Input), s.busy = false →
    s.treeValid = true → s.Loaded bs → codesOf s bs = some codes →
    ∃ t, runSteps (2 * (k + 3)) { s with inputs := Stmt.encode.events n k ++ rest } = some t ∧ t.inputs = rest
      ∧ t.err = 0#8 ∧ t.output = pack codes ∧ t.dataPad.toNat = padOf codes.length)
  ∧ ∀ (s : State) (bs out : List Byte) (p n k : Nat) (rest : List Input), s.busy = false → s.treeValid = true →
    s.Loaded bs → p < 8 → internalAt s.nodes s.root → s.unpack s.root (dataBits bs true p) = (s.root, out) →
    ∃ t, runSteps (2 * (k + 3)) { s with inputs := (Stmt.decode p).events n k ++ rest } = some t ∧ t.inputs = rest
      ∧ t.err = 0#8 ∧ t.output = out ∧ t.cursor = t.root
end

