-- ==== Sys2Proof/Laws/State.lean ====
section
/-! SUPPORT. One lemma a field for each update of the state: what the field holds afterwards. -/

namespace Sys2Proof.Machine

variable (s : State)


/-! ### complete -/

@[simp] theorem State.complete_params : (s.complete).params = s.params := rfl
@[simp] theorem State.complete_ie : (s.complete).ie = s.ie := rfl
@[simp] theorem State.complete_lastCmd : (s.complete).lastCmd = s.lastCmd := rfl
@[simp] theorem State.complete_busy : (s.complete).busy = false := rfl
@[simp] theorem State.complete_done : (s.complete).done = true := rfl
@[simp] theorem State.complete_errs : (s.complete).errs = s.errs := rfl
@[simp] theorem State.complete_drop : (s.complete).drop = s.drop := rfl
@[simp] theorem State.complete_treeValid : (s.complete).treeValid = s.treeValid := rfl
@[simp] theorem State.complete_err : (s.complete).err = 0#8 := rfl
@[simp] theorem State.complete_errInfo : (s.complete).errInfo = 0#32 := rfl
@[simp] theorem State.complete_ibufLen : (s.complete).ibufLen = s.ibufLen := rfl
@[simp] theorem State.complete_obufLen : (s.complete).obufLen = s.obufLen := rfl
@[simp] theorem State.complete_treeLen : (s.complete).treeLen = s.treeLen := rfl
@[simp] theorem State.complete_treePad : (s.complete).treePad = s.treePad := rfl
@[simp] theorem State.complete_dataPad : (s.complete).dataPad = s.dataPad := rfl
@[simp] theorem State.complete_root : (s.complete).root = s.root := rfl
@[simp] theorem State.complete_nodeCount : (s.complete).nodeCount = s.nodeCount := rfl
@[simp] theorem State.complete_pendByte : (s.complete).pendByte = s.pendByte := rfl
@[simp] theorem State.complete_pendBits : (s.complete).pendBits = s.pendBits := rfl
@[simp] theorem State.complete_cursor : (s.complete).cursor = s.cursor := rfl
@[simp] theorem State.complete_streamLenLo : (s.complete).streamLenLo = s.streamLenLo := rfl
@[simp] theorem State.complete_streamLenHi : (s.complete).streamLenHi = s.streamLenHi := rfl
@[simp] theorem State.complete_dataOff : (s.complete).dataOff = s.dataOff := rfl
@[simp] theorem State.complete_lkLen : (s.complete).lkLen = s.lkLen := rfl
@[simp] theorem State.complete_lkBits : (s.complete).lkBits = s.lkBits := rfl
@[simp] theorem State.complete_weights : (s.complete).weights = s.weights := rfl
@[simp] theorem State.complete_nodes : (s.complete).nodes = s.nodes := rfl
@[simp] theorem State.complete_codes : (s.complete).codes = s.codes := rfl
@[simp] theorem State.complete_ibuf : (s.complete).ibuf = s.ibuf := rfl
@[simp] theorem State.complete_obuf : (s.complete).obuf = s.obuf := rfl
@[simp] theorem State.complete_inputs : (s.complete).inputs = s.inputs := rfl
@[simp] theorem State.complete_hostReads : (s.complete).hostReads = s.hostReads := rfl
@[simp] theorem State.complete_draws : (s.complete).draws = s.draws := rfl

/-! ### accept -/

@[simp] theorem State.accept_params (w : Word) : (s.accept w).params = s.params := rfl
@[simp] theorem State.accept_ie (w : Word) : (s.accept w).ie = s.ie := rfl
@[simp] theorem State.accept_lastCmd (w : Word) : (s.accept w).lastCmd = w := rfl
@[simp] theorem State.accept_busy (w : Word) : (s.accept w).busy = true := rfl
@[simp] theorem State.accept_done (w : Word) : (s.accept w).done = false := rfl
@[simp] theorem State.accept_errs (w : Word) : (s.accept w).errs = s.errs := rfl
@[simp] theorem State.accept_drop (w : Word) : (s.accept w).drop = s.drop := rfl
@[simp] theorem State.accept_treeValid (w : Word) : (s.accept w).treeValid = s.treeValid := rfl
@[simp] theorem State.accept_err (w : Word) : (s.accept w).err = s.err := rfl
@[simp] theorem State.accept_errInfo (w : Word) : (s.accept w).errInfo = s.errInfo := rfl
@[simp] theorem State.accept_ibufLen (w : Word) : (s.accept w).ibufLen = s.ibufLen := rfl
@[simp] theorem State.accept_obufLen (w : Word) : (s.accept w).obufLen = s.obufLen := rfl
@[simp] theorem State.accept_treeLen (w : Word) : (s.accept w).treeLen = s.treeLen := rfl
@[simp] theorem State.accept_treePad (w : Word) : (s.accept w).treePad = s.treePad := rfl
@[simp] theorem State.accept_dataPad (w : Word) : (s.accept w).dataPad = s.dataPad := rfl
@[simp] theorem State.accept_root (w : Word) : (s.accept w).root = s.root := rfl
@[simp] theorem State.accept_nodeCount (w : Word) : (s.accept w).nodeCount = s.nodeCount := rfl
@[simp] theorem State.accept_pendByte (w : Word) : (s.accept w).pendByte = s.pendByte := rfl
@[simp] theorem State.accept_pendBits (w : Word) : (s.accept w).pendBits = s.pendBits := rfl
@[simp] theorem State.accept_cursor (w : Word) : (s.accept w).cursor = s.cursor := rfl
@[simp] theorem State.accept_streamLenLo (w : Word) : (s.accept w).streamLenLo = s.streamLenLo := rfl
@[simp] theorem State.accept_streamLenHi (w : Word) : (s.accept w).streamLenHi = s.streamLenHi := rfl
@[simp] theorem State.accept_dataOff (w : Word) : (s.accept w).dataOff = s.dataOff := rfl
@[simp] theorem State.accept_lkLen (w : Word) : (s.accept w).lkLen = s.lkLen := rfl
@[simp] theorem State.accept_lkBits (w : Word) : (s.accept w).lkBits = s.lkBits := rfl
@[simp] theorem State.accept_weights (w : Word) : (s.accept w).weights = s.weights := rfl
@[simp] theorem State.accept_nodes (w : Word) : (s.accept w).nodes = s.nodes := rfl
@[simp] theorem State.accept_codes (w : Word) : (s.accept w).codes = s.codes := rfl
@[simp] theorem State.accept_ibuf (w : Word) : (s.accept w).ibuf = s.ibuf := rfl
@[simp] theorem State.accept_obuf (w : Word) : (s.accept w).obuf = s.obuf := rfl
@[simp] theorem State.accept_inputs (w : Word) : (s.accept w).inputs = s.inputs := rfl
@[simp] theorem State.accept_hostReads (w : Word) : (s.accept w).hostReads = s.hostReads := rfl
@[simp] theorem State.accept_draws (w : Word) : (s.accept w).draws = s.draws := rfl

/-! ### setOutput -/

@[simp] theorem State.setOutput_params (bs : List Byte) : (s.setOutput bs).params = s.params := rfl
@[simp] theorem State.setOutput_ie (bs : List Byte) : (s.setOutput bs).ie = s.ie := rfl
@[simp] theorem State.setOutput_lastCmd (bs : List Byte) : (s.setOutput bs).lastCmd = s.lastCmd := rfl
@[simp] theorem State.setOutput_busy (bs : List Byte) : (s.setOutput bs).busy = s.busy := rfl
@[simp] theorem State.setOutput_done (bs : List Byte) : (s.setOutput bs).done = s.done := rfl
@[simp] theorem State.setOutput_errs (bs : List Byte) : (s.setOutput bs).errs = s.errs := rfl
@[simp] theorem State.setOutput_drop (bs : List Byte) : (s.setOutput bs).drop = s.drop := rfl
@[simp] theorem State.setOutput_treeValid (bs : List Byte) : (s.setOutput bs).treeValid = s.treeValid := rfl
@[simp] theorem State.setOutput_err (bs : List Byte) : (s.setOutput bs).err = s.err := rfl
@[simp] theorem State.setOutput_errInfo (bs : List Byte) : (s.setOutput bs).errInfo = s.errInfo := rfl
@[simp] theorem State.setOutput_ibufLen (bs : List Byte) : (s.setOutput bs).ibufLen = s.ibufLen := rfl
@[simp] theorem State.setOutput_obufLen (bs : List Byte) : (s.setOutput bs).obufLen = BitVec.ofNat 32 bs.length := rfl
@[simp] theorem State.setOutput_treeLen (bs : List Byte) : (s.setOutput bs).treeLen = s.treeLen := rfl
@[simp] theorem State.setOutput_treePad (bs : List Byte) : (s.setOutput bs).treePad = s.treePad := rfl
@[simp] theorem State.setOutput_dataPad (bs : List Byte) : (s.setOutput bs).dataPad = s.dataPad := rfl
@[simp] theorem State.setOutput_root (bs : List Byte) : (s.setOutput bs).root = s.root := rfl
@[simp] theorem State.setOutput_nodeCount (bs : List Byte) : (s.setOutput bs).nodeCount = s.nodeCount := rfl
@[simp] theorem State.setOutput_pendByte (bs : List Byte) : (s.setOutput bs).pendByte = s.pendByte := rfl
@[simp] theorem State.setOutput_pendBits (bs : List Byte) : (s.setOutput bs).pendBits = s.pendBits := rfl
@[simp] theorem State.setOutput_cursor (bs : List Byte) : (s.setOutput bs).cursor = s.cursor := rfl
@[simp] theorem State.setOutput_streamLenLo (bs : List Byte) : (s.setOutput bs).streamLenLo = s.streamLenLo := rfl
@[simp] theorem State.setOutput_streamLenHi (bs : List Byte) : (s.setOutput bs).streamLenHi = s.streamLenHi := rfl
@[simp] theorem State.setOutput_dataOff (bs : List Byte) : (s.setOutput bs).dataOff = s.dataOff := rfl
@[simp] theorem State.setOutput_lkLen (bs : List Byte) : (s.setOutput bs).lkLen = s.lkLen := rfl
@[simp] theorem State.setOutput_lkBits (bs : List Byte) : (s.setOutput bs).lkBits = s.lkBits := rfl
@[simp] theorem State.setOutput_weights (bs : List Byte) : (s.setOutput bs).weights = s.weights := rfl
@[simp] theorem State.setOutput_nodes (bs : List Byte) : (s.setOutput bs).nodes = s.nodes := rfl
@[simp] theorem State.setOutput_codes (bs : List Byte) : (s.setOutput bs).codes = s.codes := rfl
@[simp] theorem State.setOutput_ibuf (bs : List Byte) : (s.setOutput bs).ibuf = s.ibuf := rfl
@[simp] theorem State.setOutput_obuf (bs : List Byte) : (s.setOutput bs).obuf = Memory.ofBytes bs := rfl
@[simp] theorem State.setOutput_inputs (bs : List Byte) : (s.setOutput bs).inputs = s.inputs := rfl
@[simp] theorem State.setOutput_hostReads (bs : List Byte) : (s.setOutput bs).hostReads = s.hostReads := rfl
@[simp] theorem State.setOutput_draws (bs : List Byte) : (s.setOutput bs).draws = s.draws := rfl

/-! ### discardOutput -/

@[simp] theorem State.discardOutput_params : (s.discardOutput).params = s.params := rfl
@[simp] theorem State.discardOutput_ie : (s.discardOutput).ie = s.ie := rfl
@[simp] theorem State.discardOutput_lastCmd : (s.discardOutput).lastCmd = s.lastCmd := rfl
@[simp] theorem State.discardOutput_busy : (s.discardOutput).busy = s.busy := rfl
@[simp] theorem State.discardOutput_done : (s.discardOutput).done = s.done := rfl
@[simp] theorem State.discardOutput_errs : (s.discardOutput).errs = s.errs := rfl
@[simp] theorem State.discardOutput_drop : (s.discardOutput).drop = s.drop := rfl
@[simp] theorem State.discardOutput_treeValid : (s.discardOutput).treeValid = s.treeValid := rfl
@[simp] theorem State.discardOutput_err : (s.discardOutput).err = s.err := rfl
@[simp] theorem State.discardOutput_errInfo : (s.discardOutput).errInfo = s.errInfo := rfl
@[simp] theorem State.discardOutput_ibufLen : (s.discardOutput).ibufLen = s.ibufLen := rfl
@[simp] theorem State.discardOutput_obufLen : (s.discardOutput).obufLen = 0#32 := rfl
@[simp] theorem State.discardOutput_treeLen : (s.discardOutput).treeLen = s.treeLen := rfl
@[simp] theorem State.discardOutput_treePad : (s.discardOutput).treePad = s.treePad := rfl
@[simp] theorem State.discardOutput_dataPad : (s.discardOutput).dataPad = s.dataPad := rfl
@[simp] theorem State.discardOutput_root : (s.discardOutput).root = s.root := rfl
@[simp] theorem State.discardOutput_nodeCount : (s.discardOutput).nodeCount = s.nodeCount := rfl
@[simp] theorem State.discardOutput_pendByte : (s.discardOutput).pendByte = s.pendByte := rfl
@[simp] theorem State.discardOutput_pendBits : (s.discardOutput).pendBits = s.pendBits := rfl
@[simp] theorem State.discardOutput_cursor : (s.discardOutput).cursor = s.cursor := rfl
@[simp] theorem State.discardOutput_streamLenLo : (s.discardOutput).streamLenLo = s.streamLenLo := rfl
@[simp] theorem State.discardOutput_streamLenHi : (s.discardOutput).streamLenHi = s.streamLenHi := rfl
@[simp] theorem State.discardOutput_dataOff : (s.discardOutput).dataOff = s.dataOff := rfl
@[simp] theorem State.discardOutput_lkLen : (s.discardOutput).lkLen = s.lkLen := rfl
@[simp] theorem State.discardOutput_lkBits : (s.discardOutput).lkBits = s.lkBits := rfl
@[simp] theorem State.discardOutput_weights : (s.discardOutput).weights = s.weights := rfl
@[simp] theorem State.discardOutput_nodes : (s.discardOutput).nodes = s.nodes := rfl
@[simp] theorem State.discardOutput_codes : (s.discardOutput).codes = s.codes := rfl
@[simp] theorem State.discardOutput_ibuf : (s.discardOutput).ibuf = s.ibuf := rfl
@[simp] theorem State.discardOutput_obuf : (s.discardOutput).obuf = [] := rfl
@[simp] theorem State.discardOutput_inputs : (s.discardOutput).inputs = s.inputs := rfl
@[simp] theorem State.discardOutput_hostReads : (s.discardOutput).hostReads = s.hostReads := rfl
@[simp] theorem State.discardOutput_draws : (s.discardOutput).draws = s.draws := rfl

/-! ### setWeight -/

@[simp] theorem State.setWeight_params (x : Nat) (w : BitVec 64) : (s.setWeight x w).params = s.params := rfl
@[simp] theorem State.setWeight_ie (x : Nat) (w : BitVec 64) : (s.setWeight x w).ie = s.ie := rfl
@[simp] theorem State.setWeight_lastCmd (x : Nat) (w : BitVec 64) : (s.setWeight x w).lastCmd = s.lastCmd := rfl
@[simp] theorem State.setWeight_busy (x : Nat) (w : BitVec 64) : (s.setWeight x w).busy = s.busy := rfl
@[simp] theorem State.setWeight_done (x : Nat) (w : BitVec 64) : (s.setWeight x w).done = s.done := rfl
@[simp] theorem State.setWeight_errs (x : Nat) (w : BitVec 64) : (s.setWeight x w).errs = s.errs := rfl
@[simp] theorem State.setWeight_drop (x : Nat) (w : BitVec 64) : (s.setWeight x w).drop = s.drop := rfl
@[simp] theorem State.setWeight_treeValid (x : Nat) (w : BitVec 64) : (s.setWeight x w).treeValid = s.treeValid := rfl
@[simp] theorem State.setWeight_err (x : Nat) (w : BitVec 64) : (s.setWeight x w).err = s.err := rfl
@[simp] theorem State.setWeight_errInfo (x : Nat) (w : BitVec 64) : (s.setWeight x w).errInfo = s.errInfo := rfl
@[simp] theorem State.setWeight_ibufLen (x : Nat) (w : BitVec 64) : (s.setWeight x w).ibufLen = s.ibufLen := rfl
@[simp] theorem State.setWeight_obufLen (x : Nat) (w : BitVec 64) : (s.setWeight x w).obufLen = s.obufLen := rfl
@[simp] theorem State.setWeight_treeLen (x : Nat) (w : BitVec 64) : (s.setWeight x w).treeLen = s.treeLen := rfl
@[simp] theorem State.setWeight_treePad (x : Nat) (w : BitVec 64) : (s.setWeight x w).treePad = s.treePad := rfl
@[simp] theorem State.setWeight_dataPad (x : Nat) (w : BitVec 64) : (s.setWeight x w).dataPad = s.dataPad := rfl
@[simp] theorem State.setWeight_root (x : Nat) (w : BitVec 64) : (s.setWeight x w).root = s.root := rfl
@[simp] theorem State.setWeight_nodeCount (x : Nat) (w : BitVec 64) : (s.setWeight x w).nodeCount = s.nodeCount := rfl
@[simp] theorem State.setWeight_pendByte (x : Nat) (w : BitVec 64) : (s.setWeight x w).pendByte = s.pendByte := rfl
@[simp] theorem State.setWeight_pendBits (x : Nat) (w : BitVec 64) : (s.setWeight x w).pendBits = s.pendBits := rfl
@[simp] theorem State.setWeight_cursor (x : Nat) (w : BitVec 64) : (s.setWeight x w).cursor = s.cursor := rfl
@[simp] theorem State.setWeight_streamLenLo (x : Nat) (w : BitVec 64) : (s.setWeight x w).streamLenLo = s.streamLenLo := rfl
@[simp] theorem State.setWeight_streamLenHi (x : Nat) (w : BitVec 64) : (s.setWeight x w).streamLenHi = s.streamLenHi := rfl
@[simp] theorem State.setWeight_dataOff (x : Nat) (w : BitVec 64) : (s.setWeight x w).dataOff = s.dataOff := rfl
@[simp] theorem State.setWeight_lkLen (x : Nat) (w : BitVec 64) : (s.setWeight x w).lkLen = s.lkLen := rfl
@[simp] theorem State.setWeight_lkBits (x : Nat) (w : BitVec 64) : (s.setWeight x w).lkBits = s.lkBits := rfl
@[simp] theorem State.setWeight_weights (x : Nat) (w : BitVec 64) : (s.setWeight x w).weights = (if w = 0#64 then Table.erase s.weights x else Table.insert s.weights x w) := rfl
@[simp] theorem State.setWeight_nodes (x : Nat) (w : BitVec 64) : (s.setWeight x w).nodes = s.nodes := rfl
@[simp] theorem State.setWeight_codes (x : Nat) (w : BitVec 64) : (s.setWeight x w).codes = s.codes := rfl
@[simp] theorem State.setWeight_ibuf (x : Nat) (w : BitVec 64) : (s.setWeight x w).ibuf = s.ibuf := rfl
@[simp] theorem State.setWeight_obuf (x : Nat) (w : BitVec 64) : (s.setWeight x w).obuf = s.obuf := rfl
@[simp] theorem State.setWeight_inputs (x : Nat) (w : BitVec 64) : (s.setWeight x w).inputs = s.inputs := rfl
@[simp] theorem State.setWeight_hostReads (x : Nat) (w : BitVec 64) : (s.setWeight x w).hostReads = s.hostReads := rfl
@[simp] theorem State.setWeight_draws (x : Nat) (w : BitVec 64) : (s.setWeight x w).draws = s.draws := rfl

/-! ### invalidateTree -/

@[simp] theorem State.invalidateTree_params : (s.invalidateTree).params = s.params := rfl
@[simp] theorem State.invalidateTree_ie : (s.invalidateTree).ie = s.ie := rfl
@[simp] theorem State.invalidateTree_lastCmd : (s.invalidateTree).lastCmd = s.lastCmd := rfl
@[simp] theorem State.invalidateTree_busy : (s.invalidateTree).busy = s.busy := rfl
@[simp] theorem State.invalidateTree_done : (s.invalidateTree).done = s.done := rfl
@[simp] theorem State.invalidateTree_errs : (s.invalidateTree).errs = s.errs := rfl
@[simp] theorem State.invalidateTree_drop : (s.invalidateTree).drop = s.drop := rfl
@[simp] theorem State.invalidateTree_treeValid : (s.invalidateTree).treeValid = false := rfl
@[simp] theorem State.invalidateTree_err : (s.invalidateTree).err = s.err := rfl
@[simp] theorem State.invalidateTree_errInfo : (s.invalidateTree).errInfo = s.errInfo := rfl
@[simp] theorem State.invalidateTree_ibufLen : (s.invalidateTree).ibufLen = s.ibufLen := rfl
@[simp] theorem State.invalidateTree_obufLen : (s.invalidateTree).obufLen = s.obufLen := rfl
@[simp] theorem State.invalidateTree_treeLen : (s.invalidateTree).treeLen = 0#32 := rfl
@[simp] theorem State.invalidateTree_treePad : (s.invalidateTree).treePad = 0#3 := rfl
@[simp] theorem State.invalidateTree_dataPad : (s.invalidateTree).dataPad = s.dataPad := rfl
@[simp] theorem State.invalidateTree_root : (s.invalidateTree).root = 0#9 := rfl
@[simp] theorem State.invalidateTree_nodeCount : (s.invalidateTree).nodeCount = 0#10 := rfl
@[simp] theorem State.invalidateTree_pendByte : (s.invalidateTree).pendByte = s.pendByte := rfl
@[simp] theorem State.invalidateTree_pendBits : (s.invalidateTree).pendBits = s.pendBits := rfl
@[simp] theorem State.invalidateTree_cursor : (s.invalidateTree).cursor = 0#9 := rfl
@[simp] theorem State.invalidateTree_streamLenLo : (s.invalidateTree).streamLenLo = s.streamLenLo := rfl
@[simp] theorem State.invalidateTree_streamLenHi : (s.invalidateTree).streamLenHi = s.streamLenHi := rfl
@[simp] theorem State.invalidateTree_dataOff : (s.invalidateTree).dataOff = 0#32 := rfl
@[simp] theorem State.invalidateTree_lkLen : (s.invalidateTree).lkLen = s.lkLen := rfl
@[simp] theorem State.invalidateTree_lkBits : (s.invalidateTree).lkBits = s.lkBits := rfl
@[simp] theorem State.invalidateTree_weights : (s.invalidateTree).weights = s.weights := rfl
@[simp] theorem State.invalidateTree_nodes : (s.invalidateTree).nodes = [] := rfl
@[simp] theorem State.invalidateTree_codes : (s.invalidateTree).codes = [] := rfl
@[simp] theorem State.invalidateTree_ibuf : (s.invalidateTree).ibuf = s.ibuf := rfl
@[simp] theorem State.invalidateTree_obuf : (s.invalidateTree).obuf = s.obuf := rfl
@[simp] theorem State.invalidateTree_inputs : (s.invalidateTree).inputs = s.inputs := rfl
@[simp] theorem State.invalidateTree_hostReads : (s.invalidateTree).hostReads = s.hostReads := rfl
@[simp] theorem State.invalidateTree_draws : (s.invalidateTree).draws = s.draws := rfl

/-! ### installTree -/

@[simp] theorem State.installTree_params (N : List Node) (r : BitVec 9) : (s.installTree N r).params = s.params := rfl
@[simp] theorem State.installTree_ie (N : List Node) (r : BitVec 9) : (s.installTree N r).ie = s.ie := rfl
@[simp] theorem State.installTree_lastCmd (N : List Node) (r : BitVec 9) : (s.installTree N r).lastCmd = s.lastCmd := rfl
@[simp] theorem State.installTree_busy (N : List Node) (r : BitVec 9) : (s.installTree N r).busy = s.busy := rfl
@[simp] theorem State.installTree_done (N : List Node) (r : BitVec 9) : (s.installTree N r).done = s.done := rfl
@[simp] theorem State.installTree_errs (N : List Node) (r : BitVec 9) : (s.installTree N r).errs = s.errs := rfl
@[simp] theorem State.installTree_drop (N : List Node) (r : BitVec 9) : (s.installTree N r).drop = s.drop := rfl
@[simp] theorem State.installTree_treeValid (N : List Node) (r : BitVec 9) : (s.installTree N r).treeValid = true := rfl
@[simp] theorem State.installTree_err (N : List Node) (r : BitVec 9) : (s.installTree N r).err = s.err := rfl
@[simp] theorem State.installTree_errInfo (N : List Node) (r : BitVec 9) : (s.installTree N r).errInfo = s.errInfo := rfl
@[simp] theorem State.installTree_ibufLen (N : List Node) (r : BitVec 9) : (s.installTree N r).ibufLen = s.ibufLen := rfl
@[simp] theorem State.installTree_obufLen (N : List Node) (r : BitVec 9) : (s.installTree N r).obufLen = s.obufLen := rfl
@[simp] theorem State.installTree_treeLen (N : List Node) (r : BitVec 9) : (s.installTree N r).treeLen = BitVec.ofNat 32 ((serializedBits (leafCount N) + 7) / 8) := rfl
@[simp] theorem State.installTree_treePad (N : List Node) (r : BitVec 9) : (s.installTree N r).treePad = BitVec.ofNat 3 (padOf (serializedBits (leafCount N))) := rfl
@[simp] theorem State.installTree_dataPad (N : List Node) (r : BitVec 9) : (s.installTree N r).dataPad = s.dataPad := rfl
@[simp] theorem State.installTree_root (N : List Node) (r : BitVec 9) : (s.installTree N r).root = r := rfl
@[simp] theorem State.installTree_nodeCount (N : List Node) (r : BitVec 9) : (s.installTree N r).nodeCount = BitVec.ofNat 10 N.length := rfl
@[simp] theorem State.installTree_pendByte (N : List Node) (r : BitVec 9) : (s.installTree N r).pendByte = s.pendByte := rfl
@[simp] theorem State.installTree_pendBits (N : List Node) (r : BitVec 9) : (s.installTree N r).pendBits = s.pendBits := rfl
@[simp] theorem State.installTree_cursor (N : List Node) (r : BitVec 9) : (s.installTree N r).cursor = r := rfl
@[simp] theorem State.installTree_streamLenLo (N : List Node) (r : BitVec 9) : (s.installTree N r).streamLenLo = s.streamLenLo := rfl
@[simp] theorem State.installTree_streamLenHi (N : List Node) (r : BitVec 9) : (s.installTree N r).streamLenHi = s.streamLenHi := rfl
@[simp] theorem State.installTree_dataOff (N : List Node) (r : BitVec 9) : (s.installTree N r).dataOff = 0#32 := rfl
@[simp] theorem State.installTree_lkLen (N : List Node) (r : BitVec 9) : (s.installTree N r).lkLen = s.lkLen := rfl
@[simp] theorem State.installTree_lkBits (N : List Node) (r : BitVec 9) : (s.installTree N r).lkBits = s.lkBits := rfl
@[simp] theorem State.installTree_weights (N : List Node) (r : BitVec 9) : (s.installTree N r).weights = s.weights := rfl
@[simp] theorem State.installTree_nodes (N : List Node) (r : BitVec 9) : (s.installTree N r).nodes = N := rfl
@[simp] theorem State.installTree_codes (N : List Node) (r : BitVec 9) : (s.installTree N r).codes = deriveCodes N r := rfl
@[simp] theorem State.installTree_ibuf (N : List Node) (r : BitVec 9) : (s.installTree N r).ibuf = s.ibuf := rfl
@[simp] theorem State.installTree_obuf (N : List Node) (r : BitVec 9) : (s.installTree N r).obuf = s.obuf := rfl
@[simp] theorem State.installTree_inputs (N : List Node) (r : BitVec 9) : (s.installTree N r).inputs = s.inputs := rfl
@[simp] theorem State.installTree_hostReads (N : List Node) (r : BitVec 9) : (s.installTree N r).hostReads = s.hostReads := rfl
@[simp] theorem State.installTree_draws (N : List Node) (r : BitVec 9) : (s.installTree N r).draws = s.draws := rfl

/-! ### setTreeForm -/

@[simp] theorem State.setTreeForm_params (n p : Nat) : (s.setTreeForm n p).params = s.params := rfl
@[simp] theorem State.setTreeForm_ie (n p : Nat) : (s.setTreeForm n p).ie = s.ie := rfl
@[simp] theorem State.setTreeForm_lastCmd (n p : Nat) : (s.setTreeForm n p).lastCmd = s.lastCmd := rfl
@[simp] theorem State.setTreeForm_busy (n p : Nat) : (s.setTreeForm n p).busy = s.busy := rfl
@[simp] theorem State.setTreeForm_done (n p : Nat) : (s.setTreeForm n p).done = s.done := rfl
@[simp] theorem State.setTreeForm_errs (n p : Nat) : (s.setTreeForm n p).errs = s.errs := rfl
@[simp] theorem State.setTreeForm_drop (n p : Nat) : (s.setTreeForm n p).drop = s.drop := rfl
@[simp] theorem State.setTreeForm_treeValid (n p : Nat) : (s.setTreeForm n p).treeValid = s.treeValid := rfl
@[simp] theorem State.setTreeForm_err (n p : Nat) : (s.setTreeForm n p).err = s.err := rfl
@[simp] theorem State.setTreeForm_errInfo (n p : Nat) : (s.setTreeForm n p).errInfo = s.errInfo := rfl
@[simp] theorem State.setTreeForm_ibufLen (n p : Nat) : (s.setTreeForm n p).ibufLen = s.ibufLen := rfl
@[simp] theorem State.setTreeForm_obufLen (n p : Nat) : (s.setTreeForm n p).obufLen = s.obufLen := rfl
@[simp] theorem State.setTreeForm_treeLen (n p : Nat) : (s.setTreeForm n p).treeLen = BitVec.ofNat 32 n := rfl
@[simp] theorem State.setTreeForm_treePad (n p : Nat) : (s.setTreeForm n p).treePad = BitVec.ofNat 3 p := rfl
@[simp] theorem State.setTreeForm_dataPad (n p : Nat) : (s.setTreeForm n p).dataPad = s.dataPad := rfl
@[simp] theorem State.setTreeForm_root (n p : Nat) : (s.setTreeForm n p).root = s.root := rfl
@[simp] theorem State.setTreeForm_nodeCount (n p : Nat) : (s.setTreeForm n p).nodeCount = s.nodeCount := rfl
@[simp] theorem State.setTreeForm_pendByte (n p : Nat) : (s.setTreeForm n p).pendByte = s.pendByte := rfl
@[simp] theorem State.setTreeForm_pendBits (n p : Nat) : (s.setTreeForm n p).pendBits = s.pendBits := rfl
@[simp] theorem State.setTreeForm_cursor (n p : Nat) : (s.setTreeForm n p).cursor = s.cursor := rfl
@[simp] theorem State.setTreeForm_streamLenLo (n p : Nat) : (s.setTreeForm n p).streamLenLo = s.streamLenLo := rfl
@[simp] theorem State.setTreeForm_streamLenHi (n p : Nat) : (s.setTreeForm n p).streamLenHi = s.streamLenHi := rfl
@[simp] theorem State.setTreeForm_dataOff (n p : Nat) : (s.setTreeForm n p).dataOff = s.dataOff := rfl
@[simp] theorem State.setTreeForm_lkLen (n p : Nat) : (s.setTreeForm n p).lkLen = s.lkLen := rfl
@[simp] theorem State.setTreeForm_lkBits (n p : Nat) : (s.setTreeForm n p).lkBits = s.lkBits := rfl
@[simp] theorem State.setTreeForm_weights (n p : Nat) : (s.setTreeForm n p).weights = s.weights := rfl
@[simp] theorem State.setTreeForm_nodes (n p : Nat) : (s.setTreeForm n p).nodes = s.nodes := rfl
@[simp] theorem State.setTreeForm_codes (n p : Nat) : (s.setTreeForm n p).codes = s.codes := rfl
@[simp] theorem State.setTreeForm_ibuf (n p : Nat) : (s.setTreeForm n p).ibuf = s.ibuf := rfl
@[simp] theorem State.setTreeForm_obuf (n p : Nat) : (s.setTreeForm n p).obuf = s.obuf := rfl
@[simp] theorem State.setTreeForm_inputs (n p : Nat) : (s.setTreeForm n p).inputs = s.inputs := rfl
@[simp] theorem State.setTreeForm_hostReads (n p : Nat) : (s.setTreeForm n p).hostReads = s.hostReads := rfl
@[simp] theorem State.setTreeForm_draws (n p : Nat) : (s.setTreeForm n p).draws = s.draws := rfl

/-! ### setHeader -/

@[simp] theorem State.setHeader_params (L tp dp : Nat) : (s.setHeader L tp dp).params = s.params := rfl
@[simp] theorem State.setHeader_ie (L tp dp : Nat) : (s.setHeader L tp dp).ie = s.ie := rfl
@[simp] theorem State.setHeader_lastCmd (L tp dp : Nat) : (s.setHeader L tp dp).lastCmd = s.lastCmd := rfl
@[simp] theorem State.setHeader_busy (L tp dp : Nat) : (s.setHeader L tp dp).busy = s.busy := rfl
@[simp] theorem State.setHeader_done (L tp dp : Nat) : (s.setHeader L tp dp).done = s.done := rfl
@[simp] theorem State.setHeader_errs (L tp dp : Nat) : (s.setHeader L tp dp).errs = s.errs := rfl
@[simp] theorem State.setHeader_drop (L tp dp : Nat) : (s.setHeader L tp dp).drop = s.drop := rfl
@[simp] theorem State.setHeader_treeValid (L tp dp : Nat) : (s.setHeader L tp dp).treeValid = s.treeValid := rfl
@[simp] theorem State.setHeader_err (L tp dp : Nat) : (s.setHeader L tp dp).err = s.err := rfl
@[simp] theorem State.setHeader_errInfo (L tp dp : Nat) : (s.setHeader L tp dp).errInfo = s.errInfo := rfl
@[simp] theorem State.setHeader_ibufLen (L tp dp : Nat) : (s.setHeader L tp dp).ibufLen = s.ibufLen := rfl
@[simp] theorem State.setHeader_obufLen (L tp dp : Nat) : (s.setHeader L tp dp).obufLen = s.obufLen := rfl
@[simp] theorem State.setHeader_treeLen (L tp dp : Nat) : (s.setHeader L tp dp).treeLen = BitVec.ofNat 32 L := rfl
@[simp] theorem State.setHeader_treePad (L tp dp : Nat) : (s.setHeader L tp dp).treePad = BitVec.ofNat 3 tp := rfl
@[simp] theorem State.setHeader_dataPad (L tp dp : Nat) : (s.setHeader L tp dp).dataPad = BitVec.ofNat 3 dp := rfl
@[simp] theorem State.setHeader_root (L tp dp : Nat) : (s.setHeader L tp dp).root = s.root := rfl
@[simp] theorem State.setHeader_nodeCount (L tp dp : Nat) : (s.setHeader L tp dp).nodeCount = s.nodeCount := rfl
@[simp] theorem State.setHeader_pendByte (L tp dp : Nat) : (s.setHeader L tp dp).pendByte = s.pendByte := rfl
@[simp] theorem State.setHeader_pendBits (L tp dp : Nat) : (s.setHeader L tp dp).pendBits = s.pendBits := rfl
@[simp] theorem State.setHeader_cursor (L tp dp : Nat) : (s.setHeader L tp dp).cursor = s.cursor := rfl
@[simp] theorem State.setHeader_streamLenLo (L tp dp : Nat) : (s.setHeader L tp dp).streamLenLo = s.streamLenLo := rfl
@[simp] theorem State.setHeader_streamLenHi (L tp dp : Nat) : (s.setHeader L tp dp).streamLenHi = s.streamLenHi := rfl
@[simp] theorem State.setHeader_dataOff (L tp dp : Nat) : (s.setHeader L tp dp).dataOff = BitVec.ofNat 32 (5 + L) := rfl
@[simp] theorem State.setHeader_lkLen (L tp dp : Nat) : (s.setHeader L tp dp).lkLen = s.lkLen := rfl
@[simp] theorem State.setHeader_lkBits (L tp dp : Nat) : (s.setHeader L tp dp).lkBits = s.lkBits := rfl
@[simp] theorem State.setHeader_weights (L tp dp : Nat) : (s.setHeader L tp dp).weights = s.weights := rfl
@[simp] theorem State.setHeader_nodes (L tp dp : Nat) : (s.setHeader L tp dp).nodes = s.nodes := rfl
@[simp] theorem State.setHeader_codes (L tp dp : Nat) : (s.setHeader L tp dp).codes = s.codes := rfl
@[simp] theorem State.setHeader_ibuf (L tp dp : Nat) : (s.setHeader L tp dp).ibuf = s.ibuf := rfl
@[simp] theorem State.setHeader_obuf (L tp dp : Nat) : (s.setHeader L tp dp).obuf = s.obuf := rfl
@[simp] theorem State.setHeader_inputs (L tp dp : Nat) : (s.setHeader L tp dp).inputs = s.inputs := rfl
@[simp] theorem State.setHeader_hostReads (L tp dp : Nat) : (s.setHeader L tp dp).hostReads = s.hostReads := rfl
@[simp] theorem State.setHeader_draws (L tp dp : Nat) : (s.setHeader L tp dp).draws = s.draws := rfl

/-! ### setLookup -/

@[simp] theorem State.setLookup_params (bs : BitString) : (s.setLookup bs).params = s.params := rfl
@[simp] theorem State.setLookup_ie (bs : BitString) : (s.setLookup bs).ie = s.ie := rfl
@[simp] theorem State.setLookup_lastCmd (bs : BitString) : (s.setLookup bs).lastCmd = s.lastCmd := rfl
@[simp] theorem State.setLookup_busy (bs : BitString) : (s.setLookup bs).busy = s.busy := rfl
@[simp] theorem State.setLookup_done (bs : BitString) : (s.setLookup bs).done = s.done := rfl
@[simp] theorem State.setLookup_errs (bs : BitString) : (s.setLookup bs).errs = s.errs := rfl
@[simp] theorem State.setLookup_drop (bs : BitString) : (s.setLookup bs).drop = s.drop := rfl
@[simp] theorem State.setLookup_treeValid (bs : BitString) : (s.setLookup bs).treeValid = s.treeValid := rfl
@[simp] theorem State.setLookup_err (bs : BitString) : (s.setLookup bs).err = s.err := rfl
@[simp] theorem State.setLookup_errInfo (bs : BitString) : (s.setLookup bs).errInfo = s.errInfo := rfl
@[simp] theorem State.setLookup_ibufLen (bs : BitString) : (s.setLookup bs).ibufLen = s.ibufLen := rfl
@[simp] theorem State.setLookup_obufLen (bs : BitString) : (s.setLookup bs).obufLen = s.obufLen := rfl
@[simp] theorem State.setLookup_treeLen (bs : BitString) : (s.setLookup bs).treeLen = s.treeLen := rfl
@[simp] theorem State.setLookup_treePad (bs : BitString) : (s.setLookup bs).treePad = s.treePad := rfl
@[simp] theorem State.setLookup_dataPad (bs : BitString) : (s.setLookup bs).dataPad = s.dataPad := rfl
@[simp] theorem State.setLookup_root (bs : BitString) : (s.setLookup bs).root = s.root := rfl
@[simp] theorem State.setLookup_nodeCount (bs : BitString) : (s.setLookup bs).nodeCount = s.nodeCount := rfl
@[simp] theorem State.setLookup_pendByte (bs : BitString) : (s.setLookup bs).pendByte = s.pendByte := rfl
@[simp] theorem State.setLookup_pendBits (bs : BitString) : (s.setLookup bs).pendBits = s.pendBits := rfl
@[simp] theorem State.setLookup_cursor (bs : BitString) : (s.setLookup bs).cursor = s.cursor := rfl
@[simp] theorem State.setLookup_streamLenLo (bs : BitString) : (s.setLookup bs).streamLenLo = s.streamLenLo := rfl
@[simp] theorem State.setLookup_streamLenHi (bs : BitString) : (s.setLookup bs).streamLenHi = s.streamLenHi := rfl
@[simp] theorem State.setLookup_dataOff (bs : BitString) : (s.setLookup bs).dataOff = s.dataOff := rfl
@[simp] theorem State.setLookup_lkLen (bs : BitString) : (s.setLookup bs).lkLen = BitVec.ofNat 9 bs.length := rfl
@[simp] theorem State.setLookup_lkBits (bs : BitString) : (s.setLookup bs).lkBits = #v[codeWord bs 0, codeWord bs 1, codeWord bs 2, codeWord bs 3,
      codeWord bs 4, codeWord bs 5, codeWord bs 6, codeWord bs 7] := rfl
@[simp] theorem State.setLookup_weights (bs : BitString) : (s.setLookup bs).weights = s.weights := rfl
@[simp] theorem State.setLookup_nodes (bs : BitString) : (s.setLookup bs).nodes = s.nodes := rfl
@[simp] theorem State.setLookup_codes (bs : BitString) : (s.setLookup bs).codes = s.codes := rfl
@[simp] theorem State.setLookup_ibuf (bs : BitString) : (s.setLookup bs).ibuf = s.ibuf := rfl
@[simp] theorem State.setLookup_obuf (bs : BitString) : (s.setLookup bs).obuf = s.obuf := rfl
@[simp] theorem State.setLookup_inputs (bs : BitString) : (s.setLookup bs).inputs = s.inputs := rfl
@[simp] theorem State.setLookup_hostReads (bs : BitString) : (s.setLookup bs).hostReads = s.hostReads := rfl
@[simp] theorem State.setLookup_draws (bs : BitString) : (s.setLookup bs).draws = s.draws := rfl

/-! ### setPending -/

@[simp] theorem State.setPending_params (r : BitString) : (s.setPending r).params = s.params := rfl
@[simp] theorem State.setPending_ie (r : BitString) : (s.setPending r).ie = s.ie := rfl
@[simp] theorem State.setPending_lastCmd (r : BitString) : (s.setPending r).lastCmd = s.lastCmd := rfl
@[simp] theorem State.setPending_busy (r : BitString) : (s.setPending r).busy = s.busy := rfl
@[simp] theorem State.setPending_done (r : BitString) : (s.setPending r).done = s.done := rfl
@[simp] theorem State.setPending_errs (r : BitString) : (s.setPending r).errs = s.errs := rfl
@[simp] theorem State.setPending_drop (r : BitString) : (s.setPending r).drop = s.drop := rfl
@[simp] theorem State.setPending_treeValid (r : BitString) : (s.setPending r).treeValid = s.treeValid := rfl
@[simp] theorem State.setPending_err (r : BitString) : (s.setPending r).err = s.err := rfl
@[simp] theorem State.setPending_errInfo (r : BitString) : (s.setPending r).errInfo = s.errInfo := rfl
@[simp] theorem State.setPending_ibufLen (r : BitString) : (s.setPending r).ibufLen = s.ibufLen := rfl
@[simp] theorem State.setPending_obufLen (r : BitString) : (s.setPending r).obufLen = s.obufLen := rfl
@[simp] theorem State.setPending_treeLen (r : BitString) : (s.setPending r).treeLen = s.treeLen := rfl
@[simp] theorem State.setPending_treePad (r : BitString) : (s.setPending r).treePad = s.treePad := rfl
@[simp] theorem State.setPending_dataPad (r : BitString) : (s.setPending r).dataPad = s.dataPad := rfl
@[simp] theorem State.setPending_root (r : BitString) : (s.setPending r).root = s.root := rfl
@[simp] theorem State.setPending_nodeCount (r : BitString) : (s.setPending r).nodeCount = s.nodeCount := rfl
@[simp] theorem State.setPending_pendByte (r : BitString) : (s.setPending r).pendByte = msbWord 8 r := rfl
@[simp] theorem State.setPending_pendBits (r : BitString) : (s.setPending r).pendBits = BitVec.ofNat 3 r.length := rfl
@[simp] theorem State.setPending_cursor (r : BitString) : (s.setPending r).cursor = s.cursor := rfl
@[simp] theorem State.setPending_streamLenLo (r : BitString) : (s.setPending r).streamLenLo = s.streamLenLo := rfl
@[simp] theorem State.setPending_streamLenHi (r : BitString) : (s.setPending r).streamLenHi = s.streamLenHi := rfl
@[simp] theorem State.setPending_dataOff (r : BitString) : (s.setPending r).dataOff = s.dataOff := rfl
@[simp] theorem State.setPending_lkLen (r : BitString) : (s.setPending r).lkLen = s.lkLen := rfl
@[simp] theorem State.setPending_lkBits (r : BitString) : (s.setPending r).lkBits = s.lkBits := rfl
@[simp] theorem State.setPending_weights (r : BitString) : (s.setPending r).weights = s.weights := rfl
@[simp] theorem State.setPending_nodes (r : BitString) : (s.setPending r).nodes = s.nodes := rfl
@[simp] theorem State.setPending_codes (r : BitString) : (s.setPending r).codes = s.codes := rfl
@[simp] theorem State.setPending_ibuf (r : BitString) : (s.setPending r).ibuf = s.ibuf := rfl
@[simp] theorem State.setPending_obuf (r : BitString) : (s.setPending r).obuf = s.obuf := rfl
@[simp] theorem State.setPending_inputs (r : BitString) : (s.setPending r).inputs = s.inputs := rfl
@[simp] theorem State.setPending_hostReads (r : BitString) : (s.setPending r).hostReads = s.hostReads := rfl
@[simp] theorem State.setPending_draws (r : BitString) : (s.setPending r).draws = s.draws := rfl

/-! ### load -/

@[simp] theorem State.load_params (bs : List Byte) : (s.load bs).params = s.params := rfl
@[simp] theorem State.load_ie (bs : List Byte) : (s.load bs).ie = s.ie := rfl
@[simp] theorem State.load_lastCmd (bs : List Byte) : (s.load bs).lastCmd = s.lastCmd := rfl
@[simp] theorem State.load_busy (bs : List Byte) : (s.load bs).busy = s.busy := rfl
@[simp] theorem State.load_done (bs : List Byte) : (s.load bs).done = s.done := rfl
@[simp] theorem State.load_errs (bs : List Byte) : (s.load bs).errs = s.errs := rfl
@[simp] theorem State.load_drop (bs : List Byte) : (s.load bs).drop = s.drop := rfl
@[simp] theorem State.load_treeValid (bs : List Byte) : (s.load bs).treeValid = s.treeValid := rfl
@[simp] theorem State.load_err (bs : List Byte) : (s.load bs).err = s.err := rfl
@[simp] theorem State.load_errInfo (bs : List Byte) : (s.load bs).errInfo = s.errInfo := rfl
@[simp] theorem State.load_ibufLen (bs : List Byte) : (s.load bs).ibufLen = BitVec.ofNat 32 bs.length := rfl
@[simp] theorem State.load_obufLen (bs : List Byte) : (s.load bs).obufLen = s.obufLen := rfl
@[simp] theorem State.load_treeLen (bs : List Byte) : (s.load bs).treeLen = s.treeLen := rfl
@[simp] theorem State.load_treePad (bs : List Byte) : (s.load bs).treePad = s.treePad := rfl
@[simp] theorem State.load_dataPad (bs : List Byte) : (s.load bs).dataPad = s.dataPad := rfl
@[simp] theorem State.load_root (bs : List Byte) : (s.load bs).root = s.root := rfl
@[simp] theorem State.load_nodeCount (bs : List Byte) : (s.load bs).nodeCount = s.nodeCount := rfl
@[simp] theorem State.load_pendByte (bs : List Byte) : (s.load bs).pendByte = s.pendByte := rfl
@[simp] theorem State.load_pendBits (bs : List Byte) : (s.load bs).pendBits = s.pendBits := rfl
@[simp] theorem State.load_cursor (bs : List Byte) : (s.load bs).cursor = s.cursor := rfl
@[simp] theorem State.load_streamLenLo (bs : List Byte) : (s.load bs).streamLenLo = s.streamLenLo := rfl
@[simp] theorem State.load_streamLenHi (bs : List Byte) : (s.load bs).streamLenHi = s.streamLenHi := rfl
@[simp] theorem State.load_dataOff (bs : List Byte) : (s.load bs).dataOff = s.dataOff := rfl
@[simp] theorem State.load_lkLen (bs : List Byte) : (s.load bs).lkLen = s.lkLen := rfl
@[simp] theorem State.load_lkBits (bs : List Byte) : (s.load bs).lkBits = s.lkBits := rfl
@[simp] theorem State.load_weights (bs : List Byte) : (s.load bs).weights = s.weights := rfl
@[simp] theorem State.load_nodes (bs : List Byte) : (s.load bs).nodes = s.nodes := rfl
@[simp] theorem State.load_codes (bs : List Byte) : (s.load bs).codes = s.codes := rfl
@[simp] theorem State.load_ibuf (bs : List Byte) : (s.load bs).ibuf = Memory.ofBytes bs := rfl
@[simp] theorem State.load_obuf (bs : List Byte) : (s.load bs).obuf = s.obuf := rfl
@[simp] theorem State.load_inputs (bs : List Byte) : (s.load bs).inputs = s.inputs := rfl
@[simp] theorem State.load_hostReads (bs : List Byte) : (s.load bs).hostReads = s.hostReads := rfl
@[simp] theorem State.load_draws (bs : List Byte) : (s.load bs).draws = s.draws := rfl

/-! ### resetBlock -/

@[simp] theorem State.resetBlock_params : s.resetBlock.params = s.params := rfl
@[simp] theorem State.resetBlock_ie : s.resetBlock.ie = false := rfl
@[simp] theorem State.resetBlock_lastCmd : s.resetBlock.lastCmd = 0#32 := rfl
@[simp] theorem State.resetBlock_busy : s.resetBlock.busy = false := rfl
@[simp] theorem State.resetBlock_done : s.resetBlock.done = false := rfl
@[simp] theorem State.resetBlock_errs : s.resetBlock.errs = false := rfl
@[simp] theorem State.resetBlock_drop : s.resetBlock.drop = false := rfl
@[simp] theorem State.resetBlock_treeValid : s.resetBlock.treeValid = false := rfl
@[simp] theorem State.resetBlock_err : s.resetBlock.err = 0#8 := rfl
@[simp] theorem State.resetBlock_errInfo : s.resetBlock.errInfo = 0#32 := rfl
@[simp] theorem State.resetBlock_ibufLen : s.resetBlock.ibufLen = 0#32 := rfl
@[simp] theorem State.resetBlock_obufLen : s.resetBlock.obufLen = 0#32 := rfl
@[simp] theorem State.resetBlock_treeLen : s.resetBlock.treeLen = 0#32 := rfl
@[simp] theorem State.resetBlock_treePad : s.resetBlock.treePad = 0#3 := rfl
@[simp] theorem State.resetBlock_dataPad : s.resetBlock.dataPad = 0#3 := rfl
@[simp] theorem State.resetBlock_root : s.resetBlock.root = 0#9 := rfl
@[simp] theorem State.resetBlock_nodeCount : s.resetBlock.nodeCount = 0#10 := rfl
@[simp] theorem State.resetBlock_pendByte : s.resetBlock.pendByte = 0#8 := rfl
@[simp] theorem State.resetBlock_pendBits : s.resetBlock.pendBits = 0#3 := rfl
@[simp] theorem State.resetBlock_cursor : s.resetBlock.cursor = 0#9 := rfl
@[simp] theorem State.resetBlock_streamLenLo : s.resetBlock.streamLenLo = 0#32 := rfl
@[simp] theorem State.resetBlock_streamLenHi : s.resetBlock.streamLenHi = 0#32 := rfl
@[simp] theorem State.resetBlock_dataOff : s.resetBlock.dataOff = 0#32 := rfl
@[simp] theorem State.resetBlock_lkLen : s.resetBlock.lkLen = 0#9 := rfl
@[simp] theorem State.resetBlock_lkBits : s.resetBlock.lkBits = #v[0#32, 0#32, 0#32, 0#32, 0#32, 0#32, 0#32, 0#32] := rfl
@[simp] theorem State.resetBlock_weights : s.resetBlock.weights = [] := rfl
@[simp] theorem State.resetBlock_nodes : s.resetBlock.nodes = [] := rfl
@[simp] theorem State.resetBlock_codes : s.resetBlock.codes = [] := rfl
@[simp] theorem State.resetBlock_ibuf : s.resetBlock.ibuf = [] := rfl
@[simp] theorem State.resetBlock_obuf : s.resetBlock.obuf = [] := rfl
@[simp] theorem State.resetBlock_inputs : s.resetBlock.inputs = s.inputs := rfl
@[simp] theorem State.resetBlock_hostReads : s.resetBlock.hostReads = s.hostReads := rfl
@[simp] theorem State.resetBlock_draws : s.resetBlock.draws = s.draws := rfl

/-! ### raise -/

variable (cmd : Option Instr) (e : ErrCode) (info : Word)

@[simp] theorem State.raise_params : (s.raise cmd e info).params = (s.params) := by
  unfold State.raise; dsimp only; split <;> split <;> rfl
@[simp] theorem State.raise_ie : (s.raise cmd e info).ie = (s.ie) := by
  unfold State.raise; dsimp only; split <;> split <;> rfl
@[simp] theorem State.raise_lastCmd : (s.raise cmd e info).lastCmd = (s.lastCmd) := by
  unfold State.raise; dsimp only; split <;> split <;> rfl
@[simp] theorem State.raise_busy : (s.raise cmd e info).busy = (false) := rfl
@[simp] theorem State.raise_done : (s.raise cmd e info).done = (true) := rfl
@[simp] theorem State.raise_errs : (s.raise cmd e info).errs = (true) := rfl
@[simp] theorem State.raise_drop : (s.raise cmd e info).drop = (s.drop) := by
  unfold State.raise; dsimp only; split <;> split <;> rfl
@[simp] theorem State.raise_treeValid : (s.raise cmd e info).treeValid = (if invalidatesTree cmd e then false else s.treeValid) := by
  unfold State.raise; dsimp only; split <;> split <;> simp_all
@[simp] theorem State.raise_err : (s.raise cmd e info).err = (e.code) := by
  unfold State.raise; dsimp only; split <;> split <;> rfl
@[simp] theorem State.raise_errInfo : (s.raise cmd e info).errInfo = (info) := by
  unfold State.raise; dsimp only; split <;> split <;> rfl
@[simp] theorem State.raise_ibufLen : (s.raise cmd e info).ibufLen = (s.ibufLen) := by
  unfold State.raise; dsimp only; split <;> split <;> rfl
@[simp] theorem State.raise_obufLen : (s.raise cmd e info).obufLen = (if discardsOutput cmd e then 0#32 else s.obufLen) := by
  unfold State.raise; dsimp only; split <;> split <;> simp_all
@[simp] theorem State.raise_treeLen : (s.raise cmd e info).treeLen = (if invalidatesTree cmd e then 0#32 else s.treeLen) := by
  unfold State.raise; dsimp only; split <;> split <;> simp_all
@[simp] theorem State.raise_treePad : (s.raise cmd e info).treePad = (if invalidatesTree cmd e then 0#3 else s.treePad) := by
  unfold State.raise; dsimp only; split <;> split <;> simp_all
@[simp] theorem State.raise_dataPad : (s.raise cmd e info).dataPad = (s.dataPad) := by
  unfold State.raise; dsimp only; split <;> split <;> rfl
@[simp] theorem State.raise_root : (s.raise cmd e info).root = (if invalidatesTree cmd e then 0#9 else s.root) := by
  unfold State.raise; dsimp only; split <;> split <;> simp_all
@[simp] theorem State.raise_nodeCount : (s.raise cmd e info).nodeCount = (if invalidatesTree cmd e then 0#10 else s.nodeCount) := by
  unfold State.raise; dsimp only; split <;> split <;> simp_all
@[simp] theorem State.raise_pendByte : (s.raise cmd e info).pendByte = (s.pendByte) := by
  unfold State.raise; dsimp only; split <;> split <;> rfl
@[simp] theorem State.raise_pendBits : (s.raise cmd e info).pendBits = (s.pendBits) := by
  unfold State.raise; dsimp only; split <;> split <;> rfl
@[simp] theorem State.raise_cursor : (s.raise cmd e info).cursor = (if invalidatesTree cmd e then 0#9 else s.cursor) := by
  unfold State.raise; dsimp only; split <;> split <;> simp_all
@[simp] theorem State.raise_streamLenLo : (s.raise cmd e info).streamLenLo = (s.streamLenLo) := by
  unfold State.raise; dsimp only; split <;> split <;> rfl
@[simp] theorem State.raise_streamLenHi : (s.raise cmd e info).streamLenHi = (s.streamLenHi) := by
  unfold State.raise; dsimp only; split <;> split <;> rfl
@[simp] theorem State.raise_dataOff : (s.raise cmd e info).dataOff = (if invalidatesTree cmd e then 0#32 else s.dataOff) := by
  unfold State.raise; dsimp only; split <;> split <;> simp_all
@[simp] theorem State.raise_lkLen : (s.raise cmd e info).lkLen = (s.lkLen) := by
  unfold State.raise; dsimp only; split <;> split <;> rfl
@[simp] theorem State.raise_lkBits : (s.raise cmd e info).lkBits = (s.lkBits) := by
  unfold State.raise; dsimp only; split <;> split <;> rfl
@[simp] theorem State.raise_weights : (s.raise cmd e info).weights = (s.weights) := by
  unfold State.raise; dsimp only; split <;> split <;> rfl
@[simp] theorem State.raise_nodes : (s.raise cmd e info).nodes = (if invalidatesTree cmd e then [] else s.nodes) := by
  unfold State.raise; dsimp only; split <;> split <;> simp_all
@[simp] theorem State.raise_codes : (s.raise cmd e info).codes = (if invalidatesTree cmd e then [] else s.codes) := by
  unfold State.raise; dsimp only; split <;> split <;> simp_all
@[simp] theorem State.raise_ibuf : (s.raise cmd e info).ibuf = (s.ibuf) := by
  unfold State.raise; dsimp only; split <;> split <;> rfl
@[simp] theorem State.raise_obuf : (s.raise cmd e info).obuf = (if discardsOutput cmd e then [] else s.obuf) := by
  unfold State.raise; dsimp only; split <;> split <;> simp_all
@[simp] theorem State.raise_inputs : (s.raise cmd e info).inputs = (s.inputs) := by
  unfold State.raise; dsimp only; split <;> split <;> rfl
@[simp] theorem State.raise_hostReads : (s.raise cmd e info).hostReads = (s.hostReads) := by
  unfold State.raise; dsimp only; split <;> split <;> rfl
@[simp] theorem State.raise_draws : (s.raise cmd e info).draws = (s.draws) := by
  unfold State.raise; dsimp only; split <;> split <;> rfl

end Sys2Proof.Machine
end

