-- ==== Sys2Proof/Laws/Table.lean ====
section
/-! SUPPORT. Sparse tables and byte buffers: what a lookup answers after an update, and that every update keeps
the canonical form. -/

namespace Sys2Proof.Machine

section Lookup

variable {α : Type}

theorem Table.lookup_insert (t : Table α) (k j : Nat) (v : α) :
    Table.lookup (Table.insert t k v) j = if k = j then some v else Table.lookup t j := by
  induction t with
  | nil => simp [Table.insert, Table.lookup]
  | cons e t ih =>
    obtain ⟨k', v'⟩ := e
    simp only [Table.insert]
    split
    · simp [Table.lookup]
    · split
      · subst_vars; simp only [Table.lookup]; split <;> rfl
      · simp only [Table.lookup, ih]; split <;> split <;> simp_all

@[simp] theorem Table.lookup_insert_self (t : Table α) (k : Nat) (v : α) :
    Table.lookup (Table.insert t k v) k = some v := by simp [Table.lookup_insert]

theorem Table.lookup_erase (t : Table α) (k j : Nat) :
    Table.lookup (Table.erase t k) j = if k = j then none else Table.lookup t j := by
  induction t with
  | nil => simp [Table.erase, Table.lookup]
  | cons e t ih =>
    obtain ⟨k', v'⟩ := e
    simp only [Table.erase] at ih ⊢
    by_cases h : k' = k
    · subst h; simp only [List.filter_cons, bne_self_eq_false, Bool.false_eq_true, if_false, ih,
        Table.lookup]; split <;> rfl
    · simp only [List.filter_cons, bne_iff_ne, ne_eq, h, not_false_eq_true, if_true, Table.lookup, ih]
      split <;> split <;> simp_all

theorem Table.lookup_mem {t : Table α} {k : Nat} {v : α} (h : Table.lookup t k = some v) : (k, v) ∈ t := by
  induction t with
  | nil => simp [Table.lookup] at h
  | cons e t ih =>
    obtain ⟨k', v'⟩ := e
    simp only [Table.lookup] at h
    split at h
    · simp_all
    · exact List.mem_cons_of_mem _ (ih h)

theorem Table.mem_insert {t : Table α} {k : Nat} {v : α} {e : Nat × α} (h : e ∈ Table.insert t k v) :
    e = (k, v) ∨ e ∈ t := by
  induction t with
  | nil => simpa [Table.insert] using h
  | cons e' t ih =>
    obtain ⟨k', v'⟩ := e'
    simp only [Table.insert] at h
    split at h
    · simpa using h
    · split at h
      · simp only [List.mem_cons] at h ⊢; tauto
      · simp only [List.mem_cons] at h ⊢
        rcases h with h | h
        · tauto
        · rcases ih h with h | h <;> tauto

theorem Table.wf_insert {t : Table α} (h : Table.wf t) (k : Nat) (v : α) : Table.wf (Table.insert t k v) := by
  induction t with
  | nil => simp [Table.wf, Table.insert]
  | cons e t ih =>
    obtain ⟨k', v'⟩ := e
    simp only [Table.wf, List.map_cons, List.pairwise_cons] at h ih ⊢
    simp only [Table.insert]
    split
    · rename_i hk
      simp only [List.map_cons, List.pairwise_cons, List.mem_cons]
      refine ⟨?_, h⟩
      rintro a (rfl | ha)
      · exact hk
      · exact hk.trans (h.1 a ha)
    · split
      · subst_vars; simpa using h
      · simp only [List.map_cons, List.pairwise_cons]
        refine ⟨?_, ih h.2⟩
        intro a ha
        obtain ⟨e, he, rfl⟩ := List.mem_map.1 ha
        rcases Table.mem_insert he with rfl | he
        · simp only; omega
        · exact h.1 _ (List.mem_map_of_mem he)

theorem Table.mem_erase {t : Table α} {k : Nat} {e : Nat × α} (h : e ∈ Table.erase t k) : e ∈ t :=
  List.mem_of_mem_filter h

theorem Table.wf_erase {t : Table α} (h : Table.wf t) (k : Nat) : Table.wf (Table.erase t k) :=
  List.Pairwise.sublist (List.Sublist.map _ List.filter_sublist) h

theorem Table.lookup_of_mem {t : Table α} (h : Table.wf t) {k : Nat} {v : α} (hm : (k, v) ∈ t) :
    Table.lookup t k = some v := by
  induction t with
  | nil => simp at hm
  | cons e t ih =>
    obtain ⟨k', v'⟩ := e
    simp only [Table.wf, List.map_cons, List.pairwise_cons] at h ih
    simp only [List.mem_cons, Prod.mk.injEq] at hm
    simp only [Table.lookup]
    rcases hm with ⟨rfl, rfl⟩ | hm
    · simp
    · have := h.1 k (List.mem_map.2 ⟨_, hm, rfl⟩)
      rw [if_neg (by omega)]
      exact ih h.2 hm

/-- Canonical tables that answer every lookup alike are equal. -/
theorem Table.ext {t u : Table α} (ht : Table.wf t) (hu : Table.wf u)
    (h : ∀ k, Table.lookup t k = Table.lookup u k) : t = u := by
  induction t generalizing u with
  | nil =>
    cases u with
    | nil => rfl
    | cons e u => have := h e.1; simp [Table.lookup] at this
  | cons e t ih =>
    obtain ⟨k, v⟩ := e
    cases u with
    | nil => have := h k; simp [Table.lookup] at this
    | cons e' u =>
      obtain ⟨k', v'⟩ := e'
      simp only [Table.wf, List.map_cons, List.pairwise_cons] at ht hu ih
      have hk : k = k' := by
        have h1 : (k, v) ∈ (k', v') :: u := Table.lookup_mem ((h k).symm.trans (by simp [Table.lookup]))
        have h2 : (k', v') ∈ (k, v) :: t := Table.lookup_mem ((h k').trans (by simp [Table.lookup]))
        simp only [List.mem_cons, Prod.mk.injEq] at h1 h2
        rcases h1 with h1 | h1
        · exact h1.1
        · rcases h2 with h2 | h2
          · exact h2.1.symm
          · have a := hu.1 _ (List.mem_map.2 ⟨_, h1, rfl⟩)
            have b := ht.1 _ (List.mem_map.2 ⟨_, h2, rfl⟩)
            simp only at a b; omega
      subst hk
      have hv : v = v' := by have := h k; simpa [Table.lookup] using this
      subst hv
      congr 1
      refine ih ht.2 hu.2 fun j => ?_
      have hj := h j
      simp only [Table.lookup] at hj
      split at hj
      · rename_i hkj
        subst hkj
        have no : ∀ {w : Table α}, (∀ a ∈ w.map Prod.fst, k < a) → Table.lookup w k = none := by
          intro w hw
          cases hl : Table.lookup w k with
          | none => rfl
          | some x =>
            have := hw _ (List.mem_map.2 ⟨_, Table.lookup_mem hl, rfl⟩)
            simp at this
        rw [no ht.1, no hu.1]
      · exact hj

end Lookup

/-! ### Byte buffers -/

theorem Memory.read_write (m : Memory) (i j : Nat) (b : Byte) :
    Memory.read (Memory.write m i b) j = if i = j then some b else Memory.read m j :=
  Table.lookup_insert m i j b

theorem Memory.wf_write {m : Memory} (h : Memory.wf m) (i : Nat) (b : Byte) : Memory.wf (Memory.write m i b) :=
  Table.wf_insert h i b

theorem Memory.mem_write {m : Memory} {i : Nat} {b : Byte} {c : Host.Cell} (h : c ∈ Memory.write m i b) :
    c = (i, b) ∨ c ∈ m := Table.mem_insert h

theorem Memory.read_ofBytesFrom (bs : List Byte) (i j : Nat) :
    Memory.read (Memory.ofBytesFrom i bs) j = if i ≤ j then bs[j - i]? else none := by
  induction bs generalizing i with
  | nil => simp [Memory.ofBytesFrom, Memory.read, Table.lookup]
  | cons b bs ih =>
    simp only [Memory.read] at ih ⊢
    simp only [Memory.ofBytesFrom, Table.lookup, ih]
    by_cases h : i = j
    · subst h; simp
    · by_cases h' : i ≤ j
      · rw [if_neg h, if_pos (by omega), if_pos h']
        have : j - i = j - (i + 1) + 1 := by omega
        rw [this, List.getElem?_cons_succ]
      · rw [if_neg h, if_neg (by omega), if_neg h']

@[simp] theorem Memory.read_ofBytes (bs : List Byte) (j : Nat) :
    Memory.read (Memory.ofBytes bs) j = bs[j]? := by
  simp [Memory.ofBytes, Memory.read_ofBytesFrom]

@[simp] theorem Memory.length_ofBytesFrom (bs : List Byte) (i : Nat) :
    (Memory.ofBytesFrom i bs).length = bs.length := by
  induction bs generalizing i with
  | nil => rfl
  | cons b bs ih => simp [Memory.ofBytesFrom, ih]

@[simp] theorem Memory.length_ofBytes (bs : List Byte) : (Memory.ofBytes bs).length = bs.length :=
  Memory.length_ofBytesFrom bs 0

@[simp] theorem Memory.snd_ofBytesFrom (bs : List Byte) (i : Nat) :
    (Memory.ofBytesFrom i bs).map Prod.snd = bs := by
  induction bs generalizing i with
  | nil => rfl
  | cons b bs ih => simp [Memory.ofBytesFrom, ih]

@[simp] theorem Memory.snd_ofBytes (bs : List Byte) : (Memory.ofBytes bs).map Prod.snd = bs :=
  Memory.snd_ofBytesFrom bs 0

theorem Memory.fst_ofBytesFrom (bs : List Byte) (i : Nat) :
    (Memory.ofBytesFrom i bs).map Prod.fst = List.range' i bs.length := by
  induction bs generalizing i with
  | nil => rfl
  | cons b bs ih => simp [Memory.ofBytesFrom, ih, List.range'_succ]

theorem Memory.wf_ofBytes (bs : List Byte) : Memory.wf (Memory.ofBytes bs) := by
  show List.Pairwise _ (List.map Prod.fst (Memory.ofBytesFrom 0 bs))
  rw [Memory.fst_ofBytesFrom]
  exact List.pairwise_lt_range'

/-! ### The tables of the state -/

theorem State.weight_setWeight (s : State) (x y : Nat) (w : BitVec 64) :
    (s.setWeight x w).weight y = if x = y then w else s.weight y := by
  simp only [State.weight, State.setWeight_weights]
  split
  · rename_i hw
    rw [Table.lookup_erase]; split <;> simp_all
  · rw [Table.lookup_insert]; split <;> simp_all

theorem Table.wf_foldl_insert {α : Type} (es : List (Nat × α)) {t : Table α} (h : Table.wf t) :
    Table.wf (es.foldl (fun t e => Table.insert t e.1 e.2) t) := by
  induction es generalizing t with
  | nil => exact h
  | cons e es ih => exact ih (Table.wf_insert h _ _)

theorem wf_deriveCodes (N : List Node) (r : BitVec 9) : Table.wf (deriveCodes N r) :=
  Table.wf_foldl_insert _ List.Pairwise.nil

theorem Table.lookup_foldl_insert {α : Type} (es : List (Nat × α)) (hn : (es.map Prod.fst).Nodup)
    (t : Table α) (k : Nat) (v : α) (h : (k, v) ∈ es) :
    Table.lookup (es.foldl (fun t e => Table.insert t e.1 e.2) t) k = some v := by
  induction es generalizing t with
  | nil => simp at h
  | cons e es ih =>
    simp only [List.map_cons, List.nodup_cons] at hn
    simp only [List.mem_cons] at h
    simp only [List.foldl_cons]
    rcases h with rfl | h
    · have keep : ∀ (es : List (Nat × α)) (t : Table α), k ∉ es.map Prod.fst → Table.lookup t k = some v →
          Table.lookup (es.foldl (fun t e => Table.insert t e.1 e.2) t) k = some v := by
        intro es
        induction es with
        | nil => intro t _ h; exact h
        | cons e es ih =>
          intro t hk ht
          simp only [List.map_cons, List.mem_cons, not_or] at hk
          refine ih _ hk.2 ?_
          rw [Table.lookup_insert, if_neg (fun h => hk.1 h.symm), ht]
      exact keep es _ hn.1 (by simp)
    · exact ih hn.2 _ h

theorem Table.lookup_foldl_insert_none {α : Type} (es : List (Nat × α)) (t : Table α) (k : Nat)
    (h : k ∉ es.map Prod.fst) :
    Table.lookup (es.foldl (fun t e => Table.insert t e.1 e.2) t) k = Table.lookup t k := by
  induction es generalizing t with
  | nil => rfl
  | cons e es ih =>
    simp only [List.map_cons, List.mem_cons, not_or] at h
    rw [List.foldl_cons, ih _ h.2, Table.lookup_insert, if_neg (fun h' => h.1 h'.symm)]

/-- Where the letters are distinct, the code table answers exactly the entries written to it. -/
theorem lookup_codeTable {es : List (Nat × BitString)} (hn : (es.map Prod.fst).Nodup) (k : Nat) (p : BitString) :
    Table.lookup (codeTable es) k = some p ↔ (k, p) ∈ es := by
  constructor
  · intro h
    by_cases hk : k ∈ es.map Prod.fst
    · obtain ⟨⟨k', q⟩, hq, rfl⟩ := List.mem_map.1 hk
      have := Table.lookup_foldl_insert es hn [] k' q hq
      rw [codeTable] at h
      simp only at h
      rw [this] at h
      simp only [Option.some.injEq] at h
      exact h ▸ hq
    · rw [codeTable, Table.lookup_foldl_insert_none es [] k hk] at h
      simp [Table.lookup] at h
  · exact Table.lookup_foldl_insert es hn [] k p

end Sys2Proof.Machine
end

