-- ==== Sys2Proof/Laws/Bits.lean ====
section
/-! SUPPORT. Bit strings: what packing and unpacking give, bit by bit (rules R13, R14). -/

namespace Sys2Proof.Machine

theorem bitsToNat_append (bs cs : BitString) : bitsToNat (bs ++ cs) = bitsToNat bs * 2 ^ cs.length + bitsToNat cs := by
  have gen : ∀ (cs : BitString) (v : Nat),
      cs.foldl (fun v b => 2 * v + b.toNat) v = v * 2 ^ cs.length + cs.foldl (fun v b => 2 * v + b.toNat) 0 := by
    intro cs
    induction cs with
    | nil => intro v; simp
    | cons c cs ih =>
      intro v
      rw [List.foldl_cons, ih, List.foldl_cons, ih (2 * 0 + c.toNat), List.length_cons, Nat.pow_succ]
      ring
  rw [bitsToNat, List.foldl_append, gen]; rfl

theorem bitsToNat_cons (b : Bool) (bs : BitString) : bitsToNat (b :: bs) = b.toNat * 2 ^ bs.length + bitsToNat bs := by
  have := bitsToNat_append [b] bs
  simpa [bitsToNat] using this

theorem bitsToNat_lt (bs : BitString) : bitsToNat bs < 2 ^ bs.length := by
  induction bs with
  | nil => simp [bitsToNat]
  | cons b bs ih =>
    rw [bitsToNat_cons, List.length_cons, Nat.pow_succ]
    cases b <;> simp <;> omega

/-- Digit i of the number, counted from the most significant. -/
theorem testBit_bitsToNat (bs : BitString) (i : Nat) (h : i < bs.length) :
    (bitsToNat bs).testBit (bs.length - 1 - i) = bs[i] := by
  induction bs generalizing i with
  | nil => simp at h
  | cons b bs ih =>
    have hlt := bitsToNat_lt bs
    have sum : bitsToNat (b :: bs) = 2 ^ bs.length * b.toNat + bitsToNat bs := by
      rw [bitsToNat_cons, Nat.mul_comm]
    rw [sum, Nat.testBit_two_pow_mul_add _ hlt]
    cases i with
    | zero => cases b <;> simp
    | succ i =>
      simp only [List.length_cons] at h
      have : bs.length + 1 - 1 - (i + 1) = bs.length - 1 - i := by omega
      simp only [List.length_cons, this, List.getElem_cons_succ]
      rw [if_pos (by omega)]
      exact ih i (by omega)

/-- Bit n − 1 − i of the word is bit i of the string, 0 where there is none. -/
theorem getLsbD_msbWord (n : Nat) (bs : BitString) (i : Nat) (h : i < n) :
    (msbWord n bs).getLsbD (n - 1 - i) = bs.getD i false := by
  have hl : ((List.range n).map fun j => bs.getD j false).length = n := by simp
  rw [msbWord, BitVec.getLsbD_ofNat]
  have := testBit_bitsToNat ((List.range n).map fun j => bs.getD j false) i (by omega)
  simp only [hl] at this
  rw [this]
  simp [show n - 1 - i < n by omega]

@[simp] theorem length_bits8 (x : Byte) : (bits8 x).length = 8 := by simp [bits8]

theorem getElem_bits8 (x : Byte) (i : Nat) (h : i < (bits8 x).length) : (bits8 x)[i] = x.getLsbD (7 - i) := by
  simp [bits8]

/-- The bits of a packed byte are the first eight of the string, 0 where there is none. -/
theorem bits8_msbWord (bs : BitString) : bits8 (msbWord 8 bs) = (List.range 8).map fun j => bs.getD j false := by
  apply List.ext_getElem
  · simp
  · intro i h1 h2
    rw [getElem_bits8]
    simp only [length_bits8] at h1
    rw [show 7 - i = 8 - 1 - i by omega, getLsbD_msbWord 8 bs i h1]
    simp

theorem bits8_msbWord_of_length {bs : BitString} (h : bs.length = 8) : bits8 (msbWord 8 bs) = bs := by
  rw [bits8_msbWord]
  apply List.ext_getElem
  · simp [h]
  · intro i h1 h2
    simp [List.getD_eq_getElem?_getD, List.getElem?_eq_getElem h2]

theorem msbWord_bits8 (x : Byte) : msbWord 8 (bits8 x) = x := by
  apply BitVec.eq_of_getLsbD_eq
  intro j hj
  have := getLsbD_msbWord 8 (bits8 x) (7 - j) (by omega)
  rw [show 8 - 1 - (7 - j) = j by omega] at this
  rw [this, List.getD_eq_getElem?_getD, List.getElem?_eq_getElem (by simp; omega), getElem_bits8]
  simp [show 7 - (7 - j) = j by omega]

@[simp] theorem length_pack (bs : BitString) : (pack bs).length = (bs.length + 7) / 8 := by simp [pack]

theorem getElem_pack (bs : BitString) (q : Nat) (h : q < (pack bs).length) :
    (pack bs)[q] = msbWord 8 (bs.drop (8 * q)) := by simp [pack]

/-- Bit i of a packed buffer is bit i of the string, 0 beyond it (rule R13). -/
theorem bitAt_pack (bs : BitString) (i : Nat) (h : i < 8 * ((bs.length + 7) / 8)) :
    bitAt (Memory.ofBytes (pack bs)) i = some (bs.getD i false) := by
  have hq : i / 8 < (pack bs).length := by rw [length_pack]; omega
  rw [bitAt, Memory.read_ofBytes, List.getElem?_eq_getElem hq, getElem_pack, Option.map_some]
  rw [show 7 - i % 8 = 8 - 1 - i % 8 by omega, getLsbD_msbWord 8 _ _ (by omega)]
  congr 1
  rw [List.getD_eq_getElem?_getD, List.getElem?_drop, List.getD_eq_getElem?_getD]
  congr 2
  omega

theorem length_bitsOf (bs : List Byte) : (bitsOf bs).length = 8 * bs.length := by
  induction bs with
  | nil => rfl
  | cons b bs ih =>
    simp only [bitsOf, List.flatMap_cons, List.length_append, length_bits8, List.length_cons] at ih ⊢
    omega

theorem bitsOf_append (bs cs : List Byte) : bitsOf (bs ++ cs) = bitsOf bs ++ bitsOf cs := by
  simp [bitsOf]

/-- Bit i of a byte string, rule R13. -/
theorem getElem?_bitsOf (bs : List Byte) (i : Nat) :
    (bitsOf bs)[i]? = (bs[i / 8]?).map fun b => b.getLsbD (7 - i % 8) := by
  induction bs generalizing i with
  | nil => simp [bitsOf]
  | cons b bs ih =>
    have : bitsOf (b :: bs) = bits8 b ++ bitsOf bs := rfl
    rw [this]
    by_cases h : i < 8
    · rw [List.getElem?_append_left (by simpa using h), List.getElem?_eq_getElem (by simpa using h),
        getElem_bits8, Nat.div_eq_of_lt h, Nat.mod_eq_of_lt h]
      rfl
    · rw [List.getElem?_append_right (by simp; omega), length_bits8, ih]
      rw [show i / 8 = (i - 8) / 8 + 1 by omega, List.getElem?_cons_succ, show i % 8 = (i - 8) % 8 by omega]

theorem bitAt_ofBytes (bs : List Byte) (i : Nat) : bitAt (Memory.ofBytes bs) i = (bitsOf bs)[i]? := by
  rw [bitAt, Memory.read_ofBytes, getElem?_bitsOf]

/-- A packed string unpacks to itself followed by zeros (rules R13, R123). -/
theorem bitsOf_pack (bs : BitString) :
    bitsOf (pack bs) = bs ++ List.replicate (padOf bs.length) false := by
  apply List.ext_getElem?
  intro i
  by_cases h : i < 8 * ((bs.length + 7) / 8)
  · rw [← bitAt_ofBytes, bitAt_pack bs i h, List.getD_eq_getElem?_getD]
    by_cases hi : i < bs.length
    · rw [List.getElem?_append_left hi, List.getElem?_eq_getElem hi]; rfl
    · rw [List.getElem?_append_right (by omega), List.getElem?_eq_none (by omega),
        List.getElem?_replicate, if_pos (by unfold padOf; omega)]
      rfl
  · rw [List.getElem?_eq_none (by rw [length_bitsOf, length_pack]; omega), List.getElem?_eq_none]
    simp only [List.length_append, List.length_replicate, padOf]
    omega

theorem padOf_le (n : Nat) : padOf n ≤ 7 := by unfold padOf; omega

theorem padOf_spec (n : Nat) : n + padOf n = 8 * ((n + 7) / 8) := by unfold padOf; omega

theorem pack_append {bs cs : BitString} (h : bs.length % 8 = 0) : pack (bs ++ cs) = pack bs ++ pack cs := by
  apply List.ext_getElem
  · simp only [length_pack, List.length_append]; omega
  · intro q h1 h2
    rw [getElem_pack]
    by_cases hq : q < (pack bs).length
    · rw [List.getElem_append_left hq, getElem_pack]
      rw [length_pack] at hq
      simp only [msbWord]
      congr 2
      apply List.map_congr_left
      intro j hj
      simp only [List.mem_range] at hj
      simp only [List.getD_eq_getElem?_getD, List.getElem?_drop]
      rw [List.getElem?_append_left (by omega)]
    · rw [List.getElem_append_right (by omega), getElem_pack]
      rw [length_pack] at hq ⊢
      congr 1
      rw [List.drop_append, List.drop_eq_nil_of_le (by omega), List.nil_append]
      congr 1
      omega

end Sys2Proof.Machine
end

