-- ==== Sys2Proof/Laws/Tree.lean ====
section
/-! SUPPORT. The tree that node records hold: an inductive tree that carries its indices, what the walks over
the records compute of it, and its equivalence with ProperTree (rules R53, R180, R210). -/

namespace Sys2Proof.Machine

/-! ### Shapes -/

theorem Shape.length_letters_pos (t : Shape) : 0 < t.letters.length := by
  induction t with
  | leaf x => simp [Shape.letters]
  | node l r ihl ihr => simp only [Shape.letters, List.length_append]; omega

theorem Shape.size_eq (t : Shape) : t.size + 1 = 2 * t.letters.length := by
  induction t with
  | leaf x => simp [Shape.size, Shape.letters]
  | node l r ihl ihr => simp only [Shape.size, Shape.letters, List.length_append]; omega

/-- Rule R212: 10k − 1 bits for k leaves. -/
theorem Shape.length_bits (t : Shape) : t.bits.length + 1 = 10 * t.letters.length := by
  induction t with
  | leaf x => simp [Shape.bits, Shape.letters]
  | node l r ihl ihr => simp only [Shape.bits, Shape.letters, List.length_append, List.length_cons]; omega

theorem Shape.length_bits_eq (t : Shape) : t.bits.length = serializedBits t.letters.length := by
  have := t.length_bits; unfold serializedBits; omega

theorem Shape.paths_letters (t : Shape) (p : BitString) :
    (t.paths p).map Prod.fst = t.letters.map BitVec.toNat := by
  induction t generalizing p with
  | leaf x => rfl
  | node l r ihl ihr => simp [Shape.paths, Shape.letters, ihl, ihr]

/-- The longest path of a shape, in nodes. -/
def Shape.depth : Shape → Nat
  | .leaf _ => 1
  | .node l r => 1 + max l.depth r.depth

theorem Shape.depth_le (t : Shape) : t.depth ≤ t.letters.length := by
  induction t with
  | leaf x => simp [Shape.depth, Shape.letters]
  | node l r ihl ihr =>
    have := l.length_letters_pos; have := r.length_letters_pos
    simp only [Shape.depth, Shape.letters, List.length_append]; omega

theorem Shape.depth_le_size (t : Shape) : t.depth ≤ t.size := by
  have := t.depth_le; have := t.size_eq; have := t.length_letters_pos; omega

theorem Shape.paths_length {t : Shape} {p : BitString} {e : Nat × BitString} (h : e ∈ t.paths p) :
    p.length ≤ e.2.length ∧ e.2.length + 1 ≤ p.length + t.depth := by
  induction t generalizing p with
  | leaf x => simp only [Shape.paths, List.mem_singleton] at h; subst h; simp [Shape.depth]
  | node l r ihl ihr =>
    simp only [Shape.paths, List.mem_append] at h
    rcases h with h | h
    · have := ihl h; simp only [List.length_append, List.length_singleton, Shape.depth] at *; omega
    · have := ihr h; simp only [List.length_append, List.length_singleton, Shape.depth] at *; omega

theorem length_le_of_nodup_bytes {xs : List Byte} (h : xs.Nodup) : xs.length ≤ 256 := by
  have hm : (xs.map BitVec.toNat).Nodup := List.Nodup.map (fun a b => BitVec.eq_of_toNat_eq) h
  have hs : (xs.map BitVec.toNat) ⊆ List.range 256 := by
    intro a ha
    obtain ⟨x, _, rfl⟩ := List.mem_map.1 ha
    exact List.mem_range.2 x.isLt
  have := (hm.subperm hs).length_le
  simpa using this

/-! ### Trees with indices -/

/-- A tree whose nodes carry their record index and weight. -/
inductive ITree where
  | leaf (i : BitVec 9) (x : Byte) (w : BitVec 72)
  | node (i : BitVec 9) (w : BitVec 72) (l r : ITree)

def ITree.idx : ITree → BitVec 9
  | .leaf i _ _ => i
  | .node i _ _ _ => i

@[simp] theorem ITree.idx_leaf (i : BitVec 9) (x : Byte) (w : BitVec 72) : (ITree.leaf i x w).idx = i := rfl
@[simp] theorem ITree.idx_node (i : BitVec 9) (w : BitVec 72) (l r : ITree) : (ITree.node i w l r).idx = i := rfl

@[simp] theorem Node.isInternal_leaf (x : Byte) (w : BitVec 72) : (Node.leaf x w).isInternal = false := rfl
@[simp] theorem Node.isInternal_internal (w : BitVec 72) (l r : BitVec 9) :
    (Node.internal w l r).isInternal = true := rfl

def ITree.weight : ITree → BitVec 72
  | .leaf _ _ w => w
  | .node _ w _ _ => w

@[simp] theorem ITree.weight_leaf (i : BitVec 9) (x : Byte) (w : BitVec 72) : (ITree.leaf i x w).weight = w := rfl
@[simp] theorem ITree.weight_node (i : BitVec 9) (w : BitVec 72) (l r : ITree) :
    (ITree.node i w l r).weight = w := rfl

def ITree.shape : ITree → Shape
  | .leaf _ x _ => .leaf x
  | .node _ _ l r => .node l.shape r.shape

/-- The indices, in pre-order. -/
def ITree.indices : ITree → List Nat
  | .leaf i _ _ => [i.toNat]
  | .node i _ l r => i.toNat :: (l.indices ++ r.indices)

/-- The records of the nodes, in pre-order. -/
def ITree.records : ITree → List Node
  | .leaf _ x w => [.leaf x w]
  | .node _ w l r => .internal w l.idx r.idx :: (l.records ++ r.records)

/-- The records N hold the tree: each node's record stands at its index. -/
def ITree.Holds (N : List Node) : ITree → Prop
  | .leaf i x w => N[i.toNat]? = some (.leaf x w)
  | .node i w l r => N[i.toNat]? = some (.internal w l.idx r.idx) ∧ l.Holds N ∧ r.Holds N

theorem nodeAt_of_getElem? {N : List Node} {i : BitVec 9} {n : Node} (h : N[i.toNat]? = some n) :
    nodeAt N i = n := by simp [nodeAt, List.getD_eq_getElem?_getD, h]

theorem ITree.Holds.append {N : List Node} {t : ITree} (h : t.Holds N) (M : List Node) : t.Holds (N ++ M) := by
  induction t with
  | leaf i x w =>
    simp only [ITree.Holds] at h ⊢
    rw [List.getElem?_append_left (by
      obtain ⟨h, _⟩ := List.getElem?_eq_some_iff.1 h; exact h), h]
  | node i w l r ihl ihr =>
    simp only [ITree.Holds] at h ⊢
    refine ⟨?_, ihl h.2.1, ihr h.2.2⟩
    rw [List.getElem?_append_left (by
      obtain ⟨h, _⟩ := List.getElem?_eq_some_iff.1 h.1; exact h), h.1]

theorem ITree.Holds.root {N : List Node} {t : ITree} (h : t.Holds N) : (nodeAt N t.idx).weight = t.weight := by
  cases t with
  | leaf i x w => exact congrArg Node.weight (nodeAt_of_getElem? h)
  | node i w l r => exact congrArg Node.weight (nodeAt_of_getElem? h.1)

theorem ITree.Holds.idx_lt {N : List Node} {t : ITree} (h : t.Holds N) : t.idx.toNat < N.length := by
  cases t with
  | leaf i x w => exact (List.getElem?_eq_some_iff.1 h).1
  | node i w l r => exact (List.getElem?_eq_some_iff.1 h.1).1

theorem ITree.Holds.indices_lt {N : List Node} {t : ITree} (h : t.Holds N) : ∀ j ∈ t.indices, j < N.length := by
  induction t with
  | leaf i x w =>
    intro j hj
    simp only [ITree.indices, List.mem_singleton] at hj
    exact hj ▸ (List.getElem?_eq_some_iff.1 h).1
  | node i w l r ihl ihr =>
    intro j hj
    simp only [ITree.indices, List.mem_cons, List.mem_append] at hj
    rcases hj with rfl | hj | hj
    · exact (List.getElem?_eq_some_iff.1 h.1).1
    · exact ihl h.2.1 j hj
    · exact ihr h.2.2 j hj

theorem ITree.length_indices (t : ITree) : t.indices.length = t.shape.size := by
  induction t with
  | leaf i x w => rfl
  | node i w l r ihl ihr => simp only [ITree.indices, ITree.shape, Shape.size, List.length_cons,
      List.length_append, ihl, ihr]; omega

/-! ### What the walks over the records compute -/

theorem visits_eq {N : List Node} {t : ITree} (h : t.Holds N) {f : Nat} (hf : t.shape.depth ≤ f) :
    visits N f t.idx = t.indices := by
  induction t generalizing f with
  | leaf i x w =>
    cases f with
    | zero => simp [ITree.shape, Shape.depth] at hf
    | succ f => simp [visits, ITree.indices, nodeAt_of_getElem? h]
  | node i w l r ihl ihr =>
    cases f with
    | zero => simp [ITree.shape, Shape.depth] at hf
    | succ f =>
      simp only [ITree.shape, Shape.depth] at hf
      simp only [visits, ITree.idx_node, ITree.indices, nodeAt_of_getElem? h.1]
      rw [ihl h.2.1 (by omega), ihr h.2.2 (by omega)]

theorem ser_eq {N : List Node} {t : ITree} (h : t.Holds N) {f : Nat} (hf : t.shape.depth ≤ f) :
    ser N f t.idx = t.shape.bits := by
  induction t generalizing f with
  | leaf i x w =>
    cases f with
    | zero => simp [ITree.shape, Shape.depth] at hf
    | succ f => simp [ser, ITree.shape, Shape.bits, nodeAt_of_getElem? h]
  | node i w l r ihl ihr =>
    cases f with
    | zero => simp [ITree.shape, Shape.depth] at hf
    | succ f =>
      simp only [ITree.shape, Shape.depth] at hf
      simp only [ser, ITree.idx_node, ITree.shape, Shape.bits, nodeAt_of_getElem? h.1]
      rw [ihl h.2.1 (by omega), ihr h.2.2 (by omega)]

theorem walk_eq {N : List Node} {t : ITree} (h : t.Holds N) {f : Nat} (hf : t.shape.depth ≤ f) (p : BitString) :
    walk N f t.idx p = t.shape.paths p := by
  induction t generalizing f p with
  | leaf i x w =>
    cases f with
    | zero => simp [ITree.shape, Shape.depth] at hf
    | succ f => simp [walk, ITree.shape, Shape.paths, nodeAt_of_getElem? h]
  | node i w l r ihl ihr =>
    cases f with
    | zero => simp [ITree.shape, Shape.depth] at hf
    | succ f =>
      simp only [ITree.shape, Shape.depth] at hf
      simp only [walk, ITree.idx_node, ITree.shape, Shape.paths, nodeAt_of_getElem? h.1]
      rw [ihl h.2.1 (by omega), ihr h.2.2 (by omega)]

/-- The entries of the code table of a shape: its paths, or the one-bit code of a single leaf (rules R175, R180). -/
def Shape.codeEntries : Shape → List (Nat × BitString)
  | .leaf x => [(x.toNat, [false])]
  | .node l r => (Shape.node l r).paths []

theorem codeEntries_eq {N : List Node} {t : ITree} (h : t.Holds N) (hf : t.shape.depth ≤ Config.maxNodes) :
    codeEntries N t.idx = t.shape.codeEntries := by
  cases t with
  | leaf i x w => simp [codeEntries, ITree.shape, Shape.codeEntries, nodeAt_of_getElem? h]
  | node i w l r =>
    have := walk_eq h hf []
    simp only [ITree.idx_node, ITree.shape] at this
    simp only [codeEntries, ITree.idx_node, ITree.shape, Shape.codeEntries, nodeAt_of_getElem? h.1, this]

theorem Shape.codeEntries_letters (t : Shape) : t.codeEntries.map Prod.fst = t.letters.map BitVec.toNat := by
  cases t with
  | leaf x => rfl
  | node l r => exact Shape.paths_letters _ _

/-- Rule R55: every code has 1 to 255 bits. -/
theorem Shape.codeEntries_length {t : Shape} (h : t.letters.length ≤ 256) {e : Nat × BitString}
    (he : e ∈ t.codeEntries) : 1 ≤ e.2.length ∧ e.2.length ≤ 255 := by
  cases t with
  | leaf x => simp only [Shape.codeEntries, List.mem_singleton] at he; subst he; simp
  | node l r =>
    have hd := (Shape.node l r).depth_le
    simp only [Shape.codeEntries, Shape.paths, List.mem_append] at he
    rcases he with he | he
    · have := Shape.paths_length he
      simp only [List.nil_append, List.length_singleton, Shape.depth] at *; omega
    · have := Shape.paths_length he
      simp only [List.nil_append, List.length_singleton, Shape.depth] at *; omega

/-! ### Counting -/

theorem ITree.records_eq {N : List Node} {t : ITree} (h : t.Holds N) :
    t.indices.map (fun j => N.getD j (.leaf 0#8 0#72)) = t.records := by
  induction t with
  | leaf i x w =>
    simp only [ITree.Holds] at h
    simp [ITree.indices, ITree.records, List.getD_eq_getElem?_getD, h]
  | node i w l r ihl ihr =>
    simp only [ITree.indices, ITree.records, List.map_cons, List.map_append, ihl h.2.1, ihr h.2.2]
    rw [List.getD_eq_getElem?_getD, h.1]; rfl

/-- Where the tree's indices are all the indices, its records are all the records. -/
theorem ITree.records_perm {N : List Node} {t : ITree} (h : t.Holds N)
    (hp : t.indices.Perm (List.range N.length)) : t.records.Perm N := by
  rw [← ITree.records_eq h]
  refine (hp.map _).trans (List.Perm.of_eq ?_)
  apply List.ext_getElem
  · simp
  · intro i h1 h2
    simp [List.getD_eq_getElem?_getD, List.getElem?_eq_getElem h2]

theorem ITree.leafLetters_records (t : ITree) : leafLetters t.records = t.shape.letters := by
  induction t with
  | leaf i x w => rfl
  | node i w l r ihl ihr =>
    simp only [leafLetters] at ihl ihr
    simp [ITree.records, ITree.shape, Shape.letters, leafLetters, ihl, ihr]

theorem ITree.leafCount_records (t : ITree) : leafCount t.records = t.shape.letters.length := by
  induction t with
  | leaf i x w => rfl
  | node i w l r ihl ihr =>
    simp only [leafCount] at ihl ihr
    simp [ITree.records, ITree.shape, Shape.letters, leafCount, ihl, ihr]

theorem ITree.leafLetters_perm {N : List Node} {t : ITree} (h : t.Holds N)
    (hp : t.indices.Perm (List.range N.length)) : (leafLetters N).Perm t.shape.letters := by
  rw [← ITree.leafLetters_records]
  exact ((ITree.records_perm h hp).filterMap _).symm

theorem ITree.leafCount_eq {N : List Node} {t : ITree} (h : t.Holds N)
    (hp : t.indices.Perm (List.range N.length)) : leafCount N = t.shape.letters.length := by
  rw [← ITree.leafCount_records]
  exact ((ITree.records_perm h hp).countP_eq _).symm

/-! ### ProperTree -/

/-- A tree that N holds, whose indices are all of N's and whose letters are distinct, is a proper tree. -/
theorem ProperTree.of_holds {N : List Node} {t : ITree} (h : t.Holds N)
    (hp : t.indices.Perm (List.range N.length)) (hn : t.shape.letters.Nodup) (hw : WeightsAdd N) :
    ProperTree N t.idx where
  reaches := by
    have hl := hp.length_eq
    rw [ITree.length_indices, List.length_range] at hl
    have := t.shape.depth_le_size
    rw [visits_eq h (by omega)]; exact hp
  letters := (ITree.leafLetters_perm h hp).nodup_iff.2 hn
  count := by
    have hl := hp.length_eq
    rw [ITree.length_indices, List.length_range] at hl
    rw [ITree.leafCount_eq h hp, ← hl]; exact t.shape.size_eq
  someLeaf := by rw [ITree.leafCount_eq h hp]; exact t.shape.length_letters_pos
  fewLeaves := by rw [ITree.leafCount_eq h hp]; exact length_le_of_nodup_bytes hn
  weightsAdd := hw

theorem exists_holds_of_visits {N : List Node} (f : Nat) (i : BitVec 9) (hl : (visits N f i).length < f)
    (hb : ∀ j ∈ visits N f i, j < N.length) : ∃ t : ITree, t.idx = i ∧ t.Holds N ∧ t.shape.depth ≤ f := by
  induction f generalizing i with
  | zero => simp at hl
  | succ f ih =>
    have hi : i.toNat < N.length := hb _ (by simp [visits])
    have hN : N[i.toNat]? = some (nodeAt N i) := by
      simp [nodeAt, List.getD_eq_getElem?_getD, List.getElem?_eq_getElem hi]
    cases hc : nodeAt N i with
    | leaf x w =>
      exact ⟨.leaf i x w, rfl, by simp [ITree.Holds, hN, hc], by simp [ITree.shape, Shape.depth]⟩
    | internal w l r =>
      simp only [visits, hc, List.length_cons, List.length_append, List.mem_cons, List.mem_append] at hl hb
      obtain ⟨tl, hl1, hl2, hl3⟩ := ih l (by omega) (fun j hj => hb j (.inr (.inl hj)))
      obtain ⟨tr, hr1, hr2, hr3⟩ := ih r (by omega) (fun j hj => hb j (.inr (.inr hj)))
      refine ⟨.node i w tl tr, rfl, ⟨?_, hl2, hr2⟩, ?_⟩
      · rw [hN, hc, hl1, hr1]
      · simp only [ITree.shape, Shape.depth]; omega

/-- A proper tree is held: the tree with its indices, all of them, and its letters. -/
theorem ProperTree.holds {N : List Node} {r : BitVec 9} (h : ProperTree N r) :
    ∃ t : ITree, t.idx = r ∧ t.Holds N ∧ t.indices.Perm (List.range N.length) ∧ t.shape.letters.Nodup
      ∧ t.shape.letters.length = leafCount N ∧ t.shape.letters.length ≤ 256 := by
  have hlen := h.reaches.length_eq
  rw [List.length_range] at hlen
  obtain ⟨t, ht, hh, hd⟩ := exists_holds_of_visits (N.length + 1) r (by omega)
    (fun j hj => List.mem_range.1 (h.reaches.mem_iff.1 hj))
  have hp : t.indices.Perm (List.range N.length) := by
    rw [← visits_eq hh hd, ht]; exact h.reaches
  refine ⟨t, ht, hh, hp, (ITree.leafLetters_perm hh hp).nodup_iff.1 h.letters, (ITree.leafCount_eq hh hp).symm, ?_⟩
  rw [← ITree.leafCount_eq hh hp]; exact h.fewLeaves

theorem ProperTree.length_le {N : List Node} {r : BitVec 9} (h : ProperTree N r) : N.length ≤ 511 := by
  have := h.count; have := h.fewLeaves; omega

/-- The codes of a proper tree: one a letter, of 1 to 255 bits (rules R54, R55). -/
theorem ProperTree.code_length {N : List Node} {r : BitVec 9} (h : ProperTree N r) {k : Nat} {p : BitString}
    (hk : Table.lookup (deriveCodes N r) k = some p) : 1 ≤ p.length ∧ p.length ≤ 255 := by
  obtain ⟨t, rfl, hh, hp, hn, hc, h256⟩ := h.holds
  have hd : t.shape.depth ≤ Config.maxNodes := by have := t.shape.depth_le; unfold Config.maxNodes; omega
  rw [deriveCodes, codeEntries_eq hh hd, lookup_codeTable] at hk
  · exact Shape.codeEntries_length h256 hk
  · rw [Shape.codeEntries_letters]
    exact List.Nodup.map (fun a b => BitVec.eq_of_toNat_eq) hn

end Sys2Proof.Machine
end

