-- ==== Sys2Proof/Laws/Build.lean ====
section
/-! SUPPORT. The merge loop of BUILD keeps a forest over the records, and ends with one proper tree (rules R53,
R171 to R174). -/

namespace Sys2Proof.Machine

/-! ### Choosing the minimum -/

theorem argmin_mem (N : List Node) (i : Nat) (Q : List Nat) : argmin N i Q ∈ i :: Q := by
  induction Q generalizing i with
  | nil => simp [argmin]
  | cons j Q ih =>
    have := ih (if lighter N j i then j else i)
    simp only [argmin, List.mem_cons] at this ⊢
    rcases this with h | h
    · rw [h]; split <;> simp
    · exact .inr (.inr h)

theorem NotHeavier.refl (N : List Node) (i : Nat) : NotHeavier N i i := .inr ⟨rfl, Nat.le_refl _⟩

theorem NotHeavier.trans {N : List Node} {i j k : Nat} (h : NotHeavier N i j) (h' : NotHeavier N j k) :
    NotHeavier N i k := by unfold NotHeavier at *; omega

theorem lighter_notHeavier (N : List Node) (i j : Nat) :
    NotHeavier N (if lighter N j i then j else i) i ∧ NotHeavier N (if lighter N j i then j else i) j := by
  have hw : (weightAt N j == weightAt N i) = decide ((weightAt N j).toNat = (weightAt N i).toNat) := by
    rw [Bool.eq_iff_iff]; simp [BitVec.toNat_inj]
  simp only [lighter, hw, NotHeavier]
  split
  · rename_i h; simp at h; omega
  · rename_i h; simp at h; omega

/-- argmin answers the least pair (weight, index), rule R173. -/
theorem argmin_least (N : List Node) (i : Nat) (Q : List Nat) : ∀ j ∈ i :: Q, NotHeavier N (argmin N i Q) j := by
  induction Q generalizing i with
  | nil => intro j hj; simp only [List.mem_singleton] at hj; subst hj; exact .refl _ _
  | cons j Q ih =>
    intro k hk
    have h := ih (if lighter N j i then j else i)
    have hl := lighter_notHeavier N i j
    have h0 := h _ (List.mem_cons_self)
    simp only [argmin, List.mem_cons] at hk ⊢
    rcases hk with rfl | rfl | hk
    · exact h0.trans hl.1
    · exact h0.trans hl.2
    · exact h k (List.mem_cons_of_mem _ hk)

/-! ### Forests -/

/-- The priority structure Q is the roots of trees ts that N holds, which share no record and leave none
out; their letters are L, their weights sum to W, and every Internal's weight is its children's sum. -/
structure Forest (N : List Node) (Q : List Nat) (L : List Byte) (W : Nat) (ts : List ITree) : Prop where
  holds : ∀ t ∈ ts, t.Holds N
  roots : Q.Perm (ts.map fun t => t.idx.toNat)
  indices : (ts.flatMap ITree.indices).Perm (List.range N.length)
  letters : (ts.flatMap fun t => t.shape.letters).Perm L
  weights : (ts.map fun t => t.weight.toNat).sum = W
  add : WeightsAdd N
  closed : ∀ w l r, Node.internal w l r ∈ N → l.toNat < N.length ∧ r.toNat < N.length

/-- One of the trees taken out of the forest. -/
theorem Forest.take {N : List Node} {Q : List Nat} {L : List Byte} {W : Nat} {ts : List ITree}
    (h : Forest N Q L W ts) {a : Nat} (ha : a ∈ Q) :
    ∃ t us, t.idx.toNat = a ∧ ts.Perm (t :: us) ∧ (Q.erase a).Perm (us.map fun t => t.idx.toNat) := by
  obtain ⟨t, ht, rfl⟩ := List.mem_map.1 (h.roots.mem_iff.1 ha)
  obtain ⟨l1, l2, rfl⟩ := List.append_of_mem ht
  refine ⟨t, l1 ++ l2, rfl, List.perm_middle, ?_⟩
  have := (h.roots.trans (List.perm_middle.map fun t : ITree => t.idx.toNat)).erase t.idx.toNat
  simpa using this

theorem nodeAt_append {N : List Node} {i : BitVec 9} (h : i.toNat < N.length) (M : List Node) :
    nodeAt (N ++ M) i = nodeAt N i := by
  simp [nodeAt, List.getD_eq_getElem?_getD, List.getElem?_append_left h]

/-- One merge of rule R174. -/
theorem Forest.merge {N : List Node} {Q Qb : List Nat} {L : List Byte} {W : Nat} {ts us : List ITree}
    {ta tb : ITree} (h : Forest N Q L W ts) (hts : ts.Perm (ta :: tb :: us))
    (hQ : Qb.Perm (us.map fun t => t.idx.toNat)) (hN : N.length < 512) (hW : W < 2 ^ 72) :
    Forest (N ++ [.internal (ta.weight + tb.weight) ta.idx tb.idx]) (Qb ++ [N.length]) L W
      (us ++ [.node (BitVec.ofNat 9 N.length) (ta.weight + tb.weight) ta tb]) := by
  have hta : ta.Holds N := h.holds ta (hts.mem_iff.2 (by simp))
  have htb : tb.Holds N := h.holds tb (hts.mem_iff.2 (by simp))
  have hidx : (BitVec.ofNat 9 N.length).toNat = N.length := by simp [Nat.mod_eq_of_lt hN]
  have hsum : ta.weight.toNat + (tb.weight.toNat + (us.map fun t => t.weight.toNat).sum) = W := by
    rw [← h.weights, (hts.map fun t : ITree => t.weight.toNat).sum_eq]; simp
  have hadd : (ta.weight + tb.weight).toNat = ta.weight.toNat + tb.weight.toNat := by
    rw [BitVec.toNat_add, Nat.mod_eq_of_lt (by omega)]
  refine ⟨?_, ?_, ?_, ?_, ?_, ?_, ?_⟩
  · intro t ht
    simp only [List.mem_append, List.mem_singleton] at ht
    rcases ht with ht | rfl
    · exact (h.holds t (hts.mem_iff.2 (by simp [ht]))).append _
    · refine ⟨?_, hta.append _, htb.append _⟩
      simp only [hidx, List.getElem?_concat_length]
  · simp only [List.map_append, List.map_cons, List.map_nil, ITree.idx_node, hidx]
    exact hQ.append_right _
  · have e := (hts.flatMap_right ITree.indices).symm.trans h.indices
    simp only [List.flatMap_cons] at e
    simp only [List.flatMap_append, List.flatMap_cons, List.flatMap_nil, List.append_nil, ITree.indices, hidx,
      List.length_append, List.length_singleton, List.range_succ]
    refine (List.perm_append_comm).trans ?_
    rw [List.cons_append, List.append_assoc]
    exact (List.Perm.cons _ e).trans (List.perm_append_comm (l₁ := [N.length]))
  · refine List.Perm.trans ?_ h.letters
    refine List.Perm.trans ?_ (hts.flatMap_right _).symm
    simp only [List.flatMap_append, List.flatMap_cons, List.flatMap_nil, List.append_nil, ITree.shape, Shape.letters]
    refine (List.perm_append_comm).trans ?_
    rw [List.append_assoc]
  · simp only [List.map_append, List.map_cons, List.map_nil, List.sum_append, List.sum_cons, List.sum_nil,
      ITree.weight_node, hadd]
    omega
  · intro n hn
    simp only [List.mem_append, List.mem_singleton] at hn
    rcases hn with hn | rfl
    · have hw := h.add n hn
      cases n with
      | leaf x w => trivial
      | internal w l r =>
        have hc := h.closed w l r hn
        simp only [nodeAt_append hc.1, nodeAt_append hc.2]; exact hw
    · simp only [nodeAt_append hta.idx_lt, nodeAt_append htb.idx_lt, hta.root, htb.root, hadd]
  · intro w l r hn
    simp only [List.mem_append, List.mem_singleton, Node.internal.injEq] at hn
    simp only [List.length_append, List.length_singleton]
    rcases hn with hn | ⟨rfl, rfl, rfl⟩
    · have := h.closed w l r hn; omega
    · have := hta.idx_lt; have := htb.idx_lt; omega

theorem weightAt_eq {N : List Node} {t : ITree} (h : t.Holds N) : weightAt N t.idx.toNat = t.weight := h.root

/-- The merge loop ends with one tree over all the records (rules R171, R174): the records it was given
stay in front, the records it adds are Internal, and the root is the last of them. -/
theorem mergeAll_forest (k : Nat) {N : List Node} {Q : List Nat} {L : List Byte} {W : Nat} {ts : List ITree}
    (h : Forest N Q L W ts) (hQ : Q ≠ []) (hk : Q.length ≤ k + 1) (hN : N.length + Q.length ≤ 512)
    (hW : W < 2 ^ 72) :
    ∃ t M, Forest (mergeAll k N Q).1 [(mergeAll k N Q).2] L W [t]
      ∧ (mergeAll k N Q).1 = N ++ M ∧ (∀ n ∈ M, n.isInternal = true)
      ∧ M.length + 1 = Q.length
      ∧ (2 ≤ Q.length → (mergeAll k N Q).2 + 1 = (mergeAll k N Q).1.length) := by
  induction k generalizing N Q ts with
  | zero =>
    match Q, hQ, hk with
    | [r], _, _ =>
      obtain ⟨t, us, ht, hts, hus⟩ := h.take (a := r) (by simp)
      have : us = [] := List.length_eq_zero_iff.1 (by simpa using hus.length_eq.symm)
      subst this
      have : ts = [t] := List.perm_singleton.1 hts
      subst this
      exact ⟨t, [], h, by simp [mergeAll], by simp, by simp, by simp⟩
  | succ k ih =>
    match Q, hQ with
    | [r], _ =>
      obtain ⟨t, us, ht, hts, hus⟩ := h.take (a := r) (by simp)
      have : us = [] := List.length_eq_zero_iff.1 (by simpa using hus.length_eq.symm)
      subst this
      have : ts = [t] := List.perm_singleton.1 hts
      subst this
      exact ⟨t, [], h, by simp [mergeAll], by simp, by simp, by simp⟩
    | i :: j :: Q, _ =>
      simp only [List.length_cons] at hk hN
      obtain ⟨ta, us, hta, hts, hus⟩ := h.take (argmin_mem N i (j :: Q))
      have hla : ((i :: j :: Q).erase (argmin N i (j :: Q))).length = Q.length + 1 := by
        rw [List.length_erase_of_mem (argmin_mem N i (j :: Q))]; simp
      obtain ⟨q, Qa, hQa⟩ : ∃ q Qa, (i :: j :: Q).erase (argmin N i (j :: Q)) = q :: Qa := by
        cases hc : (i :: j :: Q).erase (argmin N i (j :: Q)) with
        | nil => rw [hc] at hla; simp at hla
        | cons q Qa => exact ⟨q, Qa, rfl⟩
      rw [hQa] at hus hla
      have hb := argmin_mem N q Qa
      obtain ⟨tb, htb, hbt⟩ := List.mem_map.1 (hus.mem_iff.1 hb)
      obtain ⟨l1, l2, rfl⟩ := List.append_of_mem htb
      have hQb : ((q :: Qa).erase (argmin N q Qa)).Perm ((l1 ++ l2).map fun t => t.idx.toNat) := by
        have := (hus.trans (List.perm_middle.map fun t : ITree => t.idx.toNat)).erase (argmin N q Qa)
        rw [← hbt] at this ⊢
        simpa using this
      have hts2 : ts.Perm (ta :: tb :: (l1 ++ l2)) := hts.trans (List.Perm.cons _ List.perm_middle)
      have hlb : ((q :: Qa).erase (argmin N q Qa)).length = Q.length := by
        rw [List.length_erase_of_mem hb, hla]; rfl
      have hm := h.merge hts2 hQb (by omega) hW
      have hAa : ta.Holds N := h.holds ta (hts2.mem_iff.2 (by simp))
      have hAb : tb.Holds N := h.holds tb (hts2.mem_iff.2 (by simp))
      have ea : weightAt N (argmin N i (j :: Q)) = ta.weight := by rw [← hta]; exact weightAt_eq hAa
      have eb : weightAt N (argmin N q Qa) = tb.weight := by rw [← hbt]; exact weightAt_eq hAb
      have ia : BitVec.ofNat 9 (argmin N i (j :: Q)) = ta.idx := by rw [← hta]; simp
      have ib : BitVec.ofNat 9 (argmin N q Qa) = tb.idx := by rw [← hbt]; simp
      have step : mergeAll (k + 1) N (i :: j :: Q)
          = mergeAll k (N ++ [.internal (ta.weight + tb.weight) ta.idx tb.idx])
              ((q :: Qa).erase (argmin N q Qa) ++ [N.length]) := by
        simp only [mergeAll, hQa, List.headD_cons, List.tail_cons, ea, eb, ia, ib]
      obtain ⟨t, M, hf, hM, hI, hl, hr⟩ := ih hm (by simp)
        (by simp only [List.length_append, List.length_singleton, hlb]; omega)
        (by simp only [List.length_append, List.length_singleton, hlb]; omega)
      rw [step]
      refine ⟨t, .internal (ta.weight + tb.weight) ta.idx tb.idx :: M, hf, ?_, ?_, ?_, ?_⟩
      · rw [hM]; simp
      · intro n hn
        simp only [List.mem_cons] at hn
        rcases hn with rfl | hn
        · rfl
        · exact hI n hn
      · simp only [List.length_append, List.length_singleton, hlb] at hl
        simp only [List.length_cons]; omega
      · intro _
        by_cases hq : 2 ≤ ((q :: Qa).erase (argmin N q Qa) ++ [N.length]).length
        · exact hr hq
        · simp only [List.length_append, List.length_singleton, hlb] at hq
          have hnil : (q :: Qa).erase (argmin N q Qa) = [] :=
            List.length_eq_zero_iff.1 (by omega)
          rw [hnil, List.nil_append]
          cases k <;> simp [mergeAll]

/-! ### The leaves -/

theorem buildLeaves_eq (s : State) :
    buildLeaves s
      = (presentLetters s).map fun x => Node.leaf (BitVec.ofNat 8 x) ((s.weight x).setWidth 72) := by
  rw [buildLeaves, presentLetters, ← List.filterMap_eq_map, ← List.filterMap_eq_filter, List.filterMap_filterMap]
  congr 1
  funext x
  by_cases h : s.weight x = 0#64 <;> simp [h, Option.guard]

theorem mem_presentLetters {s : State} {x : Nat} : x ∈ presentLetters s ↔ x < 256 ∧ s.weight x ≠ 0#64 := by
  simp [presentLetters, Config.alphabet]

theorem presentLetters_nodup (s : State) : (presentLetters s).Nodup := List.Nodup.filter _ List.nodup_range

theorem length_presentLetters (s : State) : (presentLetters s).length ≤ 256 := by
  have := List.length_filter_le (fun x => s.weight x != 0#64) (List.range Config.alphabet)
  simpa [presentLetters, Config.alphabet] using this

/-- The leaf trees of the priority structure as BUILD starts (rule R170), over letters xs from index i on. -/
def leafTrees (s : State) : Nat → List Nat → List ITree
  | _, [] => []
  | i, x :: xs => .leaf (BitVec.ofNat 9 i) (BitVec.ofNat 8 x) ((s.weight x).setWidth 72) :: leafTrees s (i + 1) xs

theorem leafTrees_indices (s : State) (i : Nat) (xs : List Nat) (h : i + xs.length ≤ 512) :
    (leafTrees s i xs).flatMap ITree.indices = List.range' i xs.length
      ∧ (leafTrees s i xs).map (fun t => t.idx.toNat) = List.range' i xs.length := by
  induction xs generalizing i with
  | nil => simp [leafTrees]
  | cons x xs ih =>
    simp only [List.length_cons] at h
    have := ih (i + 1) (by omega)
    have hm : i % 512 = i := Nat.mod_eq_of_lt (by omega)
    simp [leafTrees, ITree.indices, List.range'_succ, this, hm]

theorem leafTrees_letters (s : State) (i : Nat) (xs : List Nat) :
    (leafTrees s i xs).flatMap (fun t => t.shape.letters) = xs.map (BitVec.ofNat 8) := by
  induction xs generalizing i with
  | nil => rfl
  | cons x xs ih => simp [leafTrees, ITree.shape, Shape.letters, ih]

theorem leafTrees_weights (s : State) (i : Nat) (xs : List Nat) :
    ((leafTrees s i xs).map fun t => t.weight.toNat).sum ≤ xs.length * (2 ^ 64 - 1) := by
  induction xs generalizing i with
  | nil => simp [leafTrees]
  | cons x xs ih =>
    have := ih (i + 1)
    have hw := (s.weight x).isLt
    simp only [leafTrees, List.map_cons, List.sum_cons, List.length_cons, ITree.weight_leaf, BitVec.toNat_setWidth]
    rw [Nat.mod_eq_of_lt (by omega)]
    omega

theorem leafTrees_holds (s : State) (i : Nat) (xs : List Nat) (A : List Node) (hA : A.length = i)
    (h : i + xs.length ≤ 512) :
    ∀ t ∈ leafTrees s i xs,
      t.Holds (A ++ xs.map fun x => Node.leaf (BitVec.ofNat 8 x) ((s.weight x).setWidth 72)) := by
  induction xs generalizing i A with
  | nil => simp [leafTrees]
  | cons x xs ih =>
    simp only [List.length_cons] at h
    intro t ht
    simp only [leafTrees, List.mem_cons] at ht
    rcases ht with rfl | ht
    · subst hA
      have hm : A.length % 512 = A.length := Nat.mod_eq_of_lt (by omega)
      simp [ITree.Holds, hm]
    · have := ih (i + 1) (A ++ [Node.leaf (BitVec.ofNat 8 x) ((s.weight x).setWidth 72)]) (by simp [hA])
        (by omega) t ht
      simpa using this

/-- What BUILD builds from a weight table that is not all 0 (rules R53, R171): a proper tree, whose first
records are the leaves in ascending letter order and whose other records are Internal, with root 2k − 2. -/
theorem buildTree_proper (s : State) (hne : presentLetters s ≠ []) :
    ∃ M, (buildTree (buildLeaves s)).1 = buildLeaves s ++ M ∧ (∀ n ∈ M, n.isInternal = true)
      ∧ M.length + 1 = (buildLeaves s).length
      ∧ (buildTree (buildLeaves s)).2 + 2 = 2 * (buildLeaves s).length
      ∧ ProperTree (buildTree (buildLeaves s)).1 (BitVec.ofNat 9 (buildTree (buildLeaves s)).2) := by
  have hk := length_presentLetters s
  have hpos : 0 < (presentLetters s).length := List.length_pos_of_ne_nil hne
  have hl : (buildLeaves s).length = (presentLetters s).length := by rw [buildLeaves_eq]; simp
  have hidx := leafTrees_indices s 0 (presentLetters s) (by omega)
  have hf : Forest (buildLeaves s) (List.range (buildLeaves s).length)
      ((presentLetters s).map (BitVec.ofNat 8))
      ((leafTrees s 0 (presentLetters s)).map fun t => t.weight.toNat).sum
      (leafTrees s 0 (presentLetters s)) := by
    refine ⟨?_, ?_, ?_, ?_, rfl, ?_, ?_⟩
    · rw [buildLeaves_eq]
      have := leafTrees_holds s 0 (presentLetters s) [] rfl (by omega)
      simpa using this
    · rw [hl, hidx.2, List.range_eq_range']
    · rw [hl, hidx.1, List.range_eq_range']
    · rw [leafTrees_letters]
    · intro n hn
      rw [buildLeaves_eq] at hn
      obtain ⟨x, _, rfl⟩ := List.mem_map.1 hn
      trivial
    · intro w l r hn
      rw [buildLeaves_eq] at hn
      obtain ⟨x, _, hx⟩ := List.mem_map.1 hn
      cases hx
  have hW := leafTrees_weights s 0 (presentLetters s)
  obtain ⟨t, M, hF, hM, hI, hMl, hr⟩ := mergeAll_forest (buildLeaves s).length hf
    (by rw [hl]; intro h; simp only [List.range_eq_nil] at h; omega)
    (by simp) (by simp only [List.length_range]; omega)
    (by
      have : (presentLetters s).length * (2 ^ 64 - 1) ≤ 256 * (2 ^ 64 - 1) := Nat.mul_le_mul_right _ hk
      omega)
  simp only [List.length_range] at hMl hr
  refine ⟨M, hM, hI, hMl, ?_, ?_⟩
  · show (mergeAll _ _ _).2 + 2 = _
    by_cases h2 : 2 ≤ (buildLeaves s).length
    · have e := hr h2
      rw [hM] at e
      simp only [List.length_append] at e
      omega
    · have h1 : (buildLeaves s).length = 1 := by omega
      rw [h1]
      simp [mergeAll, List.range_succ]
  · have hroot : t.idx = BitVec.ofNat 9 (buildTree (buildLeaves s)).2 := by
      have e := hF.roots
      simp only [List.map_cons, List.map_nil] at e
      have e := List.singleton_perm_singleton.1 e
      rw [buildTree, e]
      simp
    rw [← hroot]
    refine ProperTree.of_holds (hF.holds t (by simp)) ?_ ?_ hF.add
    · simpa [buildTree] using hF.indices
    · have e := hF.letters
      simp only [List.flatMap_cons, List.flatMap_nil, List.append_nil] at e
      rw [e.nodup_iff]
      refine List.Nodup.map_on ?_ (presentLetters_nodup s)
      intro x hx y hy hxy
      have hx := (mem_presentLetters.1 hx).1
      have hy := (mem_presentLetters.1 hy).1
      have := congrArg BitVec.toNat hxy
      simp only [BitVec.toNat_ofNat] at this
      omega

end Sys2Proof.Machine
end

