-- ==== Sys2Proof/Laws/Parse.lean ====
section
/-! SUPPORT. The parser and the pre-order records: parseTree answers a shape exactly where the bits are its
serialization and its letters are distinct (rules R222 to R225, R228). -/

namespace Sys2Proof.Machine

/-- The bits bs are there to be taken from bit pos on. -/
def Takes (m : Memory) (off nbits pos : Nat) (bs : BitString) : Prop :=
  ∀ i, (h : i < bs.length) → takeBit m off nbits (pos + i) = .ok bs[i]

theorem Takes.nil (m : Memory) (off nbits pos : Nat) : Takes m off nbits pos [] := by
  intro i h; simp at h

theorem takes_cons {m : Memory} {off nbits pos : Nat} {b : Bool} {bs : BitString} :
    Takes m off nbits pos (b :: bs) ↔ takeBit m off nbits pos = .ok b ∧ Takes m off nbits (pos + 1) bs := by
  constructor
  · intro h
    refine ⟨h 0 (by simp), fun i hi => ?_⟩
    have := h (i + 1) (by simpa using hi)
    rw [show pos + 1 + i = pos + (i + 1) by omega, this]; simp
  · rintro ⟨h0, h⟩ i hi
    cases i with
    | zero => simpa using h0
    | succ i =>
      have := h i (by simpa using hi)
      rw [show pos + (i + 1) = pos + 1 + i by omega, this]; simp

theorem takes_append {m : Memory} {off nbits pos : Nat} {bs cs : BitString} :
    Takes m off nbits pos (bs ++ cs) ↔ Takes m off nbits pos bs ∧ Takes m off nbits (pos + bs.length) cs := by
  induction bs generalizing pos with
  | nil => simp [Takes.nil]
  | cons b bs ih =>
    simp only [List.cons_append, takes_cons, ih, List.length_cons, and_assoc]
    rw [show pos + 1 + bs.length = pos + (bs.length + 1) by omega]

theorem takeBit_lt {m : Memory} {off nbits pos : Nat} {b : Bool} (h : takeBit m off nbits pos = .ok b) :
    pos < nbits := by
  unfold takeBit at h
  split at h
  · assumption
  · cases h

theorem takes_of_bitAt {m : Memory} {off nbits : Nat} {bs : BitString} (hn : bs.length ≤ nbits)
    (h : ∀ i, (hi : i < bs.length) → bitAt m (8 * off + i) = some bs[i]) : Takes m off nbits 0 bs := by
  intro i hi
  simp [takeBit, ibufBit, show i < nbits by omega, h i hi]

theorem bitsToNat_bits8 (x : Byte) : bitsToNat (bits8 x) = x.toNat := by
  have h := congrArg BitVec.toNat (msbWord_bits8 x)
  rw [msbWord, BitVec.toNat_ofNat] at h
  have e : ((List.range 8).map fun j => (bits8 x).getD j false) = bits8 x := by
    apply List.ext_getElem
    · simp
    · intro i h1 h2
      simp [List.getD_eq_getElem?_getD, List.getElem?_eq_getElem h2]
  rw [e, Nat.mod_eq_of_lt] at h
  · exact h
  · have := bitsToNat_lt (bits8 x); rwa [length_bits8] at this

theorem takeNumber_eq {m : Memory} {off nbits : Nat} {bs : BitString} {pos : Nat} (x : Nat)
    (h : Takes m off nbits pos bs) :
    takeNumber m off nbits bs.length pos x = .ok (x * 2 ^ bs.length + bitsToNat bs) := by
  induction bs generalizing pos x with
  | nil => simp [takeNumber, bitsToNat]
  | cons b bs ih =>
    rw [takes_cons] at h
    simp only [List.length_cons, takeNumber, h.1, ih _ h.2, bitsToNat_cons]
    congr 1
    rw [Nat.pow_succ]; ring

theorem takeNumber_ok {m : Memory} {off nbits n pos x y : Nat} (h : takeNumber m off nbits n pos x = .ok y) :
    ∃ bs : BitString, bs.length = n ∧ Takes m off nbits pos bs := by
  induction n generalizing pos x with
  | zero => exact ⟨[], rfl, Takes.nil _ _ _ _⟩
  | succ n ih =>
    simp only [takeNumber] at h
    split at h
    · cases h
    · rename_i b hb
      obtain ⟨bs, hl, ht⟩ := ih h
      exact ⟨b :: bs, by simp [hl], takes_cons.2 ⟨hb, ht⟩⟩

/-- The letter's eight bits are taken as the letter. -/
theorem takeLetter_eq {m : Memory} {off nbits pos : Nat} {x : Byte} (h : Takes m off nbits pos (bits8 x)) :
    takeNumber m off nbits 8 pos 0 = .ok x.toNat := by
  have := takeNumber_eq 0 h
  rw [length_bits8, bitsToNat_bits8] at this
  simpa using this

theorem takeLetter_ok {m : Memory} {off nbits pos y : Nat} (h : takeNumber m off nbits 8 pos 0 = .ok y) :
    Takes m off nbits pos (bits8 (BitVec.ofNat 8 y)) ∧ y < 256 := by
  obtain ⟨bs, hl, ht⟩ := takeNumber_ok h
  have he := takeNumber_eq 0 ht
  rw [hl, h, Except.ok.injEq, Nat.zero_mul, Nat.zero_add] at he
  have hlt := bitsToNat_lt bs
  rw [hl] at hlt
  have hm : msbWord 8 bs = BitVec.ofNat 8 y := by
    rw [msbWord, he]
    congr 2
    apply List.ext_getElem
    · simp [hl]
    · intro i h1 h2
      simp [List.getD_eq_getElem?_getD, List.getElem?_eq_getElem h2]
  refine ⟨?_, by omega⟩
  rw [← hm, bits8_msbWord_of_length hl]
  exact ht

/-- The parser accepts a serialization whose letters are distinct and new. -/
theorem parseNode_eq {m : Memory} {off nbits : Nat} (t : Shape) {f pos : Nat} {seen : List Byte}
    (hf : t.depth ≤ f) (h : Takes m off nbits pos t.bits) (hn : t.letters.Nodup)
    (hd : ∀ x ∈ t.letters, x ∉ seen) :
    parseNode m off nbits f pos seen = .ok (t, pos + t.bits.length, t.letters.reverse ++ seen) := by
  induction t generalizing f pos seen with
  | leaf x =>
    cases f with
    | zero => simp [Shape.depth] at hf
    | succ f =>
      simp only [Shape.bits, takes_cons] at h
      have hx : BitVec.ofNat 8 x.toNat = x := by simp
      have hs : x ∉ seen := hd x (by simp [Shape.letters])
      simp [parseNode, h.1, takeLetter_eq h.2, hx, hs, Shape.bits, Shape.letters]
  | node l r ihl ihr =>
    cases f with
    | zero => simp [Shape.depth] at hf
    | succ f =>
      simp only [Shape.depth] at hf
      simp only [Shape.bits, takes_cons, takes_append] at h
      simp only [Shape.letters, List.nodup_append] at hn
      simp only [Shape.letters, List.mem_append] at hd
      have e1 := ihl (f := f) (pos := pos + 1) (seen := seen) (by omega) h.2.1 hn.1 (fun x hx => hd x (.inl hx))
      have e2 := ihr (f := f) (pos := pos + 1 + l.bits.length) (seen := l.letters.reverse ++ seen) (by omega)
        h.2.2 hn.2.1 (by
          intro x hx
          simp only [List.mem_append, List.mem_reverse, not_or]
          exact ⟨fun h' => hn.2.2 x h' x hx rfl, hd x (.inr hx)⟩)
      simp only [parseNode, h.1, e1, e2, Shape.bits, Shape.letters, List.length_cons, List.length_append,
        List.reverse_append, List.append_assoc]
      rw [show pos + 1 + l.bits.length + r.bits.length = pos + (l.bits.length + r.bits.length + 1) by omega]

@[simp] theorem Shape.lettersWithin_zero (t : Shape) : t.lettersWithin 0 = [] := by
  induction t with
  | leaf x => rfl
  | node l r ihl ihr => simp [Shape.lettersWithin, ihl, ihr]

theorem Shape.lettersWithin_of_le {t : Shape} {n : Nat} (h : t.bits.length ≤ n) : t.lettersWithin n = t.letters := by
  induction t generalizing n with
  | leaf x => simp only [Shape.bits, List.length_cons, length_bits8] at h; simp [Shape.lettersWithin, Shape.letters, h]
  | node l r ihl ihr =>
    simp only [Shape.bits, List.length_cons, List.length_append] at h
    rw [Shape.lettersWithin, ihl (by omega), ihr (by omega), Shape.letters]

theorem Shape.depth_le_bits (t : Shape) : t.depth ≤ t.bits.length := by
  have := t.depth_le; have := t.length_bits; have := t.length_letters_pos; omega

/-- A number that the bits stop within is not taken: the parser ends as the first missing bit does. -/
theorem takeNumber_stop {m : Memory} {off nbits : Nat} {e : Stop} {bs : BitString} {pos n x : Nat}
    (h : Takes m off nbits pos bs) (he : takeBit m off nbits (pos + bs.length) = .error e) (hn : bs.length < n) :
    takeNumber m off nbits n pos x = .error e := by
  induction bs generalizing pos n x with
  | nil =>
    obtain ⟨n, rfl⟩ : ∃ k, n = k + 1 := ⟨n - 1, by simp at hn; omega⟩
    simp only [List.length_nil, Nat.add_zero] at he
    simp [takeNumber, he]
  | cons b bs ih =>
    obtain ⟨n, rfl⟩ : ∃ k, n = k + 1 := ⟨n - 1, by simp at hn; omega⟩
    rw [takes_cons] at h
    simp only [takeNumber, h.1]
    exact ih h.2 (by rw [← he, List.length_cons]; congr 1; omega) (by simpa using hn)

/-- The parser stops within a serialization as taking the first missing bit does, if no letter repeats before it. -/
theorem parseNode_stop {m : Memory} {off nbits : Nat} {e : Stop} (t : Shape) {f pos : Nat} {seen : List Byte}
    {pre more : BitString} (hb : t.bits = pre ++ more) (hm : more ≠ []) (hf : pre.length < f)
    (h : Takes m off nbits pos pre) (he : takeBit m off nbits (pos + pre.length) = .error e)
    (hn : (t.lettersWithin pre.length).Nodup) (hd : ∀ x ∈ t.lettersWithin pre.length, x ∉ seen) :
    parseNode m off nbits f pos seen = .error e := by
  induction t generalizing f pos seen pre more with
  | leaf x =>
    obtain ⟨f, rfl⟩ : ∃ k, f = k + 1 := ⟨f - 1, by omega⟩
    cases pre with
    | nil => simp only [List.length_nil, Nat.add_zero] at he; simp [parseNode, he]
    | cons b pre =>
      simp only [Shape.bits, List.cons_append, List.cons.injEq] at hb
      obtain ⟨rfl, hb⟩ := hb
      rw [takes_cons] at h
      have hl := congrArg List.length hb
      rw [length_bits8, List.length_append] at hl
      have := List.length_pos_of_ne_nil hm
      have hx : takeNumber m off nbits 8 (pos + 1) 0 = .error e :=
        takeNumber_stop h.2 (by rw [← he, List.length_cons]; congr 1; omega) (by omega)
      simp [parseNode, h.1, hx]
  | node l r ihl ihr =>
    obtain ⟨f, rfl⟩ : ∃ k, f = k + 1 := ⟨f - 1, by omega⟩
    cases pre with
    | nil => simp only [List.length_nil, Nat.add_zero] at he; simp [parseNode, he]
    | cons b pre =>
      simp only [Shape.bits, List.cons_append, List.cons.injEq] at hb
      obtain ⟨rfl, hb⟩ := hb
      rw [takes_cons] at h
      simp only [List.length_cons] at hf he
      simp only [Shape.lettersWithin, List.length_cons, Nat.add_sub_cancel, List.nodup_append, List.mem_append] at hn hd
      have right : ∀ as : BitString, pre = l.bits ++ as → r.bits = as ++ more →
          parseNode m off nbits (f + 1) pos seen = .error e := by
        rintro as rfl hr
        rw [takes_append] at h
        simp only [List.length_append] at hf he hn hd
        rw [Shape.lettersWithin_of_le (by omega), Nat.add_sub_cancel_left] at hn hd
        have e1 := parseNode_eq l (f := f) (seen := seen) (by have := l.depth_le_bits; omega) h.2.1 hn.1
          (fun x hx => hd x (.inl hx))
        have e2 := ihr (f := f) (pos := pos + 1 + l.bits.length) (seen := l.letters.reverse ++ seen) hr hm (by omega)
          h.2.2 (by rw [← he]; congr 1; omega) hn.2.1 (by
            intro x hx
            simp only [List.mem_append, List.mem_reverse, not_or]
            exact ⟨fun h' => hn.2.2 x h' x hx rfl, hd x (.inr hx)⟩)
        simp [parseNode, h.1, e1, e2]
      rcases List.append_eq_append_iff.1 hb with ⟨as, h1, h2⟩ | ⟨cs, h1, h2⟩
      · exact right as h1 h2
      · by_cases hc : cs = []
        · subst hc; exact right [] (by simpa using h1.symm) (by simpa using h2.symm)
        · have e1 := ihl (f := f) (pos := pos + 1) (seen := seen) h1 hc (by omega) h.2
            (by rw [← he]; congr 1; omega) hn.1 (fun x hx => hd x (.inl hx))
          simp [parseNode, h.1, e1]

/-- What the parser accepts is a serialization whose letters are distinct and new. -/
theorem parseNode_ok {m : Memory} {off nbits f pos pos' : Nat} {seen seen' : List Byte} {t : Shape}
    (h : parseNode m off nbits f pos seen = .ok (t, pos', seen')) :
    pos' = pos + t.bits.length ∧ Takes m off nbits pos t.bits ∧ seen' = t.letters.reverse ++ seen
      ∧ t.letters.Nodup ∧ ∀ x ∈ t.letters, x ∉ seen := by
  induction f generalizing pos pos' seen seen' t with
  | zero => simp [parseNode] at h
  | succ f ih =>
    simp only [parseNode] at h
    split at h
    · cases h
    · rename_i hb
      split at h
      · cases h
      · rename_i l pos1 seen1 hl
        split at h
        · cases h
        · rename_i r pos2 seen2 hr
          simp only [Except.ok.injEq, Prod.mk.injEq] at h
          obtain ⟨rfl, rfl, rfl⟩ := h
          obtain ⟨rfl, tl, rfl, nl, dl⟩ := ih hl
          obtain ⟨rfl, tr, rfl, nr, dr⟩ := ih hr
          simp only [List.mem_append, List.mem_reverse, not_or] at dr
          refine ⟨by simp only [Shape.bits, List.length_cons, List.length_append]; omega, ?_, ?_, ?_, ?_⟩
          · simp only [Shape.bits, takes_cons, takes_append]
            exact ⟨hb, tl, tr⟩
          · simp [Shape.letters]
          · simp only [Shape.letters, List.nodup_append]
            exact ⟨nl, nr, fun a ha b hb' hab => (dr b hb').1 (hab ▸ ha)⟩
          · simp only [Shape.letters, List.mem_append]
            rintro x (hx | hx)
            · exact dl x hx
            · exact (dr x hx).2
    · rename_i hb
      split at h
      · cases h
      · rename_i x hx
        obtain ⟨ht, hx256⟩ := takeLetter_ok hx
        split at h
        · cases h
        · rename_i hs
          simp only [Except.ok.injEq, Prod.mk.injEq] at h
          obtain ⟨rfl, rfl, rfl⟩ := h
          refine ⟨by simp [Shape.bits], ?_, by simp [Shape.letters], by simp [Shape.letters], by simpa [Shape.letters] using hs⟩
          simp only [Shape.bits, takes_cons]
          exact ⟨hb, ht⟩

/-- parseTree answers a shape exactly where the bits are its serialization and its letters are distinct. -/
theorem parseTree_ok_iff {m : Memory} {off nbits : Nat} {t : Shape} :
    parseTree m off nbits = .ok t ↔
      t.letters.Nodup ∧ t.bits.length = nbits ∧ Takes m off nbits 0 t.bits := by
  constructor
  · intro h
    unfold parseTree at h
    split at h
    · cases h
    · rename_i t' pos seen hp
      split at h
      · rename_i hpos
        cases h
        obtain ⟨h1, h2, -, h3, -⟩ := parseNode_ok hp
        exact ⟨h3, by omega, h2⟩
      · cases h
  · rintro ⟨hn, hl, ht⟩
    have hd : t.depth ≤ nbits + 1 := by
      have := t.depth_le; have := t.length_bits; omega
    simp [parseTree, parseNode_eq t hd ht hn (fun x _ => List.not_mem_nil), hl]

theorem parseTree_of_bits {m : Memory} {off : Nat} {t : Shape} (hn : t.letters.Nodup)
    (h : ∀ i, (hi : i < t.bits.length) → bitAt m (8 * off + i) = some t.bits[i]) :
    parseTree m off t.bits.length = .ok t :=
  parseTree_ok_iff.2 ⟨hn, rfl, takes_of_bitAt (Nat.le_refl _) h⟩

/-- parseTree on a proper beginning of a serialization, where no letter repeats in it: it ends as taking the bit after
it does, be that a bit past the end (rule R222) or one of an unwritten byte (rule R56). -/
theorem parseTree_stop {m : Memory} {off nbits : Nat} {e : Stop} {t : Shape} {pre more : BitString}
    (hb : t.bits = pre ++ more) (hm : more ≠ []) (hl : pre.length ≤ nbits) (h : Takes m off nbits 0 pre)
    (he : takeBit m off nbits pre.length = .error e) (hn : (t.lettersWithin pre.length).Nodup) :
    parseTree m off nbits = .error e := by
  simp [parseTree, parseNode_stop t hb hm (Nat.lt_succ_of_le hl) h (by rwa [Nat.zero_add]) hn
    (fun x _ => List.not_mem_nil)]

/-! ### The pre-order records -/

/-- The tree with the indices that pre-order numbering gives a shape whose root is i. -/
def Shape.itree : Shape → Nat → ITree
  | .leaf x, i => .leaf (BitVec.ofNat 9 i) x 0#72
  | .node l r, i => .node (BitVec.ofNat 9 i) 0#72 (l.itree (i + 1)) (r.itree (i + 1 + l.size))

@[simp] theorem Shape.itree_idx (t : Shape) (i : Nat) : (t.itree i).idx = BitVec.ofNat 9 i := by
  cases t <;> rfl

@[simp] theorem Shape.itree_shape (t : Shape) (i : Nat) : (t.itree i).shape = t := by
  induction t generalizing i with
  | leaf x => rfl
  | node l r ihl ihr => simp [Shape.itree, ITree.shape, ihl, ihr]

theorem Shape.itree_records (t : Shape) (i : Nat) : (t.itree i).records = t.records i := by
  induction t generalizing i with
  | leaf x => rfl
  | node l r ihl ihr => simp [Shape.itree, ITree.records, Shape.records, ihl, ihr]

@[simp] theorem Shape.length_records (t : Shape) (i : Nat) : (t.records i).length = t.size := by
  induction t generalizing i with
  | leaf x => rfl
  | node l r ihl ihr => simp only [Shape.records, List.length_cons, List.length_append, ihl, ihr, Shape.size]; omega

theorem Shape.itree_indices (t : Shape) (i : Nat) (h : i + t.size ≤ 512) :
    (t.itree i).indices = List.range' i t.size := by
  induction t generalizing i with
  | leaf x =>
    simp only [Shape.size] at h
    simp [Shape.itree, ITree.indices, Shape.size, Nat.mod_eq_of_lt (show i < 512 by omega)]
  | node l r ihl ihr =>
    simp only [Shape.size] at h
    simp only [Shape.itree, ITree.indices, ihl (i + 1) (by omega), ihr (i + 1 + l.size) (by omega), Shape.size]
    rw [show 1 + l.size + r.size = (l.size + r.size) + 1 by omega, List.range'_succ, ← List.range'_append_1]
    simp [Nat.mod_eq_of_lt (show i < 512 by omega)]

theorem Shape.itree_holds (t : Shape) (i : Nat) (h : i + t.size ≤ 512) (A B : List Node) (hA : A.length = i) :
    (t.itree i).Holds (A ++ (t.records i ++ B)) := by
  induction t generalizing i A B with
  | leaf x =>
    simp only [Shape.size] at h
    subst hA
    simp [Shape.itree, ITree.Holds, Shape.records, Nat.mod_eq_of_lt (show A.length < 512 by omega)]
  | node l r ihl ihr =>
    simp only [Shape.size] at h
    simp only [Shape.itree, ITree.Holds, Shape.itree_idx]
    refine ⟨?_, ?_, ?_⟩
    · subst hA
      simp [Shape.records, Nat.mod_eq_of_lt (show A.length < 512 by omega)]
    · have := ihl (i + 1) (by omega)
        (A ++ [.internal 0#72 (BitVec.ofNat 9 (i + 1)) (BitVec.ofNat 9 (i + 1 + l.size))])
        (r.records (i + 1 + l.size) ++ B) (by simp [hA])
      simpa [Shape.records, List.append_assoc] using this
    · have := ihr (i + 1 + l.size) (by omega)
        (A ++ .internal 0#72 (BitVec.ofNat 9 (i + 1)) (BitVec.ofNat 9 (i + 1 + l.size)) :: l.records (i + 1)) B
        (by simp [hA]; omega)
      simpa [Shape.records, List.append_assoc] using this

theorem Shape.weight_of_mem_records {t : Shape} {i : Nat} {n : Node} (h : n ∈ t.records i) : n.weight = 0#72 := by
  induction t generalizing i with
  | leaf x => simp only [Shape.records, List.mem_singleton] at h; subst h; rfl
  | node l r ihl ihr =>
    simp only [Shape.records, List.mem_cons, List.mem_append] at h
    rcases h with rfl | h | h
    · rfl
    · exact ihl h
    · exact ihr h

theorem Shape.size_le {t : Shape} (h : t.letters.Nodup) : t.size ≤ 511 := by
  have := t.size_eq; have := length_le_of_nodup_bytes h; omega

theorem Shape.holds {t : Shape} (h : t.letters.Nodup) : (t.itree 0).Holds (t.records 0) := by
  have := t.itree_holds 0 (by have := Shape.size_le h; omega) [] [] rfl
  simpa using this

theorem Shape.indices {t : Shape} (h : t.letters.Nodup) :
    (t.itree 0).indices = List.range (t.records 0).length := by
  rw [Shape.itree_indices t 0 (by have := Shape.size_le h; omega), Shape.length_records, List.range_eq_range']

/-- The records a successful parse installs form a proper tree with root 0 (rules R53, R224). -/
theorem Shape.properTree {t : Shape} (h : t.letters.Nodup) : ProperTree (t.records 0) 0#9 := by
  have := ProperTree.of_holds (Shape.holds h) (List.Perm.of_eq (Shape.indices h)) (by simpa using h) (by
    intro n hn
    have h0 := Shape.weight_of_mem_records hn
    have hz : ∀ i, (nodeAt (t.records 0) i).weight = 0#72 := by
      intro i
      simp only [nodeAt, List.getD_eq_getElem?_getD]
      cases hi : (t.records 0)[i.toNat]? with
      | none => rfl
      | some n => exact Shape.weight_of_mem_records (List.mem_of_getElem? hi)
    cases n with
    | leaf x w => trivial
    | internal w l r => simp only [Node.weight] at h0; simp [h0, hz])
  simpa using this

theorem Shape.leafCount_records {t : Shape} : leafCount (t.records 0) = t.letters.length := by
  rw [← Shape.itree_records, ITree.leafCount_records, Shape.itree_shape]

/-- The codes a successful parse installs (rule R180). -/
theorem Shape.deriveCodes_records {t : Shape} (h : t.letters.Nodup) :
    deriveCodes (t.records 0) 0#9 = codeTable t.codeEntries := by
  have hd : (t.itree 0).shape.depth ≤ Config.maxNodes := by
    have := t.depth_le; have := length_le_of_nodup_bytes h
    simp only [Shape.itree_shape, Config.maxNodes]; omega
  have := codeEntries_eq (Shape.holds h) hd
  simp only [Shape.itree_idx, Shape.itree_shape] at this
  rw [deriveCodes, ← this]

/-- What the records a successful parse installs serialize to (rules R210, R228). -/
theorem Shape.ser_records {t : Shape} (h : t.letters.Nodup) :
    ser (t.records 0) Config.maxNodes 0#9 = t.bits := by
  have hd : (t.itree 0).shape.depth ≤ Config.maxNodes := by
    have := t.depth_le; have := length_le_of_nodup_bytes h
    simp only [Shape.itree_shape, Config.maxNodes]; omega
  have := ser_eq (Shape.holds h) hd
  simpa using this

end Sys2Proof.Machine
end

