-- ==== Sys2Proof/Laws/Exec.lean ====
section
/-! SUPPORT. What a command can do: every meaning is finish of a body, a body that succeeds has one of the shapes
below, and a body that fails raises an error of its command's own (rules R331, R341, R345, R346). -/

namespace Sys2Proof.Machine

/-! ### The completion states -/

theorem State.complete_eq (s : State) : s.complete = s.succeeded := rfl
theorem State.discardOutput_eq (s : State) : s.discardOutput = s.withoutOutput := rfl
theorem State.invalidateTree_eq (s : State) : s.invalidateTree = s.withoutTree := rfl
theorem State.setOutput_eq (s : State) (bs : List Byte) : s.setOutput bs = s.withOutput bs := rfl

/-- raise, in the words of the claims (rules R345, R346). -/
theorem State.raise_eq (s : State) (cmd : Option Instr) (e : ErrCode) (info : Word) :
    s.raise cmd e info
      = (let b := s.failed e.code info
         let c := if discardsOutput cmd e then b.withoutOutput else b
         if invalidatesTree cmd e then c.withoutTree else c) := by
  unfold State.raise
  dsimp only
  split <;> split <;> rfl

theorem ErrCode.code_ne_zero (e : ErrCode) : e.code ≠ 0#8 := by cases e <;> decide

theorem ErrCode.code_inj {e e' : ErrCode} (h : e.code = e'.code) : e = e' := by
  cases e <;> cases e' <;> first | rfl | (exact absurd h (by decide))

/-! ### finish -/

@[simp] theorem finish_ok (i : Instr) (s t : State) : finish i s (.ok t) = .next t.complete := rfl
@[simp] theorem finish_err (i : Instr) (s : State) (e : ErrCode) (info : Word) :
    finish i s (.error (.err e info)) = .next (s.raise (some i) e info) := rfl
@[simp] theorem finish_fault (i : Instr) (s : State) (f : Fault) : finish i s (.error (.fault f)) = .fault f := rfl

/-- A command that answers a next state has succeeded or has raised an error. -/
theorem finish_next {i : Instr} {s u : State} {r : Except Stop State} (h : finish i s r = .next u) :
    (∃ t, r = .ok t ∧ u = t.complete) ∨ ∃ e info, r = .error (.err e info) ∧ u = s.raise (some i) e info := by
  match r, h with
  | .ok t, h => cases h; exact .inl ⟨t, rfl, rfl⟩
  | .error (.err e info), h => cases h; exact .inr ⟨e, info, rfl, rfl⟩
  | .error (.fault f), h => cases h

theorem finish_next_ok {i : Instr} {s u : State} {r : Except Stop State} (h : finish i s r = .next u)
    (he : u.err = 0#8) : ∃ t, r = .ok t ∧ u = t.complete := by
  rcases finish_next h with h | ⟨e, info, -, rfl⟩
  · exact h
  · exact absurd he (by simpa using e.code_ne_zero)

/-! ### The bodies -/

/-- What each command computes before it ends. -/
def body (i : Instr) (s : State) : Except Stop State :=
  match i with
  | .nop => .ok s
  | .sreset => .ok { s.resetBlock with lastCmd := 0x00000001#32 }
  | .wclr => .ok { s with weights := [] }
  | .build =>
    match buildLeaves s with
    | [] => .error (.err .inputEmpty 0#32)
    | leaf :: leaves =>
      .ok (s.installTree (buildTree (leaf :: leaves)).1 (BitVec.ofNat 9 (buildTree (leaf :: leaves)).2))
  | .lookup x =>
    if s.treeValid then
      match s.code x with
      | none => .error (.err .missingCode (detail x 0))
      | some bs => .ok (s.setLookup bs)
    else .error (.err .noTree 0#32)
  | .tser =>
    if s.treeValid then
      .ok ((s.setOutput (pack s.serialized)).setTreeForm (pack s.serialized).length (padOf s.serialized.length))
    else .error (.err .noTree 0#32)
  | .tdes tpad lw =>
    if ibufTooLong s then .error (.err .bufferBounds 1#32)
    else if lw ≠ Config.lwNative then .error (.err .treeFormatTypeMismatch (BitVec.ofNat 32 lw))
    else
      match parseTree s.ibuf 0 (8 * s.ibufLen.toNat - tpad) with
      | .error e => .error e
      | .ok t => .ok ((s.installTree (t.records 0) 0#9).setTreeForm s.ibufLen.toNat tpad)
  | .estart => .ok { s with pendBits := 0#3, pendByte := 0#8 }
  | .echunk f =>
    if ibufTooLong s then .error (.err .bufferBounds 1#32)
    else if s.treeValid then
      match chunkCodes s s.ibufLen.toNat 0 with
      | .error e => .error e
      | .ok bs => .ok (s.emitChunk f (s.pendingBits ++ bs))
    else .error (.err .noTree 0#32)
  | .dstart => .ok { s with cursor := s.root }
  | .dchunk l dpad =>
    if ibufTooLong s then .error (.err .bufferBounds 1#32)
    else if s.treeValid then
      match decodeBits s (chunkBits s.ibufLen.toNat l dpad) 0 s.cursor with
      | .error e => .error e
      | .ok (c, out) =>
        if l && c != s.root then
          .error (.err .dataMalformed (detail 1 (chunkBits s.ibufLen.toNat l dpad)))
        else .ok { s.setOutput out with cursor := c }
    else .error (.err .noTree 0#32)
  | .hbuild => .ok (s.setOutput (headerBytes s))
  | .hparse =>
    if ibufTooLong s then .error (.err .bufferBounds 1#32)
    else if s.streamLen.toNat < 5 then .error (.err .missingHeader 1#32)
    else if s.ibufLen.toNat < 5 then .error (.err .bufferBounds 2#32)
    else
      match readHeader s.ibuf with
      | .error e => .error e
      | .ok (h, L) => parseContainer s h L

/-- Every meaning is finish of its body. -/
theorem exec_eq (i : Instr) (s : State) : exec i s = finish i s (body i s) := by
  cases i <;> rfl

/-! ### What a body that succeeds computes -/

/-- The states a command can compute when it succeeds. -/
inductive Computes (s : State) : Instr → State → Prop
  | nop : Computes s .nop s
  | sreset : Computes s .sreset { s.resetBlock with lastCmd := 0x00000001#32 }
  | wclr : Computes s .wclr { s with weights := [] }
  | build : presentLetters s ≠ [] →
      Computes s .build (s.installTree (buildTree (buildLeaves s)).1 (BitVec.ofNat 9 (buildTree (buildLeaves s)).2))
  | lookup {x bs} : s.treeValid = true → s.code x = some bs → Computes s (.lookup x) (s.setLookup bs)
  | tser : s.treeValid = true →
      Computes s .tser
        ((s.setOutput (pack s.serialized)).setTreeForm (pack s.serialized).length (padOf s.serialized.length))
  | tdes {tpad t} : s.ibufLen.toNat ≤ s.params.ibufBytes →
      parseTree s.ibuf 0 (8 * s.ibufLen.toNat - tpad) = .ok t →
      Computes s (.tdes tpad 1) ((s.installTree (t.records 0) 0#9).setTreeForm s.ibufLen.toNat tpad)
  | estart : Computes s .estart { s with pendBits := 0#3, pendByte := 0#8 }
  | echunk {f bs} : s.ibufLen.toNat ≤ s.params.ibufBytes → s.treeValid = true →
      chunkCodes s s.ibufLen.toNat 0 = .ok bs → Computes s (.echunk f) (s.emitChunk f (s.pendingBits ++ bs))
  | dstart : Computes s .dstart { s with cursor := s.root }
  | dchunk {l dpad c out} : s.ibufLen.toNat ≤ s.params.ibufBytes → s.treeValid = true →
      decodeBits s (chunkBits s.ibufLen.toNat l dpad) 0 s.cursor = .ok (c, out) → (l = true → c = s.root) →
      Computes s (.dchunk l dpad) { s.setOutput out with cursor := c }
  | hbuild : Computes s .hbuild (s.setOutput (headerBytes s))
  | hparse {h L t} : s.ibufLen.toNat ≤ s.params.ibufBytes → 5 ≤ s.streamLen.toNat → 5 ≤ s.ibufLen.toNat →
      readHeader s.ibuf = .ok (h, L) → 5 + L ≤ s.streamLen.toNat → (h.extractLsb' 4 4).toNat ≤ 7 →
      (h.extractLsb' 0 4).toNat ≤ 7 → L ≤ 320 → 5 + L ≤ s.ibufLen.toNat →
      parseTree s.ibuf 5 (8 * L - (h.extractLsb' 4 4).toNat) = .ok t →
      Computes s .hparse ((s.installTree (t.records 0) 0#9).setHeader L (h.extractLsb' 4 4).toNat
        (h.extractLsb' 0 4).toNat)

theorem ibufTooLong_eq_false {s : State} : ibufTooLong s = false ↔ s.ibufLen.toNat ≤ s.params.ibufBytes := by
  simp [ibufTooLong]

theorem buildLeaves_eq_nil {s : State} : buildLeaves s = [] ↔ presentLetters s = [] := by
  simp [buildLeaves_eq]

theorem body_ok {i : Instr} {s t : State} : body i s = .ok t ↔ Computes s i t := by
  constructor
  · intro h
    cases i with
    | nop => cases h; exact .nop
    | sreset => cases h; exact .sreset
    | wclr => cases h; exact .wclr
    | build =>
      simp only [body] at h
      split at h
      · cases h
      · rename_i hb
        cases h
        rw [← hb]
        exact .build (fun hn => by rw [buildLeaves_eq_nil.2 hn] at hb; cases hb)
    | lookup x =>
      simp only [body] at h
      split at h
      · rename_i hv
        split at h
        · cases h
        · rename_i hc; cases h; exact .lookup hv hc
      · cases h
    | tser =>
      simp only [body] at h
      split at h
      · rename_i hv; cases h; exact .tser hv
      · cases h
    | tdes tpad lw =>
      simp only [body] at h
      split at h
      · cases h
      · rename_i hb
        by_cases hl : lw = 1
        · subst hl
          rw [if_neg (by simp [Config.lwNative])] at h
          split at h
          · cases h
          · rename_i hp
            cases h
            exact .tdes (ibufTooLong_eq_false.1 (by simpa using hb)) hp
        · rw [if_pos (by simpa [Config.lwNative] using hl)] at h
          cases h
    | estart => cases h; exact .estart
    | echunk f =>
      simp only [body] at h
      split at h
      · cases h
      · rename_i hb
        split at h
        · rename_i hv
          split at h
          · cases h
          · rename_i hc
            cases h
            exact .echunk (ibufTooLong_eq_false.1 (by simpa using hb)) hv hc
        · cases h
    | dstart => cases h; exact .dstart
    | dchunk l dpad =>
      simp only [body] at h
      split at h
      · cases h
      · rename_i hb
        split at h
        · rename_i hv
          split at h
          · cases h
          · rename_i c out hc
            split at h
            · cases h
            · rename_i hr
              cases h
              exact .dchunk (ibufTooLong_eq_false.1 (by simpa using hb)) hv hc (by simpa using hr)
        · cases h
    | hbuild => cases h; exact .hbuild
    | hparse =>
      simp only [body] at h
      split at h
      · cases h
      · rename_i hb
        split at h
        · cases h
        · split at h
          · cases h
          · split at h
            · cases h
            · rename_i hh
              rename_i hdr L
              unfold parseContainer at h
              dsimp only at h
              by_cases c1 : s.streamLen.toNat - 5 < L
              · rw [if_pos c1] at h; cases h
              rw [if_neg c1] at h
              by_cases c2 : 7 < (hdr.extractLsb' 4 4).toNat
              · rw [if_pos c2] at h; cases h
              rw [if_neg c2] at h
              by_cases c3 : 7 < (hdr.extractLsb' 0 4).toNat
              · rw [if_pos c3] at h; cases h
              rw [if_neg c3] at h
              by_cases c4 : Config.treeMaxBytes < L
              · rw [if_pos c4] at h; cases h
              rw [if_neg c4] at h
              unfold Config.treeMaxBytes at c4
              by_cases c5 : s.ibufLen.toNat < 5 + L
              · rw [if_pos c5] at h; cases h
              rw [if_neg c5] at h
              split at h
              · cases h
              · rename_i hp
                cases h
                exact .hparse (ibufTooLong_eq_false.1 (by simpa using hb)) (by omega) (by omega) hh
                  (by omega) (by omega) (by omega) (by omega) (by omega) hp
  · intro h
    cases h with
    | nop => rfl
    | sreset => rfl
    | wclr => rfl
    | build hne =>
      simp only [body]
      split
      · rename_i hb; exact absurd (buildLeaves_eq_nil.1 hb) hne
      · rename_i hb; rw [hb]
    | lookup hv hc => simp [body, hv, hc]
    | tser hv => simp [body, hv]
    | tdes hb hp => simp [body, ibufTooLong_eq_false.2 hb, hp, Config.lwNative]
    | estart => rfl
    | echunk hb hv hc => simp [body, ibufTooLong_eq_false.2 hb, hv, hc]
    | dstart => rfl
    | @dchunk l dpad c out hb hv hc hr =>
      have hlast : (l && c != s.root) = false := by
        cases l with
        | false => rfl
        | true => simp [hr rfl]
      simp [body, ibufTooLong_eq_false.2 hb, hv, hc, hlast]
    | hbuild => rfl
    | @hparse hdr L t hb hs hn hh hL htp hdp hL' hnL hp =>
      have c1 : ¬ s.streamLen.toNat - 5 < L := by omega
      have c4 : ¬ Config.treeMaxBytes < L := by unfold Config.treeMaxBytes; omega
      simp only [body, ibufTooLong_eq_false.2 hb, hh, parseContainer, hp, if_neg c1, if_neg c4,
        if_neg (show ¬ s.streamLen.toNat < 5 by omega), if_neg (show ¬ s.ibufLen.toNat < 5 by omega),
        if_neg (show ¬ 7 < (hdr.extractLsb' 4 4).toNat by omega),
        if_neg (show ¬ 7 < (hdr.extractLsb' 0 4).toNat by omega),
        if_neg (show ¬ s.ibufLen.toNat < 5 + L by omega)]
      rfl

/-- Success, in one line: exec answers the completed state exactly where the command computes it. -/
theorem exec_success {i : Instr} {s u : State} (h : exec i s = .next u) (he : u.err = 0#8) :
    ∃ t, Computes s i t ∧ u = t.complete := by
  rw [exec_eq] at h
  obtain ⟨t, ht, rfl⟩ := finish_next_ok h he
  exact ⟨t, body_ok.1 ht, rfl⟩

theorem exec_of_computes {i : Instr} {s t : State} (h : Computes s i t) : exec i s = .next t.complete := by
  rw [exec_eq, body_ok.2 h, finish_ok]

theorem exec_cases {i : Instr} {s u : State} (h : exec i s = .next u) :
    (∃ t, Computes s i t ∧ u = t.complete)
      ∨ ∃ e info, body i s = .error (.err e info) ∧ u = s.raise (some i) e info := by
  rw [exec_eq] at h
  rcases finish_next h with ⟨t, ht, rfl⟩ | h
  · exact .inl ⟨t, body_ok.1 ht, rfl⟩
  · exact .inr h

end Sys2Proof.Machine
end

