-- ==== Sys2Proof/Laws/Paths.lean ====
section
/-! SUPPORT. Codes as paths: what descending from the root meets, and that the codes of a proper tree are the paths
to its leaves (rules R53, R55, R120, R180). -/

namespace Sys2Proof.Machine

/-- Descending a held tree: the code of a leaf is the path to it, after the path that led to the tree. -/
theorem Shape.mem_paths_iff {N : List Node} {t : ITree} (h : t.Holds N) {q p : BitString} {x : Byte} :
    (x.toNat, q ++ p) ∈ t.shape.paths q ↔ ∃ w, descend N t.idx p = some (.leaf x w) := by
  induction t generalizing q p with
  | leaf i y w =>
    have hn := nodeAt_of_getElem? h
    simp only [ITree.shape, Shape.paths, List.mem_singleton, Prod.mk.injEq, ITree.idx_leaf]
    constructor
    · rintro ⟨hx, hp⟩
      have hp : p = [] := by simpa using hp
      have hx : x = y := BitVec.eq_of_toNat_eq hx
      subst hp hx
      exact ⟨w, by simp [descend, hn]⟩
    · rintro ⟨w', hd⟩
      cases p with
      | nil => simp only [descend, hn, Option.some.injEq, Node.leaf.injEq] at hd; simp [hd.1]
      | cons b p => simp [descend, hn] at hd
  | node i w l r ihl ihr =>
    have hn := nodeAt_of_getElem? h.1
    simp only [ITree.shape, Shape.paths, List.mem_append, ITree.idx_node]
    cases p with
    | nil =>
      simp only [List.append_nil, descend, hn, Option.some.injEq, reduceCtorEq, exists_false, iff_false, not_or]
      constructor <;> (intro hm; have := (Shape.paths_length hm).1; simp at this)
    | cons b p =>
      have hl : ∀ (u : ITree) (c : Bool), (x.toNat, q ++ b :: p) ∈ u.shape.paths (q ++ [c]) → b = c := by
        intro u c hm
        have pre : ∀ (u : Shape) (q' : BitString) (e : Nat × BitString), e ∈ u.paths q' → q' <+: e.2 := by
          intro u
          induction u with
          | leaf y => intro q' e he; simp only [Shape.paths, List.mem_singleton] at he; subst he; exact List.prefix_refl _
          | node l r ihl ihr =>
            intro q' e he
            simp only [Shape.paths, List.mem_append] at he
            rcases he with he | he
            · exact (List.prefix_append _ _).trans (ihl _ _ he)
            · exact (List.prefix_append _ _).trans (ihr _ _ he)
        obtain ⟨s, hs⟩ := pre _ _ _ hm
        simp only [List.append_assoc, List.append_cancel_left_eq] at hs
        simp at hs
        exact hs.1.symm
      have e : q ++ b :: p = (q ++ [b]) ++ p := by simp
      simp only [descend, hn]
      constructor
      · rintro (hm | hm)
        · have hb := hl l false hm
          subst hb
          rw [e] at hm
          simpa using (ihl h.2.1).1 hm
        · have hb := hl r true hm
          subst hb
          rw [e] at hm
          simpa using (ihr h.2.2).1 hm
      · intro hd
        cases b with
        | false => left; rw [e]; exact (ihl h.2.1).2 (by simpa using hd)
        | true => right; rw [e]; exact (ihr h.2.2).2 (by simpa using hd)

/-- Rules R120 and R180 for a proper tree whose root is Internal: the codes are the paths to the leaves. -/
theorem ProperTree.code_iff_descend {N : List Node} {r : BitVec 9} (h : ProperTree N r) (hi : internalAt N r)
    (x : Byte) (p : BitString) :
    Table.lookup (deriveCodes N r) x.toNat = some p ↔ ∃ w, descend N r p = some (.leaf x w) := by
  obtain ⟨t, rfl, hh, hp, hn, hc, h256⟩ := h.holds
  have hd : t.shape.depth ≤ Config.maxNodes := by have := t.shape.depth_le; unfold Config.maxNodes; omega
  rw [deriveCodes, codeEntries_eq hh hd, lookup_codeTable]
  · cases t with
    | leaf i y w =>
      obtain ⟨w', l', r', hi⟩ := hi
      have := hh.symm.trans hi
      simp at this
    | node i w l r =>
      have := Shape.mem_paths_iff (q := []) (p := p) (x := x) hh
      simpa [ITree.shape, Shape.codeEntries] using this
  · rw [Shape.codeEntries_letters]
    exact List.Nodup.map (fun a b => BitVec.eq_of_toNat_eq) hn

/-- The code of a one-leaf tree (rule R175). -/
theorem ProperTree.code_leaf {N : List Node} {r : BitVec 9} {y : Byte} {w : BitVec 72}
    (hi : N[r.toNat]? = some (.leaf y w)) : deriveCodes N r = [(y.toNat, [false])] := by
  simp [deriveCodes, codeEntries, nodeAt_of_getElem? hi, codeTable, Table.insert]

theorem nodeAt_internal {N : List Node} {i : BitVec 9} {w : BitVec 72} {l r : BitVec 9}
    (h : nodeAt N i = .internal w l r) : N[i.toNat]? = some (.internal w l r) := by
  simp only [nodeAt, List.getD_eq_getElem?_getD] at h
  cases hN : N[i.toNat]? with
  | none => rw [hN] at h; cases h
  | some n => rw [hN] at h; exact congrArg some h

/-! ### The decode loop on a path -/

theorem State.unpack_append (s : State) (c : BitVec 9) (a b : BitString) :
    s.unpack c (a ++ b)
      = ((s.unpack (s.unpack c a).1 b).1, (s.unpack c a).2 ++ (s.unpack (s.unpack c a).1 b).2) := by
  induction a generalizing c with
  | nil => simp [State.unpack]
  | cons x a ih =>
    simp only [List.cons_append, State.unpack]
    split
    · simp [ih]
    · exact ih _

/-- The bits of a path to a leaf, from an Internal node, emit its letter and leave the cursor at the root. -/
theorem State.unpack_path (s : State) (c : BitVec 9) (b : Bool) (p : BitString) (x : Byte) (w : BitVec 72)
    (h : descend s.nodes c (b :: p) = some (.leaf x w)) : s.unpack c (b :: p) = (s.root, [x]) := by
  induction p generalizing c b with
  | nil =>
    simp only [descend] at h
    split at h
    · cases h
    · rename_i w' l r hc
      simp only [Option.some.injEq] at h
      simp only [State.unpack, hc, Node.right, Node.left]
      cases b <;> simp_all
  | cons b' p ih =>
    rw [descend] at h
    split at h
    · cases h
    · rename_i w' l r hc
      have hd := h
      rw [descend] at hd
      split at hd
      · cases hd
      · rename_i w2 l2 r2 hc2
        have e : (if b = true then (nodeAt s.nodes c).right else (nodeAt s.nodes c).left) = if b = true then r else l := by
          rw [hc]; rfl
        rw [State.unpack, e]
        simp only [hc2]
        exact ih _ _ h

end Sys2Proof.Machine
end

