-- ==== Sys2Proof/Laws/Chunks.lean ====
section
/-! SUPPORT. Chunks: what ECHUNK collects from a loaded chunk and what DCHUNK decodes of it, in the words of the
claims (rules R241, R243, R271 to R274, R277, R384). -/

namespace Sys2Proof.Machine

/-! ### Reading a loaded chunk -/

/-- The bytes xs stand in the buffer from index j on. -/
def Stands (m : Memory) (j : Nat) (xs : List Byte) : Prop :=
  ∀ i, (h : i < xs.length) → Memory.read m (j + i) = some xs[i]

theorem Stands.cons {m : Memory} {j : Nat} {x : Byte} {xs : List Byte} :
    Stands m j (x :: xs) ↔ Memory.read m j = some x ∧ Stands m (j + 1) xs := by
  constructor
  · intro h
    refine ⟨h 0 (Nat.succ_pos _), fun i hi => ?_⟩
    have := h (i + 1) (by simpa using hi)
    rw [show j + 1 + i = j + (i + 1) by omega, this]; simp
  · rintro ⟨h0, h⟩ i hi
    cases i with
    | zero => simpa using h0
    | succ i =>
      have := h i (by simpa using hi)
      rw [show j + (i + 1) = j + 1 + i by omega, this]; simp

theorem State.Loaded.stands {s : State} {bs : List Byte} (h : s.Loaded bs) : Stands s.ibuf 0 bs := by
  intro i hi; rw [Nat.zero_add]; exact h.2.2 i hi

theorem State.Loaded.notTooLong {s : State} {bs : List Byte} (h : s.Loaded bs) : ibufTooLong s = false := by
  rw [ibufTooLong_eq_false, h.1]; exact h.2.1

theorem State.WrittenUpTo.stands {s : State} {bs : List Byte} (h : s.WrittenUpTo bs) : Stands s.ibuf 0 bs := by
  intro i hi; rw [Nat.zero_add]; exact h.written i hi

theorem State.WrittenUpTo.notTooLong {s : State} {bs : List Byte} (h : s.WrittenUpTo bs) : ibufTooLong s = false := by
  rw [ibufTooLong_eq_false]; exact h.fits

theorem State.Loaded.covered {s : State} {bs : List Byte} (h : s.Loaded bs) : s.Covered := by
  intro j hj
  rw [h.1] at hj
  exact ⟨_, h.2.2 j hj⟩

/-- Bit i of a loaded chunk. -/
theorem bitAt_stands {m : Memory} {j : Nat} {xs : List Byte} (h : Stands m j xs) (i : Nat)
    (hi : i < (bitsOf xs).length) : bitAt m (8 * j + i) = some (bitsOf xs)[i] := by
  rw [length_bitsOf] at hi
  have hq : i / 8 < xs.length := by omega
  have hg := getElem?_bitsOf xs i
  rw [List.getElem?_eq_getElem (by rw [length_bitsOf]; exact hi), List.getElem?_eq_getElem hq] at hg
  rw [bitAt, show (8 * j + i) / 8 = j + i / 8 by omega, h _ hq, show (8 * j + i) % 8 = i % 8 by omega, hg]

/-- The parser takes the first n bits of the bytes that stand in the buffer. -/
theorem takes_bitsOf {m : Memory} {off nbits n : Nat} {bs : List Byte} (h : Stands m off bs) (hn : n ≤ nbits) :
    Takes m off nbits 0 ((bitsOf bs).take n) := by
  refine takes_of_bitAt (by simp only [List.length_take]; omega) fun i hi => ?_
  simp only [List.length_take] at hi
  rw [List.getElem_take]; exact bitAt_stands h i (by omega)

/-- Taking a bit of a byte that holds no value is the model fault that names the byte (rules R56, R348). -/
theorem takeBit_unwritten {m : Memory} {off nbits j : Nat} (h : Memory.read m (off + j) = none) (hj : 8 * j < nbits) :
    takeBit m off nbits (8 * j) = .error (.fault (.ibufByteUnwritten (off + j))) := by
  simp [takeBit, hj, ibufBit, bitAt, show (8 * off + 8 * j) / 8 = off + j by omega, h]

/-! ### The codes of a chunk -/

theorem codesOf_append (s : State) (xs ys : List Byte) :
    codesOf s (xs ++ ys) = (codesOf s xs).bind fun a => (codesOf s ys).map fun b => a ++ b := by
  induction xs with
  | nil => simp [codesOf]
  | cons x xs ih =>
    simp only [List.cons_append, codesOf, ih]
    cases s.code x.toNat <;> cases codesOf s xs <;> cases codesOf s ys <;> simp

theorem chunkCodes_of_stands {s : State} {xs : List Byte} {j : Nat} {cs : BitString} (h : Stands s.ibuf j xs)
    (hc : codesOf s xs = some cs) : chunkCodes s xs.length j = .ok cs := by
  induction xs generalizing j cs with
  | nil => simp only [codesOf, Option.some.injEq] at hc; subst hc; rfl
  | cons x xs ih =>
    rw [Stands.cons] at h
    simp only [codesOf] at hc
    cases hx : s.code x.toNat with
    | none => rw [hx] at hc; cases hc
    | some c =>
      rw [hx] at hc
      cases hxs : codesOf s xs with
      | none => rw [hxs] at hc; cases hc
      | some ds =>
        rw [hxs] at hc
        simp only [Option.some.injEq] at hc
        subst hc
        simp [chunkCodes, ibufByte, h.1, hx, ih h.2 hxs]

/-- What ECHUNK has collected, where it succeeds, is the codes of the letters that stand in IBUF. -/
theorem chunkCodes_ok {s : State} {k j : Nat} {cs : BitString} (h : chunkCodes s k j = .ok cs) :
    ∃ xs : List Byte, xs.length = k ∧ Stands s.ibuf j xs ∧ codesOf s xs = some cs := by
  induction k generalizing j cs with
  | zero => cases h; exact ⟨[], rfl, fun i hi => by simp at hi, rfl⟩
  | succ k ih =>
    simp only [chunkCodes, ibufByte] at h
    split at h
    · cases h
    · rename_i x hx
      split at hx
      · rename_i b hb
        cases hx
        split at h
        · cases h
        · rename_i c hc
          split at h
          · cases h
          · rename_i ds hd
            cases h
            obtain ⟨xs, hl, hs, hxs⟩ := ih hd
            exact ⟨x :: xs, by simp [hl], Stands.cons.2 ⟨hb, hs⟩, by simp [codesOf, hc, hxs]⟩
      · cases hx

/-- The first letter without a code stops the chunk (rule R244). -/
theorem chunkCodes_missing {s : State} {xs ys : List Byte} {x : Byte} {j : Nat} {cs : BitString}
    (h : Stands s.ibuf j (xs ++ x :: ys)) (hc : codesOf s xs = some cs) (hx : s.code x.toNat = none) :
    chunkCodes s (xs ++ x :: ys).length j = .error (.err .missingCode (detail x.toNat (j + xs.length))) := by
  induction xs generalizing j cs with
  | nil =>
    rw [List.nil_append, Stands.cons] at h
    simp [chunkCodes, ibufByte, h.1, hx]
  | cons y xs ih =>
    rw [List.cons_append, Stands.cons] at h
    simp only [codesOf] at hc
    cases hy : s.code y.toNat with
    | none => rw [hy] at hc; cases hc
    | some c =>
      rw [hy] at hc
      cases hxs : codesOf s xs with
      | none => rw [hxs] at hc; cases hc
      | some ds =>
        have := ih h.2 hxs
        simp only [List.cons_append, List.length_cons, chunkCodes, ibufByte, h.1, hy, this]
        rw [show j + 1 + xs.length = j + (xs.length + 1) by omega]

/-- The first byte that holds no value stops the chunk, if every letter before it has a code (rule R56). -/
theorem chunkCodes_unwritten {s : State} {xs : List Byte} {k j : Nat} {cs : BitString} (h : Stands s.ibuf j xs)
    (hc : codesOf s xs = some cs) (hu : Memory.read s.ibuf (j + xs.length) = none) (hk : xs.length < k) :
    chunkCodes s k j = .error (.fault (.ibufByteUnwritten (j + xs.length))) := by
  induction xs generalizing k j cs with
  | nil =>
    obtain ⟨k, rfl⟩ : ∃ n, k = n + 1 := ⟨k - 1, by simp at hk; omega⟩
    simp only [List.length_nil, Nat.add_zero] at hu
    simp [chunkCodes, ibufByte, hu]
  | cons x xs ih =>
    obtain ⟨k, rfl⟩ : ∃ n, k = n + 1 := ⟨k - 1, by simp at hk; omega⟩
    rw [Stands.cons] at h
    simp only [codesOf] at hc
    cases hx : s.code x.toNat with
    | none => rw [hx] at hc; cases hc
    | some c =>
      rw [hx] at hc
      cases hxs : codesOf s xs with
      | none => rw [hxs] at hc; cases hc
      | some ds =>
        have hj : j + 1 + xs.length = j + (xs.length + 1) := by omega
        have := ih (k := k) h.2 hxs (by rw [hj]; exact hu) (by simpa using hk)
        simp only [List.length_cons, chunkCodes, ibufByte, h.1, hx, this, hj]

theorem codesOf_length_le {s : State} (hl : ∀ x c, s.code x = some c → c.length ≤ 255) {xs : List Byte}
    {cs : BitString} (h : codesOf s xs = some cs) : cs.length ≤ 255 * xs.length := by
  induction xs generalizing cs with
  | nil => simp only [codesOf, Option.some.injEq] at h; subst h; simp
  | cons x xs ih =>
    simp only [codesOf] at h
    cases hx : s.code x.toNat with
    | none => rw [hx] at h; cases h
    | some c =>
      rw [hx] at h
      cases hxs : codesOf s xs with
      | none => rw [hxs] at h; cases h
      | some ds =>
        rw [hxs] at h
        simp only [Option.some.injEq] at h
        subst h
        have := hl _ _ hx
        have := ih hxs
        simp only [List.length_append, List.length_cons]; omega

/-! ### Packing a chunk -/

theorem length_leftover (bs : BitString) : (leftover bs).length = bs.length % 8 := by
  simp only [leftover, List.length_drop]; omega

theorem length_pendingBits (s : State) : s.pendingBits.length = s.pendBits.toNat := by
  have := s.pendBits.isLt
  simp only [State.pendingBits, List.length_take, length_bits8]; omega

/-- The whole bytes and the last, zero-padded one are the bits packed at once. -/
theorem wholeBytes_append_leftover (bs : BitString) : wholeBytes bs ++ pack (leftover bs) = pack bs := by
  unfold wholeBytes leftover
  rw [← pack_append (by simp only [List.length_take]; omega), List.take_append_drop]

theorem pack_eq_singleton {r : BitString} (h0 : r ≠ []) (h : r.length < 8) : pack r = [msbWord 8 r] := by
  have hl := List.length_pos_of_ne_nil h0
  have e : (r.length + 7) / 8 = 1 := by omega
  simp [pack, e]

/-- The pending byte, as the one byte of the leftover bits packed, or 0. -/
theorem msbWord_eq_headD {r : BitString} (h : r.length < 8) : msbWord 8 r = (pack r).headD 0#8 := by
  cases r with
  | nil => rfl
  | cons b r => rw [pack_eq_singleton (by simp) h]; rfl

/-! ### Decoding a chunk -/

theorem decodeBits_internal {s : State} (hi : internalAt s.nodes s.root) {bits : BitString} {i : Nat} {c : BitVec 9}
    (h : ∀ k, (hk : k < bits.length) → bitAt s.ibuf (i + k) = some bits[k]) :
    decodeBits s bits.length i c = .ok (s.unpack c bits) := by
  obtain ⟨w, l, r, hr⟩ := hi
  have hroot := nodeAt_of_getElem? hr
  induction bits generalizing i c with
  | nil => rfl
  | cons b bits ih =>
    have h0 : bitAt s.ibuf i = some b := h 0 (Nat.succ_pos _)
    have ht : ∀ k, (hk : k < bits.length) → bitAt s.ibuf (i + 1 + k) = some bits[k] := by
      intro k hk
      have := h (k + 1) (by simpa using hk)
      rw [show i + 1 + k = i + (k + 1) by omega, this]; simp
    simp only [List.length_cons, decodeBits, ibufBit, h0, decodeBit, hroot, cursorStep, State.unpack]
    cases hd : nodeAt s.nodes (if b = true then (nodeAt s.nodes c).right else (nodeAt s.nodes c).left) with
    | leaf x w => simp only [ih ht]; rfl
    | internal w l r => simp only [ih ht]; rfl

theorem decodeBits_leaf {s : State} {x : Byte} {w : BitVec 72} (hx : s.nodes[s.root.toNat]? = some (.leaf x w))
    {n i : Nat} {c : BitVec 9} (h : ∀ k, k < n → bitAt s.ibuf (i + k) = some false) :
    decodeBits s n i c = .ok (c, List.replicate n x) := by
  have hroot := nodeAt_of_getElem? hx
  induction n generalizing i with
  | zero => rfl
  | succ n ih =>
    have h0 : bitAt s.ibuf i = some false := h 0 (by omega)
    have := ih (i := i + 1) (fun k hk => by rw [show i + 1 + k = i + (k + 1) by omega]; exact h _ (by omega))
    simp only [decodeBits, ibufBit, h0, decodeBit, hroot]
    simp only [Bool.false_eq_true, if_false, this, List.replicate_succ]
    rfl

theorem decodeBits_leaf_one {s : State} {x : Byte} {w : BitVec 72} (hx : s.nodes[s.root.toNat]? = some (.leaf x w))
    {n m i : Nat} {c : BitVec 9} (h : ∀ k, k < n → bitAt s.ibuf (i + k) = some false)
    (h1 : bitAt s.ibuf (i + n) = some true) :
    decodeBits s (n + 1 + m) i c = .error (.err .dataMalformed (detail 2 (i + n))) := by
  have hroot := nodeAt_of_getElem? hx
  induction n generalizing i with
  | zero =>
    rw [show 0 + 1 + m = m + 1 by omega]
    simp only [Nat.add_zero] at h1
    simp [decodeBits, ibufBit, h1, decodeBit, hroot]
  | succ n ih =>
    have h0 : bitAt s.ibuf i = some false := h 0 (by omega)
    have := ih (i := i + 1) (fun k hk => by rw [show i + 1 + k = i + (k + 1) by omega]; exact h _ (by omega))
      (by rw [show i + 1 + n = i + (n + 1) by omega]; exact h1)
    rw [show n + 1 + 1 + m = (n + 1 + m) + 1 by omega]
    simp only [decodeBits, ibufBit, h0, decodeBit, hroot]
    simp only [Bool.false_eq_true, if_false, this]
    rw [show i + 1 + n = i + (n + 1) by omega]

/-- Decoding stops where a bit does, if the bits before it decode. -/
theorem decodeBits_stop {s : State} {e : Stop} {n k i : Nat} {c c' : BitVec 9} {out : List Byte}
    (h : decodeBits s n i c = .ok (c', out)) (he : ibufBit s.ibuf (i + n) = .error e) (hk : n < k) :
    decodeBits s k i c = .error e := by
  induction n generalizing k i c c' out with
  | zero =>
    obtain ⟨k, rfl⟩ : ∃ n, k = n + 1 := ⟨k - 1, by omega⟩
    rw [Nat.add_zero] at he
    simp [decodeBits, he]
  | succ n ih =>
    obtain ⟨k, rfl⟩ : ∃ n, k = n + 1 := ⟨k - 1, by omega⟩
    simp only [decodeBits] at h
    split at h
    · cases h
    · rename_i b hb
      split at h
      · cases h
      · rename_i c1 xs hd
        split at h
        · cases h
        · rename_i c2 ys hr
          have := ih (k := k) hr (by rw [← he]; congr 1; omega) (by omega)
          simp [decodeBits, hb, hd, this]

theorem decodeBits_ok {s : State} {n i : Nat} {c c' : BitVec 9} {out : List Byte}
    (h : decodeBits s n i c = .ok (c', out)) :
    out.length ≤ n ∧ (c' = c ∨ c' = s.root ∨ internalAt s.nodes c') := by
  induction n generalizing i c out with
  | zero => cases h; exact ⟨Nat.le_refl _, .inl rfl⟩
  | succ n ih =>
    simp only [decodeBits] at h
    split at h
    · cases h
    · split at h
      · cases h
      · rename_i c1 xs hd
        split at h
        · cases h
        · rename_i c2 ys hr
          cases h
          obtain ⟨hlen, hc⟩ := ih hr
          have hd' : xs.length ≤ 1 ∧ (c1 = c ∨ c1 = s.root ∨ internalAt s.nodes c1) := by
            unfold decodeBit at hd
            split at hd
            · split at hd
              · cases hd
              · cases hd; exact ⟨Nat.le_refl _, .inl rfl⟩
            · unfold cursorStep at hd
              dsimp only at hd
              split at hd
              · cases hd; exact ⟨Nat.le_refl _, .inr (.inl rfl)⟩
              · rename_i w l r hn
                cases hd
                exact ⟨Nat.zero_le _, .inr (.inr ⟨w, l, r, nodeAt_internal hn⟩)⟩
          refine ⟨by simp only [List.length_append]; omega, ?_⟩
          rcases hc with rfl | hc
          · exact hd'.2
          · exact .inr hc

theorem chunkBits_eq {bs : List Byte} {l : Bool} {dpad : Nat} :
    chunkBits bs.length l dpad = (dataBits bs l dpad).length := by
  unfold chunkBits dataBits
  cases l with
  | false => simp [length_bitsOf]
  | true =>
    cases bs with
    | nil => simp [bitsOf]
    | cons b bs => simp [length_bitsOf]

theorem bitAt_dataBits {s : State} {bs : List Byte} (h : s.Loaded bs) {l : Bool} {dpad k : Nat}
    (hk : k < (dataBits bs l dpad).length) : bitAt s.ibuf (0 + k) = some (dataBits bs l dpad)[k] := by
  have hall := bitAt_stands h.stands
  unfold dataBits at hk ⊢
  split
  · rename_i hc
    rw [if_pos hc] at hk
    simp only [List.length_take] at hk
    rw [List.getElem_take]
    simpa using hall k (by omega)
  · rename_i hc
    rw [if_neg hc] at hk
    simpa using hall k hk

/-! ### Bytes past IBUF_LEN -/

theorem ibufBit_congr {m m' : Memory} {n i : Nat} (h : ∀ j, j < n → Memory.read m j = Memory.read m' j)
    (hi : i < 8 * n) : ibufBit m i = ibufBit m' i := by
  unfold ibufBit bitAt
  rw [h (i / 8) (by omega)]

theorem chunkCodes_congr {s t : State} {n : Nat} (h : ∀ j, j < n → Memory.read s.ibuf j = Memory.read t.ibuf j)
    (hc : s.codes = t.codes) (k j : Nat) (hk : j + k ≤ n) : chunkCodes s k j = chunkCodes t k j := by
  induction k generalizing j with
  | zero => rfl
  | succ k ih => simp only [chunkCodes, ibufByte, State.code, hc, h j (by omega), ih (j + 1) (by omega)]

theorem decodeBits_congr {s t : State} {n : Nat} (h : ∀ j, j < n → Memory.read s.ibuf j = Memory.read t.ibuf j)
    (hn : s.nodes = t.nodes) (hr : s.root = t.root) (k i : Nat) (c : BitVec 9) (hk : i + k ≤ 8 * n) :
    decodeBits s k i c = decodeBits t k i c := by
  induction k generalizing i c with
  | zero => rfl
  | succ k ih =>
    have := ibufBit_congr h (i := i) (by omega)
    have e : ∀ i c b, decodeBit s i c b = decodeBit t i c b := by
      intro i c b; simp only [decodeBit, cursorStep, hn, hr]
    simp only [decodeBits, this, e]
    congr 1
    funext b
    cases hd : decodeBit t i c b with
    | error e => rfl
    | ok p => simp only [ih (i + 1) p.1 (by omega)]

theorem parseNode_congr {m m' : Memory} {n off nbits : Nat} (h : ∀ j, j < n → Memory.read m j = Memory.read m' j)
    (hn : 8 * off + nbits ≤ 8 * n) (f pos : Nat) (seen : List Byte) :
    parseNode m off nbits f pos seen = parseNode m' off nbits f pos seen := by
  have hb : ∀ pos, takeBit m off nbits pos = takeBit m' off nbits pos := by
    intro pos
    unfold takeBit
    split
    · exact ibufBit_congr h (by omega)
    · rfl
  have hx : ∀ k pos x, takeNumber m off nbits k pos x = takeNumber m' off nbits k pos x := by
    intro k
    induction k with
    | zero => intro pos x; rfl
    | succ k ih => intro pos x; simp only [takeNumber, hb, ih]
  induction f generalizing pos seen with
  | zero => rfl
  | succ f ih => simp only [parseNode, hb, hx, ih]

theorem parseTree_congr {m m' : Memory} {n off nbits : Nat} (h : ∀ j, j < n → Memory.read m j = Memory.read m' j)
    (hn : 8 * off + nbits ≤ 8 * n) : parseTree m off nbits = parseTree m' off nbits := by
  simp only [parseTree, parseNode_congr h hn]

end Sys2Proof.Machine
end

