-- ==== Sys2Proof/Laws/HostProgram.lean ====
section
/-! SUPPORT. The expansions of host statements: their lengths, the lane order of a word, and the words obuf reads. -/

namespace Sys2Proof.Machine

@[simp] theorem length_waitEvents (k : Nat) : (waitEvents k).length = k + 2 := by simp [waitEvents]

@[simp] theorem Stmt.events_basic (n k : Nat) (b : Basic) : (Stmt.basic b).events n k = b.events k := by
  simp [Stmt.events, Stmt.expand]

theorem Stmt.events_run (n k : Nat) (i : Instr) :
    (Stmt.run i).events n k = .busWrite 0x014 4 (Sys2Proof.encode i) :: waitEvents k := by
  simp [Stmt.events, Stmt.expand, runBasics, Basic.events]

theorem Stmt.events_encode (n k : Nat) :
    Stmt.encode.events n k = (Stmt.run .estart).events n k ++ (Stmt.run (.echunk true)).events n k := by
  simp [Stmt.events, Stmt.expand]

theorem Stmt.events_decode (n k p : Nat) :
    (Stmt.decode p).events n k = (Stmt.run .dstart).events n k ++ (Stmt.run (.dchunk true p)).events n k := by
  simp [Stmt.events, Stmt.expand]

/-- A word made of four bytes in the lane order of rule R83 gives them back in that order. -/
@[simp] theorem laneBytes_append (b3 b2 b1 b0 : Byte) : laneBytes (b3 ++ b2 ++ b1 ++ b0) = [b0, b1, b2, b3] := by
  simp only [laneBytes, List.cons.injEq, and_true]
  refine ⟨?_, ?_, ?_, ?_⟩ <;>
    · ext i hi
      simp only [BitVec.getElem_extractLsb', BitVec.getLsbD_append]
      repeat' split
      all_goals first | omega | (rw [← BitVec.getLsbD_eq_getElem]; congr 1; omega)

/-- The lane bytes of word j of a byte string are its bytes 4j to 4j + 3, with 0x00 past its end. -/
theorem laneBytes_laneWord (bs : List Byte) (j : Nat) :
    laneBytes (laneWord bs j) = (List.range 4).map fun lane => bs.getD (4 * j + lane) 0#8 := by
  rw [laneWord, laneBytes_append]
  rfl

/-- Reads that returned the words, in this order, are the host's last reads. -/
theorem State.lastReads_append (s : State) (words : List Word) :
    { s with hostReads := words.reverse ++ s.hostReads }.lastReads words.length = words := by
  simp [State.lastReads]

end Sys2Proof.Machine
end

