-- ==== Sys2Proof/Laws/PerInstr.lean ====
section
/-! SUPPORT. One lemma per command: the word of a well-formed command selects the command's own row of the opcode
map (rule R116). -/

namespace Sys2Proof.Laws.Encoding

/-- The command's row number in the opcode map, which is its opcode (rule R116). -/
def rowNumber : Instr → Nat
  | .nop => 0x00
  | .sreset => 0x01
  | .wclr => 0x02
  | .build => 0x03
  | .lookup _ => 0x04
  | .tser => 0x05
  | .tdes _ _ => 0x06
  | .estart => 0x07
  | .echunk _ => 0x08
  | .dstart => 0x09
  | .dchunk _ _ => 0x0A
  | .hbuild => 0x0B
  | .hparse => 0x0C

/-- The word of a well-formed command selects the command's own row. -/
def Statement (i : Instr) : Prop :=
  i.wellFormed = true → ∃ r, opTable[rowNumber i]? = some r ∧ encode i &&& r.mask = r.matchBits

theorem nop : Statement .nop := fun _ => ⟨_, rfl, rfl⟩

theorem sreset : Statement .sreset := fun _ => ⟨_, rfl, rfl⟩

theorem wclr : Statement .wclr := fun _ => ⟨_, rfl, rfl⟩

theorem build : Statement .build := fun _ => ⟨_, rfl, rfl⟩

theorem lookup (x : Nat) : Statement (.lookup x) := by
  intro h
  have h : x < 256 := by simpa [Instr.wellFormed] using h
  have all : ∀ a b : Fin 16, encode (.lookup (16 * a.val + b.val)) &&& 0xFFFF00FF#32 = 0x00000004#32 := by
    decide
  refine ⟨_, rfl, ?_⟩
  have := all ⟨x / 16, by omega⟩ ⟨x % 16, by omega⟩
  rwa [show 16 * (x / 16) + x % 16 = x by omega] at this

theorem tser : Statement .tser := fun _ => ⟨_, rfl, rfl⟩

theorem tdes (tpad lw : Nat) : Statement (.tdes tpad lw) := by
  intro h
  have h : tpad < 8 ∧ lw < 16 := by simpa [Instr.wellFormed] using h
  have all : ∀ (p : Fin 8) (n : Fin 16), encode (.tdes p.val n.val) &&& 0xFF01FFFF#32 = 0x00000006#32 := by
    decide
  exact ⟨_, rfl, all ⟨tpad, h.1⟩ ⟨lw, h.2⟩⟩

theorem estart : Statement .estart := fun _ => ⟨_, rfl, rfl⟩

theorem echunk (f : Bool) : Statement (.echunk f) := by
  intro _
  cases f <;> exact ⟨_, rfl, rfl⟩

theorem dstart : Statement .dstart := fun _ => ⟨_, rfl, rfl⟩

theorem dchunk (l : Bool) (dpad : Nat) : Statement (.dchunk l dpad) := by
  intro h
  have h : dpad < 8 := by simpa [Instr.wellFormed] using h
  have all : ∀ (b : Bool) (p : Fin 8), encode (.dchunk b p.val) &&& 0xFFF0FFFF#32 = 0x0000000A#32 := by
    decide
  exact ⟨_, rfl, all l ⟨dpad, h⟩⟩

theorem hbuild : Statement .hbuild := fun _ => ⟨_, rfl, rfl⟩

theorem hparse : Statement .hparse := fun _ => ⟨_, rfl, rfl⟩

end Sys2Proof.Laws.Encoding
end

