-- ==== Sys2Proof/Laws/Stops.lean ====
section
/-! SUPPORT. How a command can fail: the errors it can raise (rule R331), and that a model fault names an IBUF byte
below IBUF_LEN that holds no value (rules R56, R348). -/

namespace Sys2Proof.Machine

/-- The stop is an error among es, or a fault at a byte of m below n that holds no value. -/
def StopIn (es : List ErrCode) (m : Memory) (n : Nat) : Stop → Prop
  | .err e _ => e ∈ es
  | .fault (.ibufByteUnwritten j) => j < n ∧ Memory.read m j = none

theorem StopIn.mono {es fs : List ErrCode} {m : Memory} {n : Nat} {e : Stop} (h : StopIn es m n e)
    (hs : ∀ x ∈ es, x ∈ fs) : StopIn fs m n e := by
  match e, h with
  | .err _ _, h => exact hs _ h
  | .fault (.ibufByteUnwritten _), h => exact h

/-- The errors of a parse, rules R222, R223, R225. -/
def parseErrors : List ErrCode := [.treeFormatTooSmall, .treeFormatTooLarge, .treeFormatDuplicate]

theorem ibufByte_error {m : Memory} {j n : Nat} {e : Stop} (hj : j < n) (h : ibufByte m j = .error e) :
    StopIn [] m n e := by
  unfold ibufByte at h
  split at h
  · cases h
  · rename_i hr; cases h; exact ⟨hj, hr⟩

theorem ibufBit_error {m : Memory} {i n : Nat} {e : Stop} (hi : i < 8 * n) (h : ibufBit m i = .error e) :
    StopIn [] m n e := by
  unfold ibufBit bitAt at h
  split at h
  · cases h
  · rename_i hr
    cases h
    exact ⟨by omega, by simpa using hr⟩

section Parse
variable {m : Memory} {off nbits n : Nat} {e : Stop} (hn : 8 * off + nbits ≤ 8 * n)
include hn

theorem takeBit_error {pos : Nat} (h : takeBit m off nbits pos = .error e) : StopIn parseErrors m n e := by
  unfold takeBit at h
  split at h
  · exact (ibufBit_error (by omega) h).mono (by simp)
  · cases h; simp [StopIn, parseErrors]

theorem takeNumber_error {k pos x : Nat} (h : takeNumber m off nbits k pos x = .error e) :
    StopIn parseErrors m n e := by
  induction k generalizing pos x with
  | zero => cases h
  | succ k ih =>
    simp only [takeNumber] at h
    split at h
    · rename_i hb; cases h; exact takeBit_error hn hb
    · exact ih h

theorem parseNode_error {f pos : Nat} {seen : List Byte} (h : parseNode m off nbits f pos seen = .error e) :
    StopIn parseErrors m n e := by
  induction f generalizing pos seen with
  | zero => cases h; simp [StopIn, parseErrors]
  | succ f ih =>
    simp only [parseNode] at h
    split at h
    · rename_i hb; cases h; exact takeBit_error hn hb
    · split at h
      · rename_i hl; cases h; exact ih hl
      · split at h
        · rename_i hr; cases h; exact ih hr
        · cases h
    · split at h
      · rename_i hx; cases h; exact takeNumber_error hn hx
      · split at h
        · cases h; simp [StopIn, parseErrors]
        · cases h

theorem parseTree_error (h : parseTree m off nbits = .error e) : StopIn parseErrors m n e := by
  unfold parseTree at h
  split at h
  · rename_i hp; cases h; exact parseNode_error hn hp
  · split at h
    · cases h
    · cases h; simp [StopIn, parseErrors]

end Parse

theorem chunkCodes_error {s : State} {k j n : Nat} {e : Stop} (hk : j + k ≤ n) (h : chunkCodes s k j = .error e) :
    StopIn [.missingCode] s.ibuf n e := by
  induction k generalizing j with
  | zero => cases h
  | succ k ih =>
    simp only [chunkCodes] at h
    split at h
    · rename_i hb; cases h; exact (ibufByte_error (by omega) hb).mono (by simp)
    · split at h
      · cases h; simp [StopIn]
      · split at h
        · rename_i hr; cases h; exact ih (by omega) hr
        · cases h

theorem decodeBit_error {s : State} {i n : Nat} {c : BitVec 9} {b : Bool} {e : Stop}
    (h : decodeBit s i c b = .error e) : StopIn [.dataMalformed] s.ibuf n e := by
  unfold decodeBit at h
  split at h
  · split at h
    · cases h; simp [StopIn]
    · cases h
  · cases h

theorem decodeBits_error {s : State} {k i n : Nat} {c : BitVec 9} {e : Stop} (hk : i + k ≤ 8 * n)
    (h : decodeBits s k i c = .error e) : StopIn [.dataMalformed] s.ibuf n e := by
  induction k generalizing i c with
  | zero => cases h
  | succ k ih =>
    simp only [decodeBits] at h
    split at h
    · rename_i hb; cases h; exact (ibufBit_error (by omega) hb).mono (by simp)
    · split at h
      · rename_i hd; cases h; exact decodeBit_error hd
      · split at h
        · rename_i hr; cases h; exact ih (by omega) hr
        · cases h

theorem readHeader_error {m : Memory} {n : Nat} {e : Stop} (hn : 5 ≤ n) (h : readHeader m = .error e) :
    StopIn [] m n e := by
  unfold readHeader at h
  cases h0 : ibufByte m 0 with
  | error e0 => simp only [h0, bind, Except.bind] at h; cases h; exact ibufByte_error (by omega) h0
  | ok b0 =>
    cases h1 : ibufByte m 1 with
    | error e0 => simp only [h0, h1, bind, Except.bind] at h; cases h; exact ibufByte_error (by omega) h1
    | ok b1 =>
      cases h2 : ibufByte m 2 with
      | error e0 => simp only [h0, h1, h2, bind, Except.bind] at h; cases h; exact ibufByte_error (by omega) h2
      | ok b2 =>
        cases h3 : ibufByte m 3 with
        | error e0 => simp only [h0, h1, h2, h3, bind, Except.bind] at h; cases h; exact ibufByte_error (by omega) h3
        | ok b3 =>
          cases h4 : ibufByte m 4 with
          | error e0 =>
            simp only [h0, h1, h2, h3, h4, bind, Except.bind] at h; cases h; exact ibufByte_error (by omega) h4
          | ok b4 => simp only [h0, h1, h2, h3, h4, bind, Except.bind, pure, Except.pure] at h; cases h

theorem readHeader_ok {m : Memory} {h b1 b2 b3 b4 : Byte} (h0 : Memory.read m 0 = some h)
    (h1 : Memory.read m 1 = some b1) (h2 : Memory.read m 2 = some b2) (h3 : Memory.read m 3 = some b3)
    (h4 : Memory.read m 4 = some b4) : readHeader m = .ok (h, be32 b1 b2 b3 b4) := by
  simp only [readHeader, ibufByte, h0, h1, h2, h3, h4, bind, Except.bind, pure, Except.pure]

/-- The first header byte that holds no value stops the header's read (rules R56, R303). -/
theorem readHeader_unwritten {m : Memory} {n : Nat} (hn : n < 5) (h : ∀ j, j < n → ∃ b, Memory.read m j = some b)
    (hu : Memory.read m n = none) : readHeader m = .error (.fault (.ibufByteUnwritten n)) := by
  have ok : ∀ j, j < n → ∃ b, ibufByte m j = .ok b := fun j hj => (h j hj).imp fun b hb => by simp [ibufByte, hb]
  have stop : ibufByte m n = .error (.fault (.ibufByteUnwritten n)) := by simp [ibufByte, hu]
  unfold readHeader
  match n, hn, ok, stop with
  | 0, _, _, e => simp [e, bind, Except.bind]
  | 1, _, ok, e =>
    obtain ⟨b0, e0⟩ := ok 0 (by omega)
    simp [e0, e, bind, Except.bind]
  | 2, _, ok, e =>
    obtain ⟨b0, e0⟩ := ok 0 (by omega)
    obtain ⟨b1, e1⟩ := ok 1 (by omega)
    simp [e0, e1, e, bind, Except.bind]
  | 3, _, ok, e =>
    obtain ⟨b0, e0⟩ := ok 0 (by omega)
    obtain ⟨b1, e1⟩ := ok 1 (by omega)
    obtain ⟨b2, e2⟩ := ok 2 (by omega)
    simp [e0, e1, e2, e, bind, Except.bind]
  | 4, _, ok, e =>
    obtain ⟨b0, e0⟩ := ok 0 (by omega)
    obtain ⟨b1, e1⟩ := ok 1 (by omega)
    obtain ⟨b2, e2⟩ := ok 2 (by omega)
    obtain ⟨b3, e3⟩ := ok 3 (by omega)
    simp [e0, e1, e2, e3, e, bind, Except.bind]

theorem readHeader_inv {m : Memory} {h : Byte} {L : Nat} (hr : readHeader m = .ok (h, L)) :
    ∃ b1 b2 b3 b4, Memory.read m 0 = some h ∧ Memory.read m 1 = some b1 ∧ Memory.read m 2 = some b2
      ∧ Memory.read m 3 = some b3 ∧ Memory.read m 4 = some b4 ∧ L = be32 b1 b2 b3 b4 := by
  unfold readHeader at hr
  have inv : ∀ j, (∃ b, ibufByte m j = .ok b ∧ Memory.read m j = some b) ∨ ∃ e, ibufByte m j = .error e := by
    intro j
    unfold ibufByte
    split
    · rename_i b hb; exact .inl ⟨b, rfl, hb⟩
    · exact .inr ⟨_, rfl⟩
  rcases inv 0 with ⟨b0, e0, r0⟩ | ⟨e, h0⟩
  · rcases inv 1 with ⟨b1, e1, r1⟩ | ⟨e, h1⟩
    · rcases inv 2 with ⟨b2, e2, r2⟩ | ⟨e, h2⟩
      · rcases inv 3 with ⟨b3, e3, r3⟩ | ⟨e, h3⟩
        · rcases inv 4 with ⟨b4, e4, r4⟩ | ⟨e, h4⟩
          · simp only [e0, e1, e2, e3, e4, bind, Except.bind, pure, Except.pure, Except.ok.injEq,
              Prod.mk.injEq] at hr
            obtain ⟨rfl, rfl⟩ := hr
            exact ⟨b1, b2, b3, b4, r0, r1, r2, r3, r4, rfl⟩
          · simp only [e0, e1, e2, e3, h4, bind, Except.bind] at hr; cases hr
        · simp only [e0, e1, e2, h3, bind, Except.bind] at hr; cases hr
      · simp only [e0, e1, h2, bind, Except.bind] at hr; cases hr
    · simp only [e0, h1, bind, Except.bind] at hr; cases hr
  · simp only [h0, bind, Except.bind] at hr; cases hr

/-- The errors a command can raise, by name. -/
def errorsOf : Instr → List ErrCode
  | .nop => []
  | .sreset => []
  | .wclr => []
  | .build => [.inputEmpty]
  | .lookup _ => [.missingCode, .noTree]
  | .tser => [.noTree]
  | .tdes _ _ => [.treeFormatTooSmall, .treeFormatTooLarge, .treeFormatTypeMismatch, .treeFormatDuplicate, .bufferBounds]
  | .estart => []
  | .echunk _ => [.missingCode, .noTree, .bufferBounds]
  | .dstart => []
  | .dchunk _ _ => [.noTree, .dataMalformed, .bufferBounds]
  | .hbuild => []
  | .hparse => [.missingHeader, .invalidHeader, .bufferBounds]

theorem code_mem_raisable {i : Instr} {e : ErrCode} (h : e ∈ errorsOf i) : e.code ∈ raisable i := by
  cases i <;> cases e <;> first | (exact absurd h (by decide)) | decide | (simp [errorsOf] at h; done) | simp [raisable, ErrCode.code]

theorem parseContainer_error {s : State} {h : Byte} {L : Nat} {e : Stop} (hp : parseContainer s h L = .error e) :
    StopIn (errorsOf .hparse) s.ibuf s.ibufLen.toNat e := by
  unfold parseContainer at hp
  dsimp only at hp
  by_cases c1 : s.streamLen.toNat - 5 < L
  · rw [if_pos c1] at hp; cases hp; simp [StopIn, errorsOf]
  rw [if_neg c1] at hp
  by_cases c2 : 7 < (h.extractLsb' 4 4).toNat
  · rw [if_pos c2] at hp; cases hp; simp [StopIn, errorsOf]
  rw [if_neg c2] at hp
  by_cases c3 : 7 < (h.extractLsb' 0 4).toNat
  · rw [if_pos c3] at hp; cases hp; simp [StopIn, errorsOf]
  rw [if_neg c3] at hp
  by_cases c4 : Config.treeMaxBytes < L
  · rw [if_pos c4] at hp; cases hp; simp [StopIn, errorsOf]
  rw [if_neg c4] at hp
  by_cases c5 : s.ibufLen.toNat < 5 + L
  · rw [if_pos c5] at hp; cases hp; simp [StopIn, errorsOf]
  rw [if_neg c5] at hp
  split at hp
  · rename_i e' he
    cases hp
    have := parseTree_error (n := s.ibufLen.toNat) (by omega) he
    match e', this with
    | .err _ _, _ => simp [headerParseStop, StopIn, errorsOf]
    | .fault (.ibufByteUnwritten _), h => exact h
  · cases hp

/-- How a command fails: an error of its own, or a model fault at an uncovered byte below IBUF_LEN. -/
theorem body_error {i : Instr} {s : State} {e : Stop} (h : body i s = .error e) :
    StopIn (errorsOf i) s.ibuf s.ibufLen.toNat e := by
  cases i with
  | nop => cases h
  | sreset => cases h
  | wclr => cases h
  | build =>
    simp only [body] at h
    split at h
    · cases h; simp [StopIn, errorsOf]
    · cases h
  | lookup x =>
    simp only [body] at h
    split at h
    · split at h
      · cases h; simp [StopIn, errorsOf]
      · cases h
    · cases h; simp [StopIn, errorsOf]
  | tser =>
    simp only [body] at h
    split at h
    · cases h
    · cases h; simp [StopIn, errorsOf]
  | tdes tpad lw =>
    simp only [body] at h
    split at h
    · cases h; simp [StopIn, errorsOf]
    · by_cases hl : lw = 1
      · rw [if_neg (by simpa [Config.lwNative] using hl)] at h
        split at h
        · rename_i he
          cases h
          exact (parseTree_error (by omega) he).mono (by simp [parseErrors, errorsOf])
        · cases h
      · rw [if_pos (by simpa [Config.lwNative] using hl)] at h
        cases h; simp [StopIn, errorsOf]
  | estart => cases h
  | echunk f =>
    simp only [body] at h
    split at h
    · cases h; simp [StopIn, errorsOf]
    · split at h
      · split at h
        · rename_i he
          cases h
          exact (chunkCodes_error (by omega) he).mono (by simp [errorsOf])
        · cases h
      · cases h; simp [StopIn, errorsOf]
  | dstart => cases h
  | dchunk l dpad =>
    simp only [body] at h
    split at h
    · cases h; simp [StopIn, errorsOf]
    · split at h
      · split at h
        · rename_i he
          cases h
          refine (decodeBits_error ?_ he).mono (by simp [errorsOf])
          unfold chunkBits; split <;> omega
        · split at h
          · cases h; simp [StopIn, errorsOf]
          · cases h
      · cases h; simp [StopIn, errorsOf]
  | hbuild => cases h
  | hparse =>
    simp only [body] at h
    split at h
    · cases h; simp [StopIn, errorsOf]
    · split at h
      · cases h; simp [StopIn, errorsOf]
      · split at h
        · cases h; simp [StopIn, errorsOf]
        · split at h
          · rename_i he; cases h; exact (readHeader_error (by omega) he).mono (by simp)
          · exact parseContainer_error h

/-- The commands that can end in a model fault are those that read IBUF. -/
theorem body_fault {i : Instr} {s : State} {f : Fault} (h : body i s = .error (.fault f)) :
    (∃ p w, i = .tdes p w) ∨ (∃ f, i = .echunk f) ∨ (∃ l p, i = .dchunk l p) ∨ i = .hparse := by
  cases i <;> simp only [body] at h <;> first
    | (split at h <;> (try split at h) <;> cases h)
    | cases h
    | simp

end Sys2Proof.Machine
end

