-- ==== Sys2Proof/Laws/Step.lean ====
section
/-! SUPPORT. The bus and the step: what a transaction does, that the pending events are no part of what it reads or
writes, and the one case analysis of a step (rules R9, R80, R84, R85, R340, R343, R370). -/

namespace Sys2Proof.Machine

theorem admitted_iff {a size : Nat} : admitted a size = true ↔ size = 4 ∧ BusAddress a := by
  unfold admitted BusAddress Config.busAddrBits
  rw [Bool.and_eq_true, Bool.and_eq_true, decide_eq_true_iff, decide_eq_true_iff, decide_eq_true_iff, and_assoc]

/-! ### The pending events are not read by the block -/

theorem memRead_inputs (s : State) (a : Nat) (l : List Input) : { s with inputs := l }.memRead a = s.memRead a := rfl

theorem writeReg_inputs (s : State) (r : Reg) (v : Word) (l : List Input) :
    { s with inputs := l }.writeReg r v = { s.writeReg r v with inputs := l } := by
  cases r <;> rfl

theorem memWrite_inputs (s : State) (a : Nat) (v : Word) (l : List Input) :
    { s with inputs := l }.memWrite a v = { s.memWrite a v with inputs := l } := by
  unfold State.memWrite
  dsimp only
  split
  · rfl
  · split <;> first
      | rfl
      | exact writeReg_inputs _ _ _ _
      | (unfold State.writeIbufWord; dsimp only; split <;> rfl)

/-! ### Transactions -/

theorem reads_memRead {s : State} {a : Nat} (h : BusAddress a) : s.reads a (s.memRead a) := by
  intro rest
  have : admitted a 4 = true := admitted_iff.2 ⟨rfl, h⟩
  show busRead _ a 4 = _
  rw [busRead, if_pos this]
  rfl

theorem writes_memWrite {s : State} {a : Nat} (h : BusAddress a) (v : Word) : s.writes a v (s.memWrite a v) := by
  intro rest
  have : admitted a 4 = true := admitted_iff.2 ⟨rfl, h⟩
  show busWrite { s with inputs := rest } a 4 v = _
  rw [busWrite, if_pos this, memWrite_inputs]

theorem reads_inj {s : State} {a : Nat} {v w : Word} (h : s.reads a v) (h' : s.reads a w) : v = w := by
  have := (h []).symm.trans (h' [])
  simp only [Host.Outcome.next.injEq, State.mk.injEq, List.cons.injEq] at this
  tauto

theorem memRead_reg {s : State} {a : Nat} {r : Reg} (hb : s.busy = false) (ha : a < 0x1000)
    (h : regAt a = some r) : s.memRead a = s.readReg r := by
  simp [State.memRead, hb, placeAt, ha, h]

theorem memWrite_reg {s : State} {a : Nat} {r : Reg} {v : Word} (hb : s.busy = false) (ha : a < 0x1000)
    (h : regAt a = some r) : s.memWrite a v = s.writeReg r v := by
  simp [State.memWrite, hb, placeAt, ha, h]

theorem memWrite_busy {s : State} {a : Nat} {v : Word} (hb : s.busy = true) :
    s.memWrite a v = { s with drop := true } := by simp [State.memWrite, hb]

/-! ### What a host write can change -/

/-- The states a host write can leave while the block is idle. -/
theorem memWrite_cases (s : State) (a : Nat) (v : Word) (hb : s.busy = false) :
    s.memWrite a v = s
      ∨ (∃ ie, s.memWrite a v = { s with ie := ie })
      ∨ (a = 0x014 ∧ s.memWrite a v = s.accept v)
      ∨ (a = 0x018 ∧ s.memWrite a v = s.clearStatus v)
      ∨ (∃ n, s.memWrite a v = { s with ibufLen := n })
      ∨ s.memWrite a v = s.writePend v
      ∨ s.memWrite a v = s.writeCursor v
      ∨ (∃ n, s.memWrite a v = { s with streamLenLo := n })
      ∨ (∃ n, s.memWrite a v = { s with streamLenHi := n })
      ∨ (∃ x h, x < 256 ∧ s.memWrite a v = s.writeWeight x h v)
      ∨ ∃ j, s.memWrite a v = s.writeIbufWord j v := by
  have hreg : ∀ r, regAt a = some r → (a, r) ∈ regMap := fun r h => Table.lookup_mem h
  unfold State.memWrite
  rw [if_neg (by simp [hb])]
  unfold placeAt
  by_cases h1 : a < 0x1000
  · rw [if_pos h1]
    cases hr : regAt a with
    | none => simp
    | some r =>
      have hm := hreg r hr
      dsimp only
      cases r <;> simp only [State.writeReg] <;> first
        | (have ha : a = 0x014 := by simpa [regMap] using hm
           simp [ha])
        | (have ha : a = 0x018 := by simpa [regMap] using hm
           simp [ha])
        | simp
  · rw [if_neg h1]
    by_cases h2 : 0x1000 ≤ a ∧ a < 0x1800
    · rw [if_pos h2]
      right; right; right; right; right; right; right; right; right; left
      exact ⟨_, _, by omega, rfl⟩
    · rw [if_neg h2]
      by_cases h3 : 0x2000 ≤ a ∧ a < 0x6000
      · rw [if_pos h3]; left; rfl
      rw [if_neg h3]
      by_cases h4 : 0x8000 ≤ a ∧ a < 0xC000
      · rw [if_pos h4]; left; rfl
      rw [if_neg h4]
      by_cases h5 : 0x1000000 ≤ a ∧ a < 0x1000000 + s.params.ibufBytes
      · rw [if_pos h5]
        right; right; right; right; right; right; right; right; right; right
        exact ⟨_, rfl⟩
      rw [if_neg h5]
      by_cases h6 : 0x4000000 ≤ a ∧ a < 0x4000000 + s.params.obufBytes
      · rw [if_pos h6]; left; rfl
      rw [if_neg h6]; left; rfl

/-! ### The step -/

/-- One step, by cases: a host read, a host write, a hardware reset, the block performing its command, or the
block idle (rule R9). -/
theorem step_cases (s t : State) (h : step s = .next t) :
    (∃ a rest, BusAddress a ∧ s.inputs = .busRead a 4 :: rest
        ∧ t = { s with inputs := rest, hostReads := s.memRead a :: s.hostReads, draws := s.draws + 1 })
      ∨ (∃ a v rest, BusAddress a ∧ s.inputs = .busWrite a 4 v :: rest
        ∧ t = { s.memWrite a v with inputs := rest })
      ∨ (∃ rest, s.inputs = .hardReset :: rest ∧ t = { s with inputs := rest }.resetBlock)
      ∨ (s.busy = true ∧ s.turn ∧ ∃ i, decode s.lastCmd = .ok i ∧ exec i { s with inputs := s.inputs.tail } = .next t)
      ∨ (s.busy = true ∧ s.turn ∧ (∃ e, decode s.lastCmd = .error e)
        ∧ t = { s with inputs := s.inputs.tail }.raise none .illegalCommand 0#32)
      ∨ (s.busy = false ∧ s.turn ∧ t = { s with inputs := s.inputs.tail }) := by
  have turn : ∀ u : State, u = { s with inputs := s.inputs.tail } → s.turn → blockTurn u = .next t →
      (s.busy = true ∧ s.turn ∧ ∃ i, decode s.lastCmd = .ok i ∧ exec i { s with inputs := s.inputs.tail } = .next t)
      ∨ (s.busy = true ∧ s.turn ∧ (∃ e, decode s.lastCmd = .error e)
        ∧ t = { s with inputs := s.inputs.tail }.raise none .illegalCommand 0#32)
      ∨ (s.busy = false ∧ s.turn ∧ t = { s with inputs := s.inputs.tail }) := by
    rintro u rfl ht hu
    unfold blockTurn at hu
    split at hu
    · rename_i hb
      unfold performCommand State.commandWord at hu
      split at hu
      · rename_i i hd; exact .inl ⟨hb, ht, i, hd, hu⟩
      · rename_i e hd; cases hu; exact .inr (.inl ⟨hb, ht, ⟨e, hd⟩, rfl⟩)
    · rename_i hb; cases hu; exact .inr (.inr ⟨by simpa using hb, ht, rfl⟩)
  unfold step stepOnce at h
  split at h
  · rename_i hi
    exact .inr (.inr (.inr (turn s (by cases s; simp_all) (.inl hi) h)))
  · rename_i e rest hi
    cases e with
    | busRead a size =>
      simp only [handleInput, busRead] at h
      split at h
      · rename_i ha
        obtain ⟨rfl, hba⟩ := admitted_iff.1 ha
        cases h
        exact .inl ⟨a, rest, hba, hi, rfl⟩
      · cases h
    | busWrite a size v =>
      simp only [handleInput, busWrite] at h
      split at h
      · rename_i ha
        obtain ⟨rfl, hba⟩ := admitted_iff.1 ha
        cases h
        exact .inr (.inl ⟨a, v, rest, hba, hi, memWrite_inputs _ _ _ _⟩)
      · cases h
    | hardReset => cases h; exact .inr (.inr (.inl ⟨rest, hi, rfl⟩))
    | blockTurn =>
      exact .inr (.inr (.inr (turn _ (by rw [hi]; rfl) (.inr ⟨rest, hi⟩) h)))

/-- The block's turn. -/
theorem step_turn {s : State} (h : s.turn) : step s = blockTurn { s with inputs := s.inputs.tail } := by
  rcases h with h | ⟨rest, h⟩
  · unfold step stepOnce; rw [h]; cases s; simp_all
  · unfold step stepOnce; rw [h]; rfl

theorem step_turn_ok {s : State} {i : Instr} (h : s.turn) (hb : s.busy = true) (hd : decode s.lastCmd = .ok i) :
    step s = exec i { s with inputs := s.inputs.tail } := by
  rw [step_turn h, blockTurn, if_pos hb, performCommand]
  simp only [State.commandWord, hd]

theorem step_turn_error {s : State} {e : DecodeError} (h : s.turn) (hb : s.busy = true)
    (hd : decode s.lastCmd = .error e) :
    step s = .next ({ s with inputs := s.inputs.tail }.failed 0x0C#8 0#32) := by
  rw [step_turn h, blockTurn, if_pos hb, performCommand]
  simp only [State.commandWord, hd]
  rfl

/-! ### The buffers keep their canonical form -/

theorem writeIbufWord_wf {s : State} (h : Memory.wf s.ibuf) (j : Nat) (v : Word) :
    Memory.wf (s.writeIbufWord j v).ibuf := by
  unfold State.writeIbufWord
  split
  · exact Memory.wf_write (Memory.wf_write (Memory.wf_write (Memory.wf_write h _ _) _ _) _ _) _ _
  · exact h

theorem setWeight_wf {s : State} (h : Table.wf s.weights) (x : Nat) (w : BitVec 64) :
    Table.wf (s.setWeight x w).weights := by
  rw [State.setWeight_weights]
  split
  · exact Table.wf_erase h _
  · exact Table.wf_insert h _ _

theorem setOutput_wf (s : State) (bs : List Byte) : Memory.wf (s.setOutput bs).obuf := Memory.wf_ofBytes bs

/-- Reset's buffers are canonical. -/
theorem reset_wf : Memory.wf State.reset.ibuf ∧ Memory.wf State.reset.obuf :=
  ⟨List.Pairwise.nil, List.Pairwise.nil⟩

/-- The word write of the IBUF window, byte by byte (rules R83, R85). -/
theorem read_writeIbufWord (s : State) (j a : Nat) (v : Word) (h : j + 3 < s.params.ibufBytes) :
    Memory.read (s.writeIbufWord j v).ibuf a
      = if j + 3 = a then some (v.extractLsb' 24 8) else if j + 2 = a then some (v.extractLsb' 16 8)
        else if j + 1 = a then some (v.extractLsb' 8 8) else if j = a then some (v.extractLsb' 0 8)
        else Memory.read s.ibuf a := by
  simp only [State.writeIbufWord, if_pos h, Memory.read_write]

end Sys2Proof.Machine
end

