-- ==== Sys2Proof/Tests/Slice0.lean ====
section
/-! SUPPORT. Our own tests. Every expected value is written out from the spec: the vectors V-… and the programs of
95_test_vectors.md, the encodings of rules R116 and R124. The witnesses at the end show that the statements'
hypotheses can be met. -/

namespace Sys2Proof.Tests

open Sys2Proof.Machine

/-- The next state, where there is one. -/
def after (o : Host.Outcome State Fault Refusal) : Option State :=
  match o with
  | .next t => some t
  | .fault _ => none
  | .refused _ => none

/-- The state after a step, where there is one. -/
def stepped (s : State) : Option State := after (step s)

/-- The command decoded from a word, where there is one. -/
def decoded (w : Word) : Option Instr := (decode w).toOption

/-! ### Well-formedness refuses operands that do not fit their fields (rule R111) -/

theorem test_wf_lookup_arg : (Instr.lookup 256).wellFormed = false ∧ (Instr.lookup 255).wellFormed = true := by decide

theorem test_wf_tdes_tpad : (Instr.tdes 8 1).wellFormed = false ∧ (Instr.tdes 7 1).wellFormed = true := by decide

theorem test_wf_tdes_lw : (Instr.tdes 0 16).wellFormed = false ∧ (Instr.tdes 0 15).wellFormed = true := by decide

theorem test_wf_dchunk_dpad : (Instr.dchunk true 8).wellFormed = false ∧ (Instr.dchunk true 7).wellFormed = true := by
  decide

theorem test_wf_stmt_address : (Basic.wr 0x8000000 0#32).wellFormed = false ∧ (Basic.rd 0x016).wellFormed = false
    ∧ (Basic.wr 0x1000004 0#32).wellFormed = true ∧ (Basic.rd 0x4000000).wellFormed = true := by decide

theorem test_wf_stmt_weight : (Stmt.weight 256 1).wellFormed = false ∧ (Stmt.weight 0 (2 ^ 64)).wellFormed = false := by
  decide

theorem test_wf_stmt_command : (Stmt.run (.tdes 8 1)).wellFormed = false
    ∧ (Stmt.basic (.command (.lookup 256))).wellFormed = false ∧ (Stmt.decode 8).wellFormed = false := by decide

/-! ### Words written out from rules R111, R116 and R124 -/

theorem test_decode_nop : decoded 0b00000000000000000000000000000000#32 = some .nop := by decide

theorem test_decode_sreset : decoded 0b00000000000000000000000000000001#32 = some .sreset := by decide

theorem test_decode_wclr : decoded 0b00000000000000000000000000000010#32 = some .wclr := by decide

theorem test_decode_build : decoded 0b00000000000000000000000000000011#32 = some .build := by decide

/-- ARG = 0x61 in bits 15:8. -/
theorem test_decode_lookup : decoded 0b00000000000000000110000100000100#32 = some (.lookup 0x61) := by decide

theorem test_decode_tser : decoded 0b00000000000000000000000000000101#32 = some .tser := by decide

/-- LW = 1 in bits 23:20, PAD = 3 in bits 19:17. -/
theorem test_decode_tdes : decoded 0b00000000000101100000000000000110#32 = some (.tdes 3 1) := by decide

theorem test_decode_estart : decoded 0b00000000000000000000000000000111#32 = some .estart := by decide

/-- FL in bit 16. -/
theorem test_decode_echunk : decoded 0b00000000000000010000000000001000#32 = some (.echunk true) := by decide

theorem test_decode_dstart : decoded 0b00000000000000000000000000001001#32 = some .dstart := by decide

/-- PAD = 7 in bits 19:17, FL in bit 16. -/
theorem test_decode_dchunk : decoded 0b00000000000011110000000000001010#32 = some (.dchunk true 7) := by decide

theorem test_decode_hbuild : decoded 0b00000000000000000000000000001011#32 = some .hbuild := by decide

theorem test_decode_hparse : decoded 0b00000000000000000000000000001100#32 = some .hparse := by decide

/-- Vectors V-K4 to V-K10: the words that are no command. -/
theorem test_decode_illegal :
    ([0x0000000D, 0x000000FF, 0x00000105, 0x01000000, 0x00010004, 0x0001000B, 0x00200008].map fun w =>
      decoded (BitVec.ofNat 32 w)) = [none, none, none, none, none, none, none] := by decide

/-- The encoder writes the same words. -/
theorem test_encode : [Instr.lookup 0x61, .tdes 3 1, .tdes 3 2, .echunk true, .dchunk true 7, .dchunk true 3].map encode
    = [0x00006104#32, 0x00160006#32, 0x00260006#32, 0x00010008#32, 0x000F000A#32, 0x0007000A#32] := by decide

theorem test_table_word : decodeTableWord 32 0x00006104 = some (.lookup 0x61)
    ∧ decodeTableWord 32 0x0000000D = none := by decide

/-- Omitted operands, a register name and a text string (rules R124, R125; program P1). -/
theorem test_written : (Written.tdes 3 none).instr = .tdes 3 1 ∧ (Written.dchunk none none).instr = .dchunk false 0
    ∧ registerOffset "STREAM_LEN_LO" = some 0x048 ∧ textBytes "ab" = [0x61#8, 0x62#8]
    ∧ textWellFormed "ab" = true ∧ textWellFormed "aé" = false := by decide +kernel

/-- P1, rows 2 and 9. -/
theorem test_expand : (Stmt.weight (letterOf 'a') 1).expand 0 = [.wr 0x1308 1#32, .wr 0x130C 0#32]
    ∧ (Stmt.ibuf (textBytes "abbccc")).expand 0
      = [.wr 0x1000000 0x63626261#32, .wr 0x1000004 0x00006363#32, .wr 0x024 6#32] := by decide +kernel

/-- P1, row 13: two reads, whose word for the second has three lanes that hold no defined value. -/
theorem test_obuf : Stmt.obuf.expand 5 = [.rd 0x4000000, .rd 0x4000004]
    ∧ obufBytes 5 [0x00000037#32, 0xFFFFFF04#32] = [0x37#8, 0x00#8, 0x00#8, 0x00#8, 0x04#8] := by decide

/-- decode p, with one poll that finds the block busy before each turn. -/
theorem test_events : (Stmt.decode 7).events 0 1
    = [.busWrite 0x014 4 0x00000009#32, .busRead 0x018 4, .blockTurn, .busRead 0x018 4,
       .busWrite 0x014 4 0x000F000A#32, .busRead 0x018 4, .blockTurn, .busRead 0x018 4] := by decide

/-! ### States to start from -/

/-- The weights of Scenario A. -/
def weightsA : State := { State.reset with weights := [(0x61, 1#64), (0x62, 2#64), (0x63, 3#64)] }

/-- The Scenario A tree (95_test_vectors.md, "The Scenario A tree"; vector V-B1). -/
def scenarioA : State :=
  { weightsA with
    nodes := [.leaf 0x61#8 1#72, .leaf 0x62#8 2#72, .leaf 0x63#8 3#72, .internal 3#72 0#9 1#9, .internal 6#72 2#9 3#9]
    nodeCount := 5#10
    root := 4#9
    cursor := 4#9
    treeValid := true
    treeLen := 4#32
    treePad := 3#3
    codes := [(0x61, [true, false]), (0x62, [true, true]), (0x63, [false])] }

/-- The one-leaf tree of Scenario B (vector V-B2). -/
def scenarioB : State :=
  { State.reset with
    weights := [(0x61, 5#64)]
    nodes := [.leaf 0x61#8 5#72]
    nodeCount := 1#10
    treeValid := true
    treeLen := 2#32
    treePad := 7#3
    codes := [(0x61, [false])] }

/-- "abbccc" -/
def abbccc : List Byte := [0x61#8, 0x62#8, 0x62#8, 0x63#8, 0x63#8, 0x63#8]

/-- TSER's bytes for the Scenario A tree. -/
def treeA : List Byte := [0x98#8, 0xE6#8, 0x13#8, 0x10#8]

/-- The container of L1.1. -/
def containerA : List Byte := [0x37#8, 0x00#8, 0x00#8, 0x00#8, 0x04#8] ++ treeA ++ [0xBC#8, 0x00#8]

/-- A host that is to parse a container of T bytes has loaded these (HPARSE vectors V-F…). -/
def framed (T : Nat) (bs : List Byte) : State := { State.reset.load bs with streamLenLo := BitVec.ofNat 32 T }

/-! ### One command each -/

/-- V-K1 -/
theorem test_nop : after (exec .nop { scenarioA with err := 0x02#8, errInfo := 7#32, errs := true, busy := true })
    = some { scenarioA with err := 0x00#8, errInfo := 0#32, errs := true, busy := false, done := true } := by decide

/-- V-K2 -/
theorem test_sreset : (after (exec .sreset { scenarioA with ie := true, errs := true, drop := true, busy := true })).map
      (fun t => (t.statusWord, t.nodeCount, t.weight 0x61, t.obufLen, t.lastCmd))
    = some (0x00000002#32, 0#10, 0#64, 0#32, 0x00000001#32) := by decide

/-- V-K3 -/
theorem test_wclr : (after (exec .wclr { State.reset with weights := [(0x61, 5#64)] })).map
      (fun t => (t.weight 0x61, t.err)) = some (0#64, 0x00#8) := by decide

/-- V-B1 -/
theorem test_build : after (exec .build weightsA) = some scenarioA.succeeded := by decide +kernel

/-- V-B5: the tie-break. -/
theorem test_build_ties :
    (after (exec .build { State.reset with weights := [(0x61, 2#64), (0x62, 1#64), (0x63, 1#64)] })).map
      (fun t => (t.nodes.drop 3, t.root, t.codes))
    = some ([.internal 2#72 1#9 2#9, .internal 4#72 0#9 3#9], 4#9,
        [(0x61, [false]), (0x62, [true, false]), (0x63, [true, true])]) := by decide +kernel

/-- V-B9: no overflow. -/
theorem test_build_wide :
    (after (exec .build { State.reset with weights := [(0x00, 0xFFFFFFFFFFFFFFFF#64), (0xFF, 0xFFFFFFFFFFFFFFFF#64)] })).map
      (fun t => (t.nodes.drop 2, t.codes))
    = some ([.internal 0x1FFFFFFFFFFFFFFFE#72 0#9 1#9], [(0x00, [false]), (0xFF, [true])]) := by decide +kernel

/-- V-L2 -/
theorem test_lookup : (after (exec (.lookup 0x62) scenarioA)).map (fun t => (t.lkLen, t.lkBits[0], t.lkBits[1], t.err))
    = some (2#9, 0xC0000000#32, 0#32, 0x00#8) := by decide

/-- V-L4 -/
theorem test_lookup_missing : (after (exec (.lookup 0x64) { scenarioA with lkLen := 1#9 })).map
      (fun t => (t.err, t.errInfo, t.lkLen, t.errs)) = some (0x02#8, 0x64000000#32, 1#9, true) := by decide

/-- V-C16 -/
theorem test_tser : (after (exec .tser scenarioA)).map (fun t => (t.output, t.obufLen, t.treeLen, t.treePad))
    = some (treeA, 4#32, 4#32, 3#3) := by decide

/-- V-C15 -/
theorem test_tser_no_tree : (after (exec .tser (State.reset.withOutput [1#8]))).map
      (fun t => (t.err, t.errInfo, t.obufLen, t.output)) = some (0x09#8, 0#32, 0#32, []) := by decide

/-- The Scenario A tree numbered in pre-order, with weights 0 (vectors V-C1 and V-F4). -/
def parsedA (s : State) : State :=
  { s with
    nodes := [.internal 0#72 1#9 2#9, .leaf 0x63#8 0#72, .internal 0#72 3#9 4#9, .leaf 0x61#8 0#72, .leaf 0x62#8 0#72]
    nodeCount := 5#10
    root := 0#9
    cursor := 0#9
    treeValid := true
    treeLen := 4#32
    treePad := 3#3
    codes := [(0x61, [true, false]), (0x62, [true, true]), (0x63, [false])] }

/-- V-C1 -/
theorem test_tdes : after (exec (.tdes 3 1) (scenarioA.load treeA)) = some (parsedA (scenarioA.load treeA)).succeeded := by
  decide

/-- V-C8: the third leaf repeats a letter, tag at bit 20. -/
theorem test_tdes_duplicate : (after (exec (.tdes 3 1) (scenarioA.load [0x98#8, 0xE6#8, 0x13#8, 0x1F#8]))).map
      (fun t => (t.err, t.errInfo, t.treeValid, t.nodeCount)) = some (0x0A#8, 0x63000014#32, false, 0#10) := by decide

theorem test_estart : (after (exec .estart { scenarioA with pendByte := 0xB0#8, pendBits := 4#3 })).map
      (fun t => (t.pendWord, t.err)) = some (0#32, 0x00#8) := by decide

/-- V-P1 -/
theorem test_echunk_last : (after (exec (.echunk true) (scenarioA.load abbccc))).map
      (fun t => (t.output, t.obufLen, t.dataPad, t.pendWord)) = some ([0xBC#8, 0x00#8], 2#32, 7#3, 0#32) := by decide

/-- V-P2's second chunk, "bc" after PEND = 0x000004B0. -/
theorem test_echunk : (after (exec (.echunk false)
      { scenarioA.load [0x62#8, 0x63#8] with pendByte := 0xB0#8, pendBits := 4#3, dataPad := 5#3 })).map
      (fun t => (t.output, t.pendWord, t.dataPad)) = some ([], 0x000007BC#32, 5#3) := by decide

theorem test_dstart : (after (exec .dstart { scenarioA with cursor := 3#9 })).map (·.cursor) = some 4#9 := by decide

/-- V-U1 -/
theorem test_dchunk : (after (exec (.dchunk true 7) (scenarioA.load [0xBC#8, 0x00#8]))).map
      (fun t => (t.output, t.obufLen, t.cursor)) = some (abbccc, 6#32, 4#9) := by decide

/-- V-U4 -/
theorem test_dchunk_inside_code : (after (exec (.dchunk true 7) (scenarioA.load [0x80#8]))).map
      (fun t => (t.err, t.errInfo, t.obufLen, t.cursor)) = some (0x0B#8, 0x01000001#32, 0#32, 4#9) := by decide

/-- V-F2 -/
theorem test_hbuild : (after (exec .hbuild { scenarioA with dataPad := 7#3 })).map (fun t => (t.output, t.obufLen))
    = some ([0x37#8, 0x00#8, 0x00#8, 0x00#8, 0x04#8], 5#32) := by decide

/-- V-F4 -/
theorem test_hparse : after (exec .hparse (framed 11 containerA))
    = some { parsedA (framed 11 containerA) with dataPad := 7#3, dataOff := 9#32 }.succeeded := by decide

/-- V-F12: L = 0. -/
theorem test_hparse_empty_tree : (after (exec .hparse (framed 5 [0x37#8, 0#8, 0#8, 0#8, 0#8]))).map
      (fun t => (t.err, t.errInfo, t.treeValid)) = some (0x07#8, 0x00000013#32, false) := by decide

/-! ### One step each -/

/-- An accepted CMD write (rule R340), from program P6: LAST_CMD, DONE and BUSY. -/
theorem test_accept : (stepped { State.reset with done := true, inputs := [.busWrite 0x014 4 0x0000000D#32] }).map
      (fun t => (t.lastCmd, t.statusWord)) = some (0x0000000D#32, 0x00000001#32) := by decide

/-- P6, row 4: the illegal word, with CTRL.IE = 1. -/
theorem test_illegal : (stepped { State.reset with ie := true, lastCmd := 0x0000000D#32, busy := true }).map
      (fun t => (t.err, t.errInfo, t.statusWord)) = some (0x0C#8, 0#32, 0x00000026#32) := by decide

/-- P6, row 7: writing 6 to STATUS clears DONE and ERRS. -/
theorem test_status_write : (stepped { State.reset with
      ie := true, done := true, errs := true, drop := true, inputs := [.busWrite 0x018 4 0x6#32] }).map
      (·.statusWord) = some 0x00000008#32 := by decide

/-- V-K11: a write while busy is dropped. -/
theorem test_dropped : (stepped { State.reset with
      busy := true, lastCmd := 0x00000003#32, inputs := [.busWrite 0x014 4 0#32] }).map
      (fun t => (t.lastCmd, t.statusWord)) = some (0x00000003#32, 0x00000009#32) := by decide

/-- V-P13 -/
theorem test_pend_write : (stepped { State.reset with inputs := [.busWrite 0x040 4 0x000006BF#32] }).map
      (·.pendWord) = some 0x000006BC#32 := by decide

/-- Rule R47: an index of a Leaf is not stored, that of an Internal record is. -/
theorem test_cursor_write : (stepped { scenarioA with inputs := [.busWrite 0x044 4 1#32] }).map (·.cursor) = some 4#9
    ∧ (stepped { scenarioA with inputs := [.busWrite 0x044 4 3#32] }).map (·.cursor) = some 3#9 := by decide

/-- P1, row 2. -/
theorem test_weight_write : (stepped { State.reset with inputs := [.busWrite 0x1308 4 1#32] }).map (·.weight 0x61)
    = some 1#64 := by decide

/-- P1, row 9: lane order. -/
theorem test_ibuf_write : (stepped { State.reset with inputs := [.busWrite 0x1000000 4 0x63626261#32] }).map (·.ibuf)
    = some [(0, 0x61#8), (1, 0x62#8), (2, 0x62#8), (3, 0x63#8)] := by decide

/-- The window reads after V-B1. -/
theorem test_window_reads :
    [0x8000, 0x800C, 0x8060, 0x8064, 0x8068, 0x806C, 0x80A0, 0x3840, 0x3844, 0x38C0, 0x38C4, 0x3900].map scenarioA.memRead
      = [0xC0000061#32, 1#32, 0x80000000#32, 0#32, 1#32, 3#32, 0#32, 0x80000002#32, 0x80000000#32, 0x80000001#32, 0#32,
          0#32] := by decide

/-- P1, row 7. -/
theorem test_obuf_read : (stepped { scenarioA.withOutput treeA with inputs := [.busRead 0x4000000 4] }).map (·.hostReads)
    = some [0x1013E698#32] := by decide

/-- A word placed by withFetchWord is performed by the next step. -/
theorem test_fetch_word : (stepped (State.reset.withFetchWord 32 0x00000005)).map (fun t => (t.err, t.lastCmd))
    = some (0x09#8, 0x00000005#32) := by decide

/-- Rule R56: TDES of one byte that no host write has covered. -/
theorem test_unwritten_byte : exec (.tdes 0 1) { State.reset with ibufLen := 2#32 } = .fault (.ibufByteUnwritten 0) := by
  rfl

/-- Rule R80: an unaligned read. -/
theorem test_unaligned : step { State.reset with inputs := [.busRead 0x002 4] } = .refused (.busAccessNotAdmitted 0x002 4) := by
  rfl

/-! ### Good states -/

theorem next_of_after {o : Host.Outcome State Fault Refusal} {t : State} (h : after o = some t) : o = .next t := by
  cases o <;> simp_all [after]

theorem scenarioA_inv : scenarioA.Inv where
  params := by decide
  registers := ⟨by decide, by decide, by decide, by decide, by decide⟩
  buffers := ⟨by decide, by decide, ⟨[], rfl, rfl⟩, by decide, by decide⟩
  tree := by
    refine ⟨fun _ => ⟨⟨by decide, by decide, by decide, by decide, by decide, ?_⟩, rfl, by decide, rfl, rfl, .inl rfl⟩,
      fun h => nomatch h⟩
    intro n hn
    simp only [scenarioA, List.mem_cons, List.not_mem_nil, or_false] at hn
    obtain rfl | rfl | rfl | rfl | rfl := hn <;> first | exact trivial | decide
  output := by decide

theorem scenarioB_inv : scenarioB.Inv where
  params := by decide
  registers := ⟨by decide, by decide, by decide, by decide, by decide⟩
  buffers := ⟨by decide, by decide, ⟨[], rfl, rfl⟩, by decide, by decide⟩
  tree := by
    refine ⟨fun _ => ⟨⟨by decide, by decide, by decide, by decide, by decide, ?_⟩, rfl, by decide, rfl, rfl, .inl rfl⟩,
      fun h => nomatch h⟩
    intro n hn
    simp only [scenarioB, List.mem_cons, List.not_mem_nil, or_false] at hn
    subst hn
    trivial
  output := by decide

/-- A block with the interrupt enabled, and otherwise as reset leaves it. -/
def enabled : State := { State.reset with ie := true }

theorem enabled_inv : enabled.Inv where
  params := by decide
  registers := ⟨by decide, by decide, by decide, by decide, by decide⟩
  buffers := ⟨by decide, by decide, ⟨[], rfl, rfl⟩, by decide, by decide⟩
  tree := ⟨fun h => (nomatch h), fun _ => ⟨rfl, rfl, rfl, rfl, rfl, rfl, rfl, rfl⟩⟩
  output := by decide

theorem load_inv {s : State} {bs : List Byte} (h : s.Inv) (hl : bs.length ≤ s.params.ibufBytes) : (s.load bs).Inv where
  params := h.params
  registers := h.registers
  buffers := by
    refine ⟨Memory.wf_ofBytes bs, fun c hc => ?_, h.buffers.2.2⟩
    have : c.1 ∈ (Memory.ofBytes bs).map Prod.fst := List.mem_map_of_mem hc
    rw [Memory.ofBytes, Memory.fst_ofBytesFrom, List.mem_range'_1] at this
    change c.1 < s.params.ibufBytes
    omega
  tree := h.tree
  output := h.output

theorem withOutput_inv {s : State} {bs : List Byte} (h : s.Inv) (hl : bs.length ≤ 328) : (s.withOutput bs).Inv where
  params := h.params
  registers := h.registers
  buffers := by
    refine ⟨h.buffers.1, h.buffers.2.1, ⟨bs, rfl, ?_⟩, h.buffers.2.2.2⟩
    change _ = (BitVec.ofNat 32 bs.length).toNat
    simp; omega
  tree := h.tree
  output := by
    have := h.params
    change (BitVec.ofNat 32 bs.length).toNat ≤ 32 * s.params.ibufBytes + 4
    simp; omega

theorem load_loaded {s : State} {bs : List Byte} (h : s.params.Valid) (hl : bs.length ≤ s.params.ibufBytes) :
    (s.load bs).Loaded bs := by
  refine ⟨?_, hl, fun j hj => ?_⟩
  · change (BitVec.ofNat 32 bs.length).toNat = _
    have := h.2.2
    simp; omega
  · change Memory.read (Memory.ofBytes bs) j = _
    simp [hj]

/-- The perfectly balanced shape of depth n whose leaves, left to right, are the letters from 2^n × x on. -/
def fullShape : Nat → Nat → Shape
  | 0, x => .leaf (BitVec.ofNat 8 x)
  | n + 1, x => .node (fullShape n (2 * x)) (fullShape n (2 * x + 1))

/-- The largest tree: every letter present (vector V-B8's shape). -/
def fullTree : State := State.reset.withParsedTree (fullShape 8 0) 320 1 0

theorem fullShape_letters_eq (n x : Nat) :
    (fullShape n x).letters = (List.range' (2 ^ n * x) (2 ^ n)).map (BitVec.ofNat 8) := by
  induction n generalizing x with
  | zero => simp [fullShape, Shape.letters]
  | succ n ih =>
    rw [fullShape, Shape.letters, ih, ih, ← List.map_append, show 2 ^ n * (2 * x + 1) = 2 ^ n * (2 * x) + 2 ^ n by ring,
      List.range'_append_1]
    congr 2 <;> ring

theorem fullShape_letters : (fullShape 8 0).letters.Nodup := by
  rw [fullShape_letters_eq]
  refine List.Nodup.map_on (fun a ha b hb h => ?_) List.nodup_range'
  rw [List.mem_range'_1] at ha hb
  have := congrArg BitVec.toNat h
  simp only [BitVec.toNat_ofNat] at this
  omega

theorem fullShape_length : (fullShape 8 0).letters.length = 256 := by simp [fullShape_letters_eq]

theorem parsed_inv {t : Shape} (h : t.letters.Nodup) {len pad : Nat}
    (hl : (BitVec.ofNat 32 len).toNat = (serializedBits t.letters.length + 7) / 8)
    (hp : (BitVec.ofNat 3 pad).toNat = padOf (serializedBits t.letters.length)) :
    (State.reset.withParsedTree t len pad 0).Inv where
  params := enabled_inv.params
  registers := enabled_inv.registers
  buffers := enabled_inv.buffers
  tree := by
    refine ⟨fun _ => ⟨Shape.properTree h, ?_, rfl, ?_, ?_, .inl rfl⟩, fun h => nomatch h⟩
    · have := Shape.size_le h
      change (BitVec.ofNat 10 t.size).toNat = (t.records 0).length
      simp; omega
    · change _ = (serializedBits (leafCount (t.records 0)) + 7) / 8
      rw [Shape.leafCount_records]; exact hl
    · change _ = padOf (serializedBits (leafCount (t.records 0)))
      rw [Shape.leafCount_records]; exact hp
  output := enabled_inv.output

theorem fullTree_inv : fullTree.Inv := parsed_inv fullShape_letters (by rw [fullShape_length]; decide) (by rw [fullShape_length]; decide)

theorem fullTree_leafCount : leafCount fullTree.nodes = 256 :=
  (Shape.leafCount_records (t := fullShape 8 0)).trans fullShape_length

/-- The shape of the Scenario A tree. -/
def shapeA : Shape := .node (.leaf 0x63#8) (.node (.leaf 0x61#8) (.leaf 0x62#8))

/-- The shape 1 0 'a' 0 'a' of vector V-C7. -/
def shapeAA : Shape := .node (.leaf 0x61#8) (.leaf 0x61#8)

theorem loadA (bs : List Byte) (h : bs.length ≤ 4096) : (scenarioA.load bs).Loaded bs :=
  load_loaded scenarioA_inv.params h

theorem loadB (bs : List Byte) (h : bs.length ≤ 4096) : (scenarioB.load bs).Loaded bs :=
  load_loaded scenarioB_inv.params h

theorem framed_loaded (T : Nat) (bs : List Byte) (h : bs.length ≤ 4096) : (framed T bs).Loaded bs :=
  load_loaded (s := State.reset) (by decide) h

/-- The tree whose serialization begins with n 1 tags: each right child is a leaf, and so is the n-th left one. -/
def leftComb : Nat → Shape
  | 0 => .leaf 0#8
  | n + 1 => .node (leftComb n) (.leaf 0#8)

theorem leftComb_bits (n : Nat) : ∃ rest, rest ≠ [] ∧ (leftComb n).bits = List.replicate n true ++ rest := by
  induction n with
  | zero => exact ⟨_, by simp, rfl⟩
  | succ n ih =>
    obtain ⟨rest, h, e⟩ := ih
    exact ⟨rest ++ Shape.bits (.leaf 0#8), by simp [h], by
      simp [leftComb, Shape.bits, e, List.replicate_succ, List.append_assoc]⟩

theorem leftComb_lettersWithin (n : Nat) : (leftComb n).lettersWithin n = [] := by
  induction n with
  | zero => rfl
  | succ n ih =>
    obtain ⟨rest, -, e⟩ := leftComb_bits n
    have hl := congrArg List.length e
    rw [List.length_append, List.length_replicate] at hl
    simp [leftComb, Shape.lettersWithin, ih, show n - (leftComb n).bits.length = 0 by omega]

/-- Forty bytes of 1 tags: 320 of them, more than any tree has (rule R229). -/
def runOfOnes : List Byte := List.replicate 40 0xFF#8

theorem runOfOnes_bits : bitsOf runOfOnes = List.replicate 320 true := by decide +kernel

/-- What meets the clauses on bits that run out, for a run of 320 1 tags. -/
theorem runOfOnes_runs_out : ((leftComb 320).lettersWithin (bitsOf runOfOnes).length).Nodup
    ∧ ∃ rest, rest ≠ [] ∧ (leftComb 320).bits = bitsOf runOfOnes ++ rest := by
  rw [runOfOnes_bits, List.length_replicate, leftComb_lettersWithin]
  exact ⟨List.nodup_nil, leftComb_bits 320⟩

/-- The state after a host has loaded the bytes bs and then set IBUF_LEN to n, past them. -/
def loadShort (s : State) (bs : List Byte) (n : Nat) : State :=
  { s.load bs with ibufLen := BitVec.ofNat 32 n }

theorem loadShort_writtenUpTo {s : State} {bs : List Byte} {n : Nat} (hn : bs.length < n)
    (hp : n ≤ s.params.ibufBytes) (h : n ≤ 4096) : (loadShort s bs n).WrittenUpTo bs := by
  have hl : (loadShort s bs n).ibufLen.toNat = n := by
    simp only [loadShort, BitVec.toNat_ofNat]; omega
  refine ⟨by rw [hl]; exact hp, by rw [hl]; exact hn, fun j hj => ?_, ?_⟩
  · change Memory.read (Memory.ofBytes bs) j = _
    simp [hj]
  · change Memory.read (Memory.ofBytes bs) bs.length = _
    simp

/-- A block that performs NOP. -/
def busyNop : State := State.reset.accept 0#32

/-! ### Witnesses: for each statement with hypotheses, a state and operands that meet them, clause by clause -/

theorem witness_DecodeEncodeAgree :
    (Instr.lookup 255).wellFormed = true ∧ (Instr.tdes 7 15).wellFormed = true ∧ (Instr.dchunk true 7).wellFormed = true
    ∧ decode 0x00FE0006#32 = .ok (.tdes 7 15) := ⟨rfl, rfl, rfl, rfl⟩

theorem witness_IllegalWords :
    let s : State := { busyNop with lastCmd := 0x0D#32 }
    s.busy = true ∧ s.turn ∧ s.lastCmd = 0x0D#32 ∧ ¬ ∃ r ∈ opTable, 0x0D#32 &&& r.mask = r.matchBits :=
  ⟨rfl, .inl rfl, rfl, by decide⟩

theorem witness_StepRunsDecodedCommand :
    (busyNop.busy = true ∧ busyNop.turn ∧ decode busyNop.lastCmd = .ok .nop)
    ∧ decode (BitVec.ofNat 32 (0x000F000A % 2 ^ 32)) = .ok (.dchunk true 7)
    ∧ (enabled.busy = false ∧ (∃ t, step enabled = .next t) ∧ (∀ a size v rest, enabled.inputs ≠ .busWrite a size v :: rest)
      ∧ ∀ rest, enabled.inputs ≠ .hardReset :: rest) :=
  ⟨⟨rfl, .inl rfl, rfl⟩, rfl, rfl, ⟨_, rfl⟩, fun _ _ _ _ h => (nomatch h), fun _ h => (nomatch h)⟩

theorem witness_CmdRegister :
    enabled.busy = false ∧ busyNop.busy = true
    ∧ (∃ t, step { enabled with inputs := [.busWrite 0x014 4 3#32] } = .next t ∧ t.lastCmd ≠ enabled.lastCmd)
    ∧ (∃ t, step { enabled with lastCmd := 3#32, inputs := [.hardReset] } = .next t ∧ t.lastCmd ≠ 3#32)
    ∧ ∃ t, exec .sreset enabled = .next t := by
  refine ⟨rfl, rfl, ⟨_, rfl, by decide⟩, ⟨_, rfl, by decide⟩, _, rfl⟩

theorem witness_BusyAccesses :
    busyNop.busy = true ∧ busyNop.RegistersOk ∧ BusAddress 0x000 ∧ BusAddress 0x7FFFFFC :=
  ⟨rfl, ⟨by decide, by decide, by decide, by decide, by decide⟩, by decide, by decide⟩

theorem witness_UnadmittedAccesses :
    ¬ (2 = 4 ∧ BusAddress 0) ∧ ¬ (4 = 4 ∧ BusAddress 2) ∧ ¬ (4 = 4 ∧ BusAddress 0x8000000)
    ∧ (4 = 4 ∧ BusAddress 0) ∧ (4 = 4 ∧ BusAddress 0x7FFFFFC) := by decide

/-- TDES and HPARSE come to an unwritten byte in the third byte of Scenario A's tree; HPARSE also in the header's
last byte, ECHUNK and DCHUNK in the last byte of a chunk. -/
theorem witness_ModelStops :
    (∃ f, step { busyNop with lastCmd := 0x00100006#32, ibufLen := 1#32 } = .fault f)
    ∧ (∃ r, step { enabled with inputs := [.busRead 2 4] } = .refused r)
    ∧ ((loadShort scenarioA [0x98#8, 0xE6#8] 4).WrittenUpTo [0x98#8, 0xE6#8]
      ∧ (shapeA.bits = bitsOf [0x98#8, 0xE6#8] ++ shapeA.bits.drop 16 ∧ shapeA.bits.drop 16 ≠ [])
      ∧ (shapeA.lettersWithin (8 * [0x98#8, 0xE6#8].length)).Nodup ∧ 8 * 2 < 8 * 4 - 3)
    ∧ ((loadShort scenarioA abbccc 7).WrittenUpTo abbccc ∧ scenarioA.treeValid = true
      ∧ (∃ codes, codesOf (loadShort scenarioA abbccc 7) abbccc = some codes)
      ∧ internalAt (loadShort scenarioA abbccc 7).nodes (loadShort scenarioA abbccc 7).root)
    ∧ ((loadShort scenarioB [0x00#8] 2).WrittenUpTo [0x00#8] ∧ scenarioB.treeValid = true
      ∧ (∃ x w, scenarioB.nodes[scenarioB.root.toNat]? = some (.leaf x w)) ∧ ∀ b ∈ bitsOf [0x00#8], b = false)
    ∧ (let s : State := { loadShort State.reset treeA 5 with streamLenLo := 5#32 }
      s.WrittenUpTo treeA ∧ 5 ≤ s.streamLen.toNat ∧ 5 ≤ s.ibufLen.toNat ∧ treeA.length < 5)
    ∧ (let bs := [0x37#8, 0#8, 0#8, 0#8, 4#8, 0x98#8, 0xE6#8]
      let s : State := { loadShort State.reset bs 9 with streamLenLo := 11#32 }
      s.WrittenUpTo bs ∧ 5 + 4 ≤ s.streamLen.toNat ∧ 5 + 4 ≤ s.ibufLen.toNat
      ∧ (0x37#8).toNat / 16 ≤ 7 ∧ (0x37#8).toNat % 16 ≤ 7
      ∧ (shapeA.bits = bitsOf [0x98#8, 0xE6#8] ++ shapeA.bits.drop 16 ∧ shapeA.bits.drop 16 ≠ [])
      ∧ (shapeA.lettersWithin (8 * 2)).Nodup ∧ 8 * 2 < 8 * 4 - (0x37#8).toNat / 16) := by
  refine ⟨⟨_, rfl⟩, ⟨_, rfl⟩, ⟨loadShort_writtenUpTo (by decide) (by decide) (by decide), by decide, by decide,
    by decide⟩,
    ⟨loadShort_writtenUpTo (by decide) (by decide) (by decide), rfl, ⟨_, rfl⟩, _, _, _, rfl⟩,
    ⟨loadShort_writtenUpTo (by decide) (by decide) (by decide), rfl, ⟨_, _, rfl⟩, by decide⟩, ?_, ?_⟩
  · have h := loadShort_writtenUpTo (s := State.reset) (bs := treeA) (n := 5) (by decide) (by decide) (by decide)
    exact ⟨⟨h.1, h.2, h.3, h.4⟩, by decide, by decide, by decide⟩
  · have h := loadShort_writtenUpTo (s := State.reset)
      (bs := [0x37#8, 0#8, 0#8, 0#8, 4#8, 0x98#8, 0xE6#8]) (n := 9) (by decide) (by decide) (by decide)
    exact ⟨⟨h.1, h.2, h.3, h.4⟩, by decide, by decide, by decide, by decide, by decide, by decide, by decide⟩

theorem witness_InterruptIsCompletion :
    (busyNop.busy = true ∧ busyNop.turn ∧ BusAddress 0x7FFFFFC
      ∧ ∃ t, step busyNop = .next t ∧ busyNop.done = false ∧ t.done = true)
    ∧ (let s : State := { busyNop with ie := true, lastCmd := 0x0D#32 }
      s.busy = true ∧ s.turn ∧ ∃ t, step s = .next t ∧ t.err ≠ 0#8)
    ∧ enabled.busy = false ∧ (0x2#32).getLsbD 1 = true :=
  ⟨⟨rfl, .inl rfl, by decide, _, rfl, rfl, rfl⟩, ⟨rfl, .inl rfl, _, rfl, by decide⟩, rfl, by decide⟩

theorem witness_RegisterAccess : enabled.busy = false ∧ 7 < 8 := ⟨rfl, by decide⟩

/-- A block whose PEND holds seven pending bits. -/
def pending : State := { enabled with pendByte := 0xFE#8, pendBits := 7#3 }

theorem witness_PendRegister :
    pending.busy = false ∧ pending.RegistersOk ∧ pending.reads 0x040 0x000007FE#32
    ∧ (∃ t, step pending = .next t) ∧ pending.pendByte &&& ~~~ (0xFF#8 <<< (8 - pending.pendBits.toNat)) = 0#8 := by
  refine ⟨rfl, ⟨by decide, by decide, by decide, by decide, by decide⟩, ?_, ⟨_, rfl⟩, by decide⟩
  have h : pending.memRead 0x040 = 0x000007FE#32 := by decide
  exact h ▸ reads_memRead (by decide)

theorem witness_CursorRegister :
    scenarioA.busy = false ∧ scenarioA.Inv ∧ scenarioA.treeValid = true
    ∧ (((3#32).extractLsb' 0 9).toNat < scenarioA.nodeCount.toNat ∧ internalAt scenarioA.nodes ((3#32).extractLsb' 0 9))
    ∧ ¬ ((511#32).extractLsb' 0 9).toNat < scenarioA.nodeCount.toNat
    ∧ ∃ t, exec .dstart scenarioA = .next t ∧ t.err = 0#8 :=
  ⟨rfl, scenarioA_inv, rfl, ⟨by decide, _, _, _, rfl⟩, by decide, _, rfl, rfl⟩

theorem witness_WeightWindow : scenarioA.busy = false ∧ 0 < 256 ∧ 255 < 256 := ⟨rfl, by decide, by decide⟩

theorem witness_CodeWindow :
    scenarioA.Inv ∧ scenarioA.busy = false ∧ scenarioA.code 255 = none ∧ scenarioA.code 0x61 = some [true, false]
    ∧ 15 < 16 := ⟨scenarioA_inv, rfl, rfl, rfl, by decide⟩

theorem witness_NodeWindow :
    scenarioA.Inv ∧ scenarioA.busy = false ∧ scenarioA.nodeCount.toNat ≤ 511 ∧ 511 < 512 ∧ 7 < 8
    ∧ scenarioA.nodes[0]? = some (.leaf 0x61#8 1#72) ∧ scenarioA.nodes[4]? = some (.internal 6#72 2#9 3#9) :=
  ⟨scenarioA_inv, rfl, by decide, by decide, by decide, rfl, rfl⟩

theorem witness_IbufWindow :
    enabled.params.Valid ∧ enabled.busy = false ∧ (4092 % 4 = 0 ∧ 4092 < enabled.params.ibufBytes)
    ∧ (enabled.params.ibufBytes ≤ 4096 ∧ 4096 % 4 = 0 ∧ 4096 < 2 ^ 20) := by decide

theorem witness_ObufWindow :
    let s := scenarioA.withOutput [0x37#8, 0x00#8, 0x00#8, 0x00#8, 0x04#8]
    s.Inv ∧ s.busy = false ∧ 4 % 4 = 0 ∧ 4 < s.params.obufBytes ∧ 4 + 0 < s.obufLen.toNat ∧ s.obufLen.toNat ≤ 4 + 1 :=
  ⟨withOutput_inv scenarioA_inv (by decide), rfl, by decide, by decide, by decide, by decide⟩

theorem witness_ReadOnlyAndUnmapped :
    enabled.busy = false ∧ enabled.params.Valid
    ∧ (0x000 ∉ [0x010, 0x014, 0x018, 0x024, 0x040, 0x044, 0x048, 0x04C] ∧ ¬ (0x1000 ≤ 0x000 ∧ 0x000 < 0x1800)
      ∧ ¬ (0x1000000 ≤ 0x000 ∧ 0x000 < 0x1000000 + enabled.params.ibufBytes))
    ∧ (∀ a ∈ [0x00C, 0x058, 0x05C, 0x080, 0x1800, 0x6000, 0xC000, 0x1001000, 0x4020004, 0x7FFFFFC], BusAddress a)
    ∧ 0x1000000 + enabled.params.ibufBytes ≤ 0x1001000 ∧ 0x4000000 + enabled.params.obufBytes ≤ 0x4020004 := by decide

theorem witness_EveryCommandEnds : (scenarioA.load treeA).Covered := (loadA treeA (by decide)).covered

theorem witness_ErrorEffects :
    (∀ i ∈ [Instr.build, .lookup 0, .tser, .tdes 0 1, .echunk true, .dchunk true 0, .hparse],
      ∃ t, exec i enabled = .next t ∧ t.err ≠ 0#8)
    ∧ (∃ t, exec (.tdes 0 1) { enabled with ibufLen := 4097#32 } = .next t ∧ t.err = 0x0D#8)
    ∧ (let s : State := { busyNop with lastCmd := 0x0D#32 }
      s.busy = true ∧ s.turn ∧ ∃ e, decode s.lastCmd = .error e) := by
  refine ⟨fun i hi => ?_, ⟨_, rfl, rfl⟩, rfl, .inl rfl, _, rfl⟩
  have h : ∀ j ∈ [Instr.build, .lookup 0, .tser, .tdes 0 1, .echunk true, .dchunk true 0, .hparse],
      ((after (exec j enabled)).map fun t => t.err != 0#8) = some true := by decide +kernel
  obtain ⟨t, ht, he⟩ := Option.map_eq_some_iff.mp (h i hi)
  exact ⟨t, next_of_after ht, by simpa using he⟩

theorem witness_BufferBoundsFirst :
    let s : State := { enabled with ibufLen := 4097#32 }
    s.params.ibufBytes < s.ibufLen.toNat ∧ ∃ t, exec .nop s = .next t := ⟨by decide, _, rfl⟩

theorem witness_NoTreeWithoutTree :
    enabled.treeValid = false ∧ enabled.ibufLen.toNat ≤ enabled.params.ibufBytes
    ∧ ∃ t, exec .tser enabled = .next t ∧ t.err = 0x09#8 := ⟨rfl, by decide, _, rfl, rfl⟩

theorem witness_LookupResult :
    scenarioA.Inv ∧ scenarioA.treeValid = true ∧ scenarioA.code (0x61#8).toNat = some [true, false]
    ∧ scenarioA.code (0xFF#8).toNat = none := ⟨scenarioA_inv, rfl, rfl, rfl⟩

theorem witness_BuildInputEmpty : ∀ x, x < 256 → enabled.weight x = 0#64 := fun _ _ => rfl

theorem witness_BuildResult :
    (presentLetters weightsA).length = 3 ∧ (presentLetters scenarioB).length = 1
    ∧ (presentLetters { enabled with weights := (List.range 256).map fun x => (x, 1#64) }).length = 256 := by
  decide +kernel

/-- What BUILD leaves from the weights of Scenario A. -/
theorem buildA : exec .build weightsA = .next scenarioA.succeeded := next_of_after test_build

theorem witness_BuildMergeOrder :
    exec .build weightsA = .next scenarioA.succeeded ∧ scenarioA.succeeded.err = 0#8
    ∧ scenarioA.succeeded.nodes[3]? = some (.internal 3#72 0#9 1#9)
    ∧ scenarioA.succeeded.nodes[4]? = some (.internal 6#72 2#9 3#9) := ⟨buildA, rfl, rfl, rfl⟩

theorem witness_BuildSingleLetter :
    scenarioB.weight (0x61#8).toNat ≠ 0#64 ∧ ∀ y, y < 256 → y ≠ (0x61#8).toNat → scenarioB.weight y = 0#64 := by
  decide +kernel

theorem witness_BuildCodeOrder :
    exec .build weightsA = .next scenarioA.succeeded ∧ scenarioA.succeeded.err = 0#8
    ∧ scenarioA.succeeded.code 0x63 = some [false] ∧ scenarioA.succeeded.code 0x61 = some [true, false]
    ∧ (weightsA.weight 0x61).toNat < (weightsA.weight 0x63).toNat := ⟨buildA, rfl, rfl, rfl, by decide⟩

theorem witness_RecordsFormOneTree :
    (scenarioA.Inv ∧ scenarioA.treeValid = true) ∧ (exec .build weightsA = .next scenarioA.succeeded)
    ∧ (∃ t, exec (.tdes 3 1) (scenarioA.load treeA) = .next t ∧ t.err = 0#8)
    ∧ (∃ t, exec .hparse (framed 11 containerA) = .next t ∧ t.err = 0#8) ∧ enabled.Inv ∧ enabled.treeValid = false :=
  ⟨⟨scenarioA_inv, rfl⟩, buildA, ⟨_, next_of_after test_tdes, rfl⟩, ⟨_, next_of_after test_hparse, rfl⟩, enabled_inv, rfl⟩

theorem witness_CodesArePaths :
    (scenarioA.Inv ∧ scenarioA.treeValid = true ∧ internalAt scenarioA.nodes scenarioA.root)
    ∧ scenarioB.Inv ∧ scenarioB.treeValid = true ∧ scenarioB.nodes[scenarioB.root.toNat]? = some (.leaf 0x61#8 5#72) :=
  ⟨⟨scenarioA_inv, rfl, _, _, _, rfl⟩, scenarioB_inv, rfl, rfl⟩

theorem witness_CodesArePrefixFree :
    scenarioA.Inv ∧ scenarioA.treeValid = true ∧ scenarioA.code 0x61 = some [true, false]
    ∧ scenarioA.code 0x62 = some [true, true] := ⟨scenarioA_inv, rfl, rfl, rfl⟩

theorem witness_KraftEquality :
    (scenarioA.Inv ∧ scenarioA.treeValid = true ∧ 2 ≤ leafCount scenarioA.nodes)
    ∧ scenarioB.Inv ∧ scenarioB.treeValid = true ∧ leafCount scenarioB.nodes = 1 :=
  ⟨⟨scenarioA_inv, rfl, by decide⟩, scenarioB_inv, rfl, rfl⟩

theorem witness_SerializedLength :
    (scenarioB.Inv ∧ scenarioB.treeValid = true ∧ leafCount scenarioB.nodes = 1)
    ∧ fullTree.Inv ∧ fullTree.treeValid = true ∧ leafCount fullTree.nodes = 256 :=
  ⟨⟨scenarioB_inv, rfl, rfl⟩, fullTree_inv, rfl, fullTree_leafCount⟩

theorem witness_TserResult : scenarioA.treeValid = true ∧ scenarioA.Inv := ⟨rfl, scenarioA_inv⟩

theorem witness_TdesResult :
    (scenarioA.load treeA).Loaded treeA ∧ shapeA.letters.Nodup ∧ bitsOf treeA = shapeA.bits ++ [false, false, false]
    ∧ ∃ t, exec (.tdes 3 1) (scenarioA.load treeA) = .next t ∧ t.err = 0#8 :=
  ⟨loadA treeA (by decide), by decide, by decide, _, next_of_after test_tdes, rfl⟩

/-- Vectors V-C5, V-C3, V-C2 and V-C7. -/
theorem witness_TdesRejects :
    (scenarioA.load treeA).Loaded treeA ∧ (0 < 16 ∧ 0 ≠ 1)
    ∧ ((shapeA.lettersWithin (8 * treeA.length - 4)).Nodup
      ∧ shapeA.bits = (bitsOf treeA).take (8 * treeA.length - 4) ++ [false])
    ∧ ((scenarioA.load runOfOnes).Loaded runOfOnes
      ∧ ((leftComb 320).lettersWithin (bitsOf runOfOnes).length).Nodup
      ∧ ∃ rest, rest ≠ [] ∧ (leftComb 320).bits = bitsOf runOfOnes ++ rest)
    ∧ (shapeA.letters.Nodup ∧ (bitsOf treeA).take (8 * treeA.length - 0) = shapeA.bits ++ [false, false, false])
    ∧ (scenarioA.load [0x98#8, 0x4C#8, 0x20#8]).Loaded [0x98#8, 0x4C#8, 0x20#8]
    ∧ (shapeAA.letters = [0x61#8] ++ 0x61#8 :: [] ∧ [0x61#8].Nodup ∧ 0x61#8 ∈ [0x61#8])
    ∧ (shapeAA.leafOffsets 0)[[0x61#8].length]? = some 10
    ∧ shapeAA.bits.take (10 + 9) <+: (bitsOf [0x98#8, 0x4C#8, 0x20#8]).take (8 * 3 - 5) :=
  ⟨loadA treeA (by decide), by decide, by decide, ⟨loadA _ (by decide), runOfOnes_runs_out⟩, by decide,
    loadA _ (by decide), by decide, by decide, by decide⟩

theorem witness_EchunkResult :
    (scenarioA.load abbccc).Loaded abbccc ∧ scenarioA.treeValid = true
    ∧ codesOf (scenarioA.load abbccc) abbccc = some [true, false, true, true, true, true, false, false, false] :=
  ⟨loadA abbccc (by decide), rfl, by decide⟩

theorem witness_EchunkSize :
    (scenarioA.load abbccc).Inv ∧ (scenarioA.load abbccc).Loaded abbccc
    ∧ (∀ f, ∃ t, exec (.echunk f) (scenarioA.load abbccc) = .next t ∧ t.err = 0#8)
    ∧ ∃ codes, codesOf (scenarioA.load abbccc) abbccc = some codes :=
  ⟨load_inv scenarioA_inv (by decide), loadA abbccc (by decide), fun f => by cases f <;> exact ⟨_, rfl, rfl⟩, _, rfl⟩

/-- Vector V-P5. -/
theorem witness_EchunkMissingCode :
    let bs : List Byte := [0x61#8, 0x62#8, 0x64#8]
    (scenarioA.load bs).Loaded bs ∧ scenarioA.treeValid = true ∧ bs[2]? = some 0x64#8
    ∧ (scenarioA.load bs).code (0x64#8).toNat = none
    ∧ ∀ k < 2, ∀ y ∈ bs[k]?, (scenarioA.load bs).code y.toNat ≠ none :=
  ⟨loadA _ (by decide), rfl, rfl, rfl, by decide⟩

/-- Vectors V-U1, V-U2 and V-U4. -/
theorem witness_DchunkResult :
    let s := scenarioA.load [0xBC#8, 0x00#8]
    let u := scenarioA.load [0x80#8]
    (s.Loaded [0xBC#8, 0x00#8] ∧ s.treeValid = true ∧ internalAt s.nodes s.root
      ∧ (s.unpack s.cursor (dataBits [0xBC#8, 0x00#8] true 7)).1 = s.root)
    ∧ u.Loaded [0x80#8] ∧ (u.unpack u.cursor (dataBits [0x80#8] true 7)).1 ≠ u.root :=
  ⟨⟨loadA _ (by decide), rfl, ⟨_, _, _, rfl⟩, by decide⟩, loadA _ (by decide), by decide⟩

/-- Vectors V-U6 and V-U7. -/
theorem witness_DchunkOneLeaf :
    (scenarioB.load [0x00#8]).Loaded [0x00#8] ∧ (scenarioB.load [0x08#8]).Loaded [0x08#8] ∧ scenarioB.treeValid = true
    ∧ scenarioB.nodes[scenarioB.root.toNat]? = some (.leaf 0x61#8 5#72) ∧ scenarioB.cursor = scenarioB.root
    ∧ (∀ b ∈ dataBits [0x00#8] true 3, b = false)
    ∧ dataBits [0x08#8] true 3 = List.replicate 4 false ++ true :: [] :=
  ⟨loadB _ (by decide), loadB _ (by decide), rfl, rfl, rfl, by decide, by decide⟩

theorem witness_HparseResult :
    (framed 11 containerA).Loaded containerA
    ∧ containerA = 0x37#8 :: 0x00#8 :: 0x00#8 :: 0x00#8 :: 0x04#8 :: (treeA ++ [0xBC#8, 0x00#8])
    ∧ (4 = (0x00#8).toNat * 2 ^ 24 + (0x00#8).toNat * 2 ^ 16 + (0x00#8).toNat * 2 ^ 8 + (0x04#8).toNat
      ∧ 5 + 4 ≤ (framed 11 containerA).streamLen.toNat ∧ 4 ≤ 320 ∧ 4 ≤ (treeA ++ [0xBC#8, 0x00#8]).length
      ∧ (0x37#8).toNat / 16 ≤ 7 ∧ (0x37#8).toNat % 16 ≤ 7)
    ∧ (shapeA.letters.Nodup ∧ bitsOf ((treeA ++ [0xBC#8, 0x00#8]).take 4) = shapeA.bits ++ [false, false, false]
      ∧ [false, false, false].length = (0x37#8).toNat / 16)
    ∧ ∃ t, exec .hparse (framed 11 containerA) = .next t ∧ t.err = 0#8 :=
  ⟨framed_loaded _ _ (by decide), rfl, by decide, by decide, _, next_of_after test_hparse, rfl⟩

/-- Vectors V-F5 to V-F11. -/
theorem witness_HparseHeaderChecks :
    ((framed 4 []).Loaded [] ∧ (framed 4 []).streamLen.toNat < 5)
    ∧ ((framed 11 treeA).Loaded treeA ∧ 5 ≤ (framed 11 treeA).streamLen.toNat ∧ treeA.length < 5)
    ∧ ((framed 8 containerA).Loaded containerA ∧ 5 ≤ (framed 8 containerA).streamLen.toNat
      ∧ (framed 8 containerA).streamLen.toNat < 5 + 4)
    ∧ (5 + 4 ≤ (framed 11 containerA).streamLen.toNat ∧ 7 < (0x87#8).toNat / 16
      ∧ ((0x38#8).toNat / 16 ≤ 7 ∧ 7 < (0x38#8).toNat % 16))
    ∧ ((0x01#8).toNat * 2 ^ 8 + (0x41#8).toNat = 321 ∧ 5 + 321 ≤ (framed 400 containerA).streamLen.toNat)
    ∧ (2 < 4 ∧ (containerA.take 7).length = 5 + 2
      ∧ (framed 11 (containerA.take 7)).Loaded (containerA.take 7)) :=
  ⟨⟨framed_loaded _ _ (by decide), by decide⟩, ⟨framed_loaded _ _ (by decide), by decide, by decide⟩,
    ⟨framed_loaded _ _ (by decide), by decide, by decide⟩, by decide, by decide,
    ⟨by decide, by decide, framed_loaded _ _ (by decide)⟩⟩

/-- Vectors V-F14, V-F13 and V-F15. -/
theorem witness_HparseParseErrors :
    (∀ h ∈ [0x47#8, 0x07#8], (framed 11 (h :: 0#8 :: 0#8 :: 0#8 :: 4#8 :: treeA)).Loaded (h :: 0#8 :: 0#8 :: 0#8 :: 4#8 :: treeA)
      ∧ 5 + 4 ≤ (framed 11 (h :: 0#8 :: 0#8 :: 0#8 :: 4#8 :: treeA)).streamLen.toNat ∧ 4 ≤ treeA.length
      ∧ h.toNat / 16 ≤ 7 ∧ h.toNat % 16 ≤ 7)
    ∧ ((shapeA.lettersWithin (8 * 4 - (0x47#8).toNat / 16)).Nodup
      ∧ shapeA.bits = (bitsOf (treeA.take 4)).take (8 * 4 - (0x47#8).toNat / 16) ++ [false])
    ∧ (let bs := 0x07#8 :: 0#8 :: 0#8 :: 0#8 :: 40#8 :: runOfOnes
      (framed 45 bs).Loaded bs ∧ 5 + 40 ≤ (framed 45 bs).streamLen.toNat ∧ 40 ≤ runOfOnes.length
      ∧ (bitsOf (runOfOnes.take 40)).take (8 * 40 - (0x07#8).toNat / 16) = bitsOf runOfOnes
      ∧ ((leftComb 320).lettersWithin (bitsOf runOfOnes).length).Nodup
      ∧ ∃ rest, rest ≠ [] ∧ (leftComb 320).bits = bitsOf runOfOnes ++ rest)
    ∧ (shapeA.letters.Nodup ∧ (bitsOf (treeA.take 4)).take (8 * 4 - (0x07#8).toNat / 16) = shapeA.bits ++ [false, false, false])
    ∧ (let bs := [0x57#8, 0#8, 0#8, 0#8, 3#8, 0x98#8, 0x4C#8, 0x20#8]
      (framed 8 bs).Loaded bs ∧ 5 + 3 ≤ (framed 8 bs).streamLen.toNat ∧ (0x57#8).toNat / 16 ≤ 7 ∧ (0x57#8).toNat % 16 ≤ 7
      ∧ (shapeAA.letters = [0x61#8] ++ 0x61#8 :: [] ∧ [0x61#8].Nodup ∧ 0x61#8 ∈ [0x61#8])
      ∧ (shapeAA.leafOffsets 0)[[0x61#8].length]? = some 10
      ∧ shapeAA.bits.take (10 + 9) <+: (bitsOf ([0x98#8, 0x4C#8, 0x20#8].take 3)).take (8 * 3 - (0x57#8).toNat / 16)) := by
  refine ⟨fun h hh => ⟨framed_loaded _ _ (by simp [treeA]), ?_⟩, by decide,
    ⟨framed_loaded _ _ (by decide), by decide, by decide, by decide +kernel, runOfOnes_runs_out⟩, by decide, framed_loaded _ _ (by decide),
    by decide, by decide, by decide, by decide, by decide, by decide⟩
  simp only [List.mem_cons, List.not_mem_nil, or_false] at hh
  obtain rfl | rfl := hh <;> decide

theorem witness_ShortContainer :
    (([] : List Byte).length < 5 ∧ (framed 0 []).streamLen.toNat = 0 ∧ (framed 0 []).Loaded [])
    ∧ treeA.length < 5 ∧ (framed 4 treeA).streamLen.toNat = treeA.length ∧ (framed 4 treeA).Loaded treeA :=
  ⟨⟨by decide, by decide, framed_loaded _ _ (by decide)⟩, by decide, by decide, framed_loaded _ _ (by decide)⟩

theorem witness_RegisterFrame : ∀ i ∈ [Instr.nop, .tser, .estart, .dstart, .hbuild], i ≠ .sreset
    ∧ ∃ t, exec i scenarioA = .next t := by
  intro i hi
  simp only [List.mem_cons, List.not_mem_nil, or_false] at hi
  obtain rfl | rfl | rfl | rfl | rfl := hi <;> exact ⟨by decide, _, rfl⟩

theorem witness_MemoryFrame : Instr.tser ≠ .sreset ∧ (∃ t, exec .tser scenarioA = .next t) ∧ scenarioA.Inv :=
  ⟨by decide, ⟨_, rfl⟩, scenarioA_inv⟩

theorem witness_InputPastLengthIgnored :
    let s := scenarioA.load treeA
    Instr.tdes 3 1 ≠ .sreset
    ∧ (∀ j, j < s.ibufLen.toNat → Memory.read (Memory.ofBytes (treeA ++ [0xFF#8])) j = Memory.read s.ibuf j)
    ∧ ∃ t, exec (.tdes 3 1) s = .next t := ⟨by decide, by decide, _, next_of_after test_tdes⟩

theorem witness_ResetInvariant : (Config.Params.mk 328).Valid ∧ (Config.Params.mk (2 ^ 20)).Valid := by decide

theorem witness_StepKeepsInvariant : scenarioA.Inv ∧ ∃ t, step scenarioA = .next t := ⟨scenarioA_inv, _, rfl⟩

theorem witness_StepKeepsMemoryCanonical :
    let s := scenarioA.load treeA
    Memory.wf s.ibuf ∧ Memory.wf s.obuf ∧ Table.wf s.weights ∧ (∀ e ∈ s.weights, e.2 ≠ 0#64) ∧ Table.wf s.codes
    ∧ ∃ t, step s = .next t := ⟨by decide, by decide, by decide, by decide, by decide, _, rfl⟩

/-- Program P2's chunks. -/
theorem witness_ChunkSizeInvariance :
    let chunks : List (List Byte) := [[0x61#8, 0x62#8, 0x62#8, 0x63#8], [0x63#8, 0x63#8]]
    scenarioA.params.Valid ∧ scenarioA.treeValid = true ∧ scenarioA.pendBits = 0#3 ∧ chunks ≠ []
    ∧ (∀ c ∈ chunks, c.length ≤ scenarioA.params.ibufBytes) ∧ ∃ bits, codesOf scenarioA chunks.flatten = some bits :=
  ⟨by decide, rfl, rfl, by decide, by decide, _, rfl⟩

/-- Program P3's split; and vector V-U4's end inside a code. -/
theorem witness_CursorPersistence :
    scenarioA.params.Valid ∧ scenarioA.treeValid = true ∧ scenarioA.cursor = scenarioA.root ∧ 7 < 8
    ∧ ([0x00#8] : List Byte) ≠ [] ∧ internalAt scenarioA.nodes scenarioA.root
    ∧ (∀ c ∈ [[0xBC#8]] ++ [[0x00#8]], c.length ≤ scenarioA.params.ibufBytes)
    ∧ (scenarioA.unpack scenarioA.root ((bitsOf [0xBC#8, 0x00#8]).take (8 * 2 - 7))).1 = scenarioA.root
    ∧ (scenarioA.unpack scenarioA.root ((bitsOf [0x80#8]).take (8 * 1 - 7))).1 ≠ scenarioA.root :=
  ⟨by decide, rfl, rfl, by decide, by decide, ⟨_, _, _, rfl⟩, by decide, by decide, by decide⟩

theorem witness_StreamRoundTrip :
    scenarioA.Inv ∧ scenarioA.treeValid = true ∧ scenarioA.pendBits = 0#3 ∧ abbccc ≠ [] ∧ [abbccc].flatten = abbccc
    ∧ (∀ c ∈ [abbccc], c.length ≤ scenarioA.params.ibufBytes) ∧ (∀ x ∈ abbccc, scenarioA.code x.toNat ≠ none)
    ∧ ([[0xBC#8]] ++ [[0x00#8]] : List (List Byte)).flatten = [0xBC#8, 0x00#8] :=
  ⟨scenarioA_inv, rfl, rfl, by decide, rfl, by decide, by decide, rfl⟩

theorem witness_TreeRoundTrip :
    scenarioA.Inv ∧ scenarioA.treeValid = true ∧ (enabled.load treeA).Loaded (scenarioA.withOutput treeA).output :=
  ⟨scenarioA_inv, rfl, load_loaded enabled_inv.params (by decide)⟩

theorem witness_ContainerRoundTrip :
    scenarioA.Inv ∧ scenarioA.treeValid = true ∧ (framed 11 containerA).Loaded containerA
    ∧ containerA.length ≤ (framed 11 containerA).streamLen.toNat :=
  ⟨scenarioA_inv, rfl, framed_loaded _ _ (by decide), by decide⟩

theorem witness_HostStatements :
    (Stmt.run .nop).wellFormed = true ∧ enabled.busy = false ∧ enabled.params.Valid
    ∧ (∃ t, exec .nop { enabled with lastCmd := encode .nop, done := false, busy := true, inputs := [] } = .next t)
    ∧ (Stmt.weight 255 (2 ^ 64 - 1)).wellFormed = true ∧ abbccc.length ≤ enabled.params.ibufBytes
    ∧ (scenarioA.withOutput treeA).Inv
    ∧ ((scenarioA.load abbccc).busy = false ∧ (scenarioA.load abbccc).treeValid = true
      ∧ (scenarioA.load abbccc).Loaded abbccc ∧ ∃ codes, codesOf (scenarioA.load abbccc) abbccc = some codes)
    ∧ (let s := scenarioA.load [0xBC#8, 0x00#8]
      s.Loaded [0xBC#8, 0x00#8] ∧ internalAt s.nodes s.root
      ∧ (s.unpack s.root (dataBits [0xBC#8, 0x00#8] true 7)).1 = s.root) :=
  ⟨rfl, rfl, by decide, ⟨_, rfl⟩, by decide, by decide, withOutput_inv scenarioA_inv (by decide),
    ⟨rfl, rfl, loadA abbccc (by decide), _, rfl⟩, loadA _ (by decide), ⟨_, _, _, rfl⟩, by decide⟩

end Sys2Proof.Tests
end

section
/-! SUPPORT. The invariant of the machine (rules R8, R40 to R57, R62, R346): one lemma an update of the state says that
the invariant survives it, and reset, every command, every host transaction and so every step are made of them. -/

namespace Sys2Proof.Machine

section Steps

variable {s t : State}

theorem toNat_ofNat_of_lt {w n : Nat} (h : n < 2 ^ w) : (BitVec.ofNat w n).toNat = n := by
  rw [BitVec.toNat_ofNat, Nat.mod_eq_of_lt h]

/-! ### Reset and completion -/

/-- Rule R62: reset leaves no tree, no output and no bit that no command has written. -/
theorem State.inv_resetWith {p : Config.Params} (hp : p.Valid) : (State.resetWith p).Inv where
  params := hp
  registers := ⟨fun h => (nomatch h), Nat.zero_le _, (by decide : 0#8 ≠ 0x08#8), fun _ => rfl, BitVec.zero_and⟩
  buffers := ⟨List.Pairwise.nil, fun _ h => (nomatch h), ⟨[], rfl, rfl⟩, List.Pairwise.nil, fun _ h => nomatch h⟩
  tree := ⟨fun h => (nomatch h), fun _ => ⟨rfl, rfl, rfl, rfl, rfl, rfl, rfl, rfl⟩⟩
  output := Nat.zero_le _

theorem State.Inv.resetBlock (h : s.Inv) : s.resetBlock.Inv :=
  have hr := State.inv_resetWith h.params
  ⟨hr.params, hr.registers, hr.buffers, hr.tree, hr.output⟩

/-- Rule R341: a completed block is idle and has no error. -/
theorem State.Inv.complete (h : s.Inv) : s.complete.Inv where
  params := h.params
  registers := by
    obtain ⟨-, -, -, -, hpend⟩ := h.registers
    exact ⟨fun hb => (nomatch hb), by simp, by simp, fun _ => rfl, hpend⟩
  buffers := h.buffers
  tree := h.tree
  output := h.output

/-- Every code of rule R331 but the reserved IoError's is one ERR can hold (rules R37, R347). -/
theorem ErrCode.code_le_of_ne_ioError {e : ErrCode} (he : e ≠ .ioError) : e.code.toNat ≤ 0x0D ∧ e.code ≠ 0x08#8 := by
  cases e with
  | ioError => exact absurd rfl he
  | _ => decide

theorem State.Inv.failed (h : s.Inv) {e : ErrCode} (he : e ≠ .ioError) (info : Word) : (s.failed e.code info).Inv where
  params := h.params
  registers := by
    obtain ⟨-, -, -, -, hpend⟩ := h.registers
    obtain ⟨hle, hne⟩ := e.code_le_of_ne_ioError he
    exact ⟨fun hb => (nomatch hb), hle, hne, fun h0 => absurd h0 e.code_ne_zero, hpend⟩
  buffers := h.buffers
  tree := h.tree
  output := h.output

theorem State.Inv.withoutOutput (h : s.Inv) : s.withoutOutput.Inv where
  params := h.params
  registers := h.registers
  buffers := by
    obtain ⟨hi, hib, -, hw⟩ := h.buffers
    exact ⟨hi, hib, ⟨[], rfl, rfl⟩, hw⟩
  tree := h.tree
  output := Nat.zero_le _

theorem State.Inv.withoutTree (h : s.Inv) : s.withoutTree.Inv where
  params := h.params
  registers := h.registers
  buffers := h.buffers
  tree := ⟨fun hv => (nomatch hv), fun _ => ⟨rfl, rfl, rfl, rfl, rfl, rfl, rfl, rfl⟩⟩
  output := h.output

/-- Rules R345 and R346: an error that a command can raise leaves a good state, whatever it discards. -/
theorem State.Inv.raise (h : s.Inv) (cmd : Option Instr) {e : ErrCode} (he : e ≠ .ioError) (info : Word) :
    (s.raise cmd e info).Inv := by
  have hf := h.failed he info
  rw [State.raise_eq]
  dsimp only
  split <;> split
  · exact hf.withoutOutput.withoutTree
  · exact hf.withoutTree
  · exact hf.withoutOutput
  · exact hf

/-! ### Output -/

/-- OBUF_LEN can count every byte of OBUF (rules R6, R40). -/
theorem obufBytes_lt_of_valid {p : Config.Params} (hp : p.Valid) : p.obufBytes < 2 ^ 32 := by
  obtain ⟨-, -, hle⟩ := hp
  unfold Config.Params.obufBytes
  omega

theorem State.Inv.setOutput (h : s.Inv) {bs : List Byte} (hl : bs.length ≤ s.params.obufBytes) :
    (s.setOutput bs).Inv := by
  have hlen : (BitVec.ofNat 32 bs.length).toNat = bs.length :=
    toNat_ofNat_of_lt (hl.trans_lt (obufBytes_lt_of_valid h.params))
  obtain ⟨hi, hib, -, hw⟩ := h.buffers
  exact ⟨h.params, h.registers, ⟨hi, hib, ⟨bs, rfl, hlen.symm⟩, hw⟩, h.tree, hlen.trans_le hl⟩

/-! ### The pending bits (rule R46) -/

theorem getLsbD_highMask {n i : Nat} (hi : i < 8) : (highMask n).getLsbD i = decide (8 - n ≤ i) := by
  have hone : ∀ j, j < 8 → (0xFF#8).getLsbD j = true := by decide
  rw [highMask, BitVec.getLsbD_shiftLeft]
  by_cases h : i < 8 - n
  · simp [h, Nat.not_le_of_lt h]
  · simp [h, hi, hone (i - (8 - n)) (by omega), Nat.le_of_not_lt h]

/-- Packed bits stand in the high end of the byte, and the low end is 0. -/
theorem msbWord_and_not_highMask (r : BitString) : msbWord 8 r &&& ~~~ highMask r.length = 0#8 := by
  refine BitVec.eq_of_getLsbD_eq fun i hi => ?_
  have hbit := getLsbD_msbWord 8 r (7 - i) (by omega)
  rw [show 8 - 1 - (7 - i) = i by omega] at hbit
  rw [BitVec.getLsbD_and, BitVec.getLsbD_not, hbit, getLsbD_highMask hi]
  by_cases hr : 8 - r.length ≤ i
  · simp [hr]
  · simp [List.getD_eq_getElem?_getD, List.getElem?_eq_none (show r.length ≤ 7 - i by omega)]

/-- PEND_BYTE and PEND_BITS may take any values that agree. -/
theorem State.Inv.setPend (h : s.Inv) {b : Byte} {n : BitVec 3} (hb : b &&& ~~~ highMask n.toNat = 0#8) :
    { s with pendByte := b, pendBits := n }.Inv := by
  obtain ⟨hbd, hle, hne, h0, -⟩ := h.registers
  exact ⟨h.params, ⟨hbd, hle, hne, h0, hb⟩, h.buffers, h.tree, h.output⟩

theorem State.Inv.setPending (h : s.Inv) {r : BitString} (hr : r.length < 8) : (s.setPending r).Inv :=
  h.setPend (by rw [toNat_ofNat_of_lt hr]; exact msbWord_and_not_highMask r)

theorem State.Inv.writePend (h : s.Inv) (w : Word) : (s.writePend w).Inv :=
  h.setPend (by rw [BitVec.and_assoc, BitVec.and_not_self]; exact BitVec.and_zero)

/-! ### The tree (rules R41 to R54) -/

/-- Rule R176: installing a proper tree leaves the registers and the code table that describe it. -/
theorem State.Inv.installTree (h : s.Inv) {N : List Node} {r : BitVec 9} (hN : ProperTree N r) :
    (s.installTree N r).Inv where
  params := h.params
  registers := h.registers
  buffers := h.buffers
  tree := by
    have hlen := hN.length_le
    have hk := hN.fewLeaves
    refine ⟨fun _ => ⟨hN, toNat_ofNat_of_lt (by omega), rfl, toNat_ofNat_of_lt ?_,
      toNat_ofNat_of_lt ?_, .inl rfl⟩, fun hv => nomatch hv⟩
    · unfold serializedBits; omega
    · have := padOf_le (serializedBits (leafCount N)); omega
  output := h.output

theorem State.Inv.setCursor (h : s.Inv) {c : BitVec 9}
    (hc : c = s.root ∨ (s.treeValid = true ∧ (c = s.cursor ∨ internalAt s.nodes c))) : { s with cursor := c }.Inv := by
  obtain ⟨hvalid, hnone⟩ := h.tree
  refine ⟨h.params, h.registers, h.buffers, ⟨fun hv => ?_, fun hv => ?_⟩, h.output⟩
  · obtain ⟨hp, hcount, hcodes, hlen, hpad, hcur⟩ := hvalid hv
    refine ⟨hp, hcount, hcodes, hlen, hpad, ?_⟩
    rcases hc with hc | ⟨-, rfl | hc⟩
    · exact .inl hc
    · exact hcur
    · exact .inr hc
  · obtain ⟨hn, hcount, hroot, hcodes, hlen, hpad, hoff, -⟩ := hnone hv
    have hcr : c = s.root := hc.resolve_right fun h' => by simp [h'.1] at hv
    exact ⟨hn, hcount, hroot, hcodes, hlen, hpad, hoff, hcr.trans hroot⟩

/-- Rule R47: what a host write stores in CURSOR is ROOT or the index of an Internal record of a valid tree. -/
theorem State.writeCursor_cursor (s : State) (w : Word) :
    (s.writeCursor w).cursor = s.root ∨ (s.treeValid = true ∧ internalAt s.nodes (s.writeCursor w).cursor) := by
  cases hn : s.nodes[(w.extractLsb' 0 9).toNat]? with
  | none => exact .inl (by simp only [State.writeCursor, hn, Bool.and_false, Bool.false_eq_true, if_false])
  | some n =>
    cases n with
    | leaf x p =>
      exact .inl (by simp only [State.writeCursor, hn, Node.isInternal_leaf, Bool.and_false, Bool.false_eq_true, if_false])
    | internal p l r =>
      simp only [State.writeCursor, hn, Node.isInternal_internal, Bool.and_true]
      split
      · rename_i hk
        exact .inr ⟨(Bool.and_eq_true_iff.1 hk).1, p, l, r, hn⟩
      · exact .inl rfl

theorem State.Inv.writeCursor (h : s.Inv) (w : Word) : (s.writeCursor w).Inv :=
  h.setCursor ((s.writeCursor_cursor w).imp_right (.imp_right .inr))

/-- Writing the tree's length and padding where they stand already changes nothing. -/
theorem State.setTreeForm_self {n p : Nat} (hn : s.treeLen = BitVec.ofNat 32 n) (hp : s.treePad = BitVec.ofNat 3 p) :
    s.setTreeForm n p = s := by
  unfold State.setTreeForm
  rw [← hn, ← hp]

/-- What a proper tree serializes to has 10k − 1 bits (rule R212). -/
theorem ProperTree.length_ser {N : List Node} {r : BitVec 9} (h : ProperTree N r) :
    (ser N Config.maxNodes r).length = serializedBits (leafCount N) := by
  obtain ⟨t, rfl, hh, -, -, hc, h256⟩ := h.holds
  have hd : t.shape.depth ≤ Config.maxNodes := by have := t.shape.depth_le; unfold Config.maxNodes; omega
  rw [ser_eq hh hd, Shape.length_bits_eq, hc]

theorem State.Inv.properTree (h : s.Inv) (hv : s.treeValid = true) : ProperTree s.nodes s.root := by
  obtain ⟨hvalid, -⟩ := h.tree
  exact (hvalid hv).1

theorem State.Inv.length_serialized (h : s.Inv) (hv : s.treeValid = true) :
    s.serialized.length = serializedBits (leafCount s.nodes) := (h.properTree hv).length_ser

/-- Rules R41 and R42: TREE_LEN and TREE_PAD count the current tree's serialization, so TSER rewrites them as they
are. -/
theorem State.Inv.setTreeForm_serialized (h : s.Inv) (hv : s.treeValid = true) :
    s.setTreeForm (pack s.serialized).length (padOf s.serialized.length) = s := by
  obtain ⟨hvalid, -⟩ := h.tree
  obtain ⟨-, -, -, hlen, hpad, -⟩ := hvalid hv
  have hs := h.length_serialized hv
  refine State.setTreeForm_self ?_ ?_
  · rw [length_pack, hs, ← hlen, BitVec.ofNat_toNat, BitVec.setWidth_eq]
  · rw [hs, ← hpad, BitVec.ofNat_toNat, BitVec.setWidth_eq]

/-- Rules R220 and R224: a tree parsed from all of n bytes but p bits of padding has the length n and the padding p
that its records give, so TDES and HPARSE rewrite them as installTree left them. -/
theorem State.setTreeForm_installTree {m : Memory} {off n p : Nat} {t : Shape} (ht : parseTree m off (8 * n - p) = .ok t)
    (hp : p < 8) :
    (s.installTree (t.records 0) 0#9).setTreeForm n p = s.installTree (t.records 0) 0#9 := by
  obtain ⟨-, hl, -⟩ := parseTree_ok_iff.1 ht
  have hS : serializedBits (leafCount (t.records 0)) = 8 * n - p := by
    rw [Shape.leafCount_records, ← Shape.length_bits_eq, hl]
  have hpos : 0 < t.bits.length := by have := t.length_bits; have := t.length_letters_pos; omega
  refine State.setTreeForm_self ?_ ?_
  · rw [State.installTree_treeLen, hS, show (8 * n - p + 7) / 8 = n by omega]
  · rw [State.installTree_treePad, hS, show padOf (8 * n - p) = p by unfold padOf; omega]

theorem State.Inv.installParsed (h : s.Inv) {m : Memory} {off n p : Nat} {t : Shape}
    (ht : parseTree m off (8 * n - p) = .ok t) (hp : p < 8) :
    ((s.installTree (t.records 0) 0#9).setTreeForm n p).Inv := by
  rw [State.setTreeForm_installTree ht hp]
  exact h.installTree (Shape.properTree (parseTree_ok_iff.1 ht).1)

/-- DATA_PAD and DATA_OFF are free while there is a tree (rules R43, R49). -/
theorem State.Inv.setData (h : s.Inv) (hv : s.treeValid = true) (dp : BitVec 3) (off : Word) :
    { s with dataPad := dp, dataOff := off }.Inv := by
  refine ⟨h.params, h.registers, h.buffers, ⟨h.tree.1, fun hn => ?_⟩, h.output⟩
  rw [show s.treeValid = false from hn] at hv
  cases hv

/-! ### The lengths of the outputs (rules R8, R40) -/

/-- Rule R55: no code of a valid tree has more than 255 bits. -/
theorem State.Inv.code_length_le (h : s.Inv) (hv : s.treeValid = true) {x : Nat} {c : BitString}
    (hc : s.code x = some c) : c.length ≤ 255 := by
  obtain ⟨hvalid, -⟩ := h.tree
  obtain ⟨hp, -, hcodes, -, -, -⟩ := hvalid hv
  rw [State.code, hcodes] at hc
  exact (hp.code_length hc).2

theorem State.Inv.chunkCodes_length_le (h : s.Inv) (hv : s.treeValid = true) {n j : Nat} {cs : BitString}
    (hc : chunkCodes s n j = .ok cs) : cs.length ≤ 255 * n := by
  obtain ⟨xs, rfl, -, hcs⟩ := chunkCodes_ok hc
  exact codesOf_length_le (fun _ _ => h.code_length_le hv) hcs

theorem State.Inv.length_pack_serialized_le (h : s.Inv) (hv : s.treeValid = true) :
    (pack s.serialized).length ≤ s.params.obufBytes := by
  have hk := (h.properTree hv).fewLeaves
  obtain ⟨-, hbuf, -⟩ := h.params
  rw [length_pack, h.length_serialized hv]
  unfold serializedBits Config.Params.obufBytes
  omega

/-- A chunk's whole bytes are as many as its bits fill (rule R241). -/
theorem length_wholeBytes (bs : BitString) : (wholeBytes bs).length = bs.length / 8 := by
  rw [wholeBytes, length_pack, List.length_take]
  omega

/-- Rule R241: both forms of a chunk's end, where the packed bits fit OBUF. -/
theorem State.Inv.emitChunk (h : s.Inv) (f : Bool) {bs : BitString} (hl : (bs.length + 7) / 8 ≤ s.params.obufBytes) :
    (s.emitChunk f bs).Inv := by
  have hr : (leftover bs).length < 8 := by rw [length_leftover]; omega
  cases f with
  | false =>
    have hw : (wholeBytes bs).length ≤ s.params.obufBytes := by rw [length_wholeBytes]; omega
    exact (h.setOutput hw).setPending hr
  | true =>
    have hw : (wholeBytes bs ++ pack (leftover bs)).length ≤ s.params.obufBytes := by
      rw [wholeBytes_append_leftover, length_pack]; exact hl
    have ht := (h.setOutput hw).setPending (r := []) (by decide)
    exact ⟨ht.params, ht.registers, ht.buffers, ht.tree, ht.output⟩

/-! ### Commands -/

/-- Rules R111 and R112: the operands that the decoder reads fit their fields. -/
theorem decode_wellFormed {w : Word} {i : Instr} (h : decode w = .ok i) : i.wellFormed = true := by
  have harg : argField w < 256 := (w.extractLsb' 8 8).isLt
  have hpad : padField w < 8 := (w.extractLsb' 17 3).isLt
  have hlw : lwField w < 16 := (w.extractLsb' 20 4).isLt
  have hcommand : ∀ j, commandOf w = some j → j.wellFormed = true := by
    intro j hj
    unfold commandOf at hj
    split at hj <;> cases hj <;> simp [Instr.wellFormed, harg, hpad, hlw]
  unfold decode at h
  split at h
  · cases h
  · rename_i j hj
    split at h
    · cases h; exact hcommand _ hj
    · cases h

/-- What a command computes when it succeeds is a good state. -/
theorem Computes.inv {i : Instr} (hc : Computes s i t) (h : s.Inv) (hi : i.wellFormed = true) : t.Inv := by
  cases hc with
  | nop => exact h
  | sreset =>
    have hr := h.resetBlock
    exact ⟨hr.params, hr.registers, hr.buffers, hr.tree, hr.output⟩
  | wclr =>
    obtain ⟨hib, hir, ho, -⟩ := h.buffers
    exact ⟨h.params, h.registers, ⟨hib, hir, ho, List.Pairwise.nil, fun _ he => nomatch he⟩, h.tree, h.output⟩
  | build hne =>
    obtain ⟨-, -, -, -, -, hN⟩ := buildTree_proper s hne
    exact h.installTree hN
  | lookup _ _ => exact ⟨h.params, h.registers, h.buffers, h.tree, h.output⟩
  | tser hv =>
    have ho := h.setOutput (h.length_pack_serialized_le hv)
    have e := ho.setTreeForm_serialized hv
    exact e.symm ▸ ho
  | @tdes tpad _ _ ht =>
    have hp : tpad < 8 ∧ 1 < 16 := by simpa [Instr.wellFormed] using hi
    exact h.installParsed ht hp.1
  | estart => exact h.setPend (by decide)
  | echunk hn hv hcs =>
    refine h.emitChunk _ ?_
    have hlen := h.chunkCodes_length_le hv hcs
    have hpend := s.pendBits.isLt
    rw [List.length_append, length_pendingBits]
    unfold Config.Params.obufBytes
    omega
  | dstart => exact h.setCursor (.inl rfl)
  | @dchunk l dpad c out hn hv hd _ =>
    obtain ⟨hlen, hcur⟩ := decodeBits_ok hd
    have hnb : chunkBits s.ibufLen.toNat l dpad ≤ 8 * s.ibufLen.toNat := by unfold chunkBits; split <;> omega
    have ho : (s.setOutput out).Inv := h.setOutput (by unfold Config.Params.obufBytes; omega)
    refine ho.setCursor ?_
    rcases hcur with hc | hc | hc
    · exact .inr ⟨hv, .inl hc⟩
    · exact .inl hc
    · exact .inr ⟨hv, .inr hc⟩
  | hbuild =>
    refine h.setOutput ?_
    obtain ⟨-, hbuf, -⟩ := h.params
    show 5 ≤ 32 * s.params.ibufBytes + 4
    omega
  | hparse _ _ _ _ _ htp _ _ _ ht => exact (h.installParsed ht (by omega)).setData rfl _ _

/-- Rule R347: no command raises IoError. -/
theorem ioError_not_mem_errorsOf (i : Instr) : ErrCode.ioError ∉ errorsOf i := by
  cases i <;> simp [errorsOf]

/-- Every end of a command, in success or in an error, is a good state. -/
theorem exec_inv {i : Instr} (h : s.Inv) (hi : i.wellFormed = true) (he : exec i s = .next t) : t.Inv := by
  rcases exec_cases he with ⟨u, hu, rfl⟩ | ⟨e, info, hb, rfl⟩
  · exact (hu.inv h hi).complete
  · have hmem : e ∈ errorsOf i := body_error hb
    refine h.raise (some i) ?_ info
    rintro rfl
    exact ioError_not_mem_errorsOf i hmem

/-! ### Host transactions -/

theorem State.Inv.setWeight (h : s.Inv) {x : Nat} (hx : x < 256) (w : BitVec 64) : (s.setWeight x w).Inv := by
  obtain ⟨hi, hib, ho, hw, hwb⟩ := h.buffers
  refine ⟨h.params, h.registers, ⟨hi, hib, ho, setWeight_wf hw _ _, fun e he => ?_⟩, h.tree, h.output⟩
  rw [State.setWeight_weights] at he
  split at he
  · exact hwb e (Table.mem_erase he)
  · rename_i hne
    rcases Table.mem_insert he with rfl | he
    · exact ⟨hx, hne⟩
    · exact hwb e he

theorem State.Inv.writeIbufWord (h : s.Inv) (j : Nat) (v : Word) : (s.writeIbufWord j v).Inv := by
  have hwf := writeIbufWord_wf h.buffers.1 j v
  unfold State.writeIbufWord at hwf ⊢
  split
  · rename_i hj
    rw [if_pos hj] at hwf
    obtain ⟨-, hib, hrest⟩ := h.buffers
    refine ⟨h.params, h.registers, ⟨hwf, fun c hc => ?_, hrest⟩, h.tree, h.output⟩
    show c.1 < s.params.ibufBytes
    rcases Memory.mem_write hc with rfl | hc
    · exact hj
    rcases Memory.mem_write hc with rfl | hc
    · show j + 2 < _; omega
    rcases Memory.mem_write hc with rfl | hc
    · show j + 1 < _; omega
    rcases Memory.mem_write hc with rfl | hc
    · show j < _; omega
    · exact hib c hc
  · exact h

/-- The registers that hold what the host has written, and DROP (rules R34, R36, R39, R48). -/
theorem State.Inv.setPlain (h : s.Inv) (ie drop : Bool) (n lo hi : Word) :
    { s with ie := ie, drop := drop, ibufLen := n, streamLenLo := lo, streamLenHi := hi }.Inv :=
  ⟨h.params, h.registers, h.buffers, h.tree, h.output⟩

/-- Rule R340: acceptance clears DONE as it sets BUSY. -/
theorem State.Inv.accept (h : s.Inv) (w : Word) : (s.accept w).Inv :=
  ⟨h.params, ⟨fun _ => rfl, h.registers.2⟩, h.buffers, h.tree, h.output⟩

/-- Rule R36: a STATUS write can only clear DONE. -/
theorem State.Inv.clearStatus (h : s.Inv) (v : Word) : (s.clearStatus v).Inv := by
  obtain ⟨hbd, hreg⟩ := h.registers
  have hbd' : s.busy = true → (s.done && !v.getLsbD 1) = false := fun hb => by rw [hbd hb, Bool.false_and]
  exact ⟨h.params, ⟨hbd', hreg⟩, h.buffers, h.tree, h.output⟩

/-- A host write, dropped or taken, leaves a good state (rules R85, R343). -/
theorem State.Inv.memWrite (h : s.Inv) (a : Nat) (v : Word) : (s.memWrite a v).Inv := by
  cases hb : s.busy with
  | true => exact memWrite_busy hb ▸ h.setPlain _ _ _ _ _
  | false =>
    rcases memWrite_cases s a v hb with e | ⟨_, e⟩ | ⟨-, e⟩ | ⟨-, e⟩ | ⟨_, e⟩ | e | e | ⟨_, e⟩ | ⟨_, e⟩
      | ⟨x, half, hx, e⟩ | ⟨j, e⟩ <;> rw [e]
    · exact h
    · exact h.setPlain _ _ _ _ _
    · exact h.accept v
    · exact h.clearStatus v
    · exact h.setPlain _ _ _ _ _
    · exact h.writePend v
    · exact h.writeCursor v
    · exact h.setPlain _ _ _ _ _
    · exact h.setPlain _ _ _ _ _
    · exact h.setWeight hx _
    · exact h.writeIbufWord j v

/-! ### The step -/

/-- The events at the boundary and the host's record are no part of the invariant. -/
theorem State.Inv.setHost (h : s.Inv) (events : List Input) (record : List Word) (n : Nat) :
    { s with inputs := events, hostReads := record, draws := n }.Inv :=
  ⟨h.params, h.registers, h.buffers, h.tree, h.output⟩

theorem step_inv (h : s.Inv) (hs : step s = .next t) : t.Inv := by
  rcases step_cases s t hs with ⟨a, rest, -, -, rfl⟩ | ⟨a, v, rest, -, -, rfl⟩ | ⟨rest, -, rfl⟩
    | ⟨-, -, i, hd, he⟩ | ⟨-, -, -, rfl⟩ | ⟨-, -, rfl⟩
  · exact h.setHost _ _ _
  · exact (h.memWrite a v).setHost _ _ _
  · exact (h.setHost rest _ _).resetBlock
  · exact exec_inv (h.setHost s.inputs.tail _ _) (decode_wellFormed hd) he
  · exact (h.setHost s.inputs.tail _ _).raise none (by decide) 0#32
  · exact h.setHost _ _ _

/-- With no write and no reset next, the step of an idle block is a host read or an empty turn (rules R9, R361). -/
theorem step_idle (hb : s.busy = false) (hs : step s = .next t)
    (hw : ∀ a size v rest, s.inputs ≠ .busWrite a size v :: rest) (hr : ∀ rest, s.inputs ≠ .hardReset :: rest) :
    t = { s with inputs := s.inputs.tail, hostReads := t.hostReads, draws := t.draws } := by
  rcases step_cases s t hs with ⟨a, rest, -, hi, rfl⟩ | ⟨a, v, rest, -, hi, -⟩ | ⟨rest, hi, -⟩
    | ⟨hbusy, -⟩ | ⟨hbusy, -⟩ | ⟨-, -, rfl⟩
  · rw [hi, List.tail_cons]
  · exact absurd hi (hw a 4 v rest)
  · exact absurd hi (hr rest)
  · rw [hb] at hbusy; cases hbusy
  · rw [hb] at hbusy; cases hbusy
  · rfl

end Steps

/-! ### The statements -/

/-- Settles O4: a turn is exec of the decoded command, withFetchWord makes the turn next, and resets are computed. -/
theorem stepRunsDecodedCommand : Obligations.StepRunsDecodedCommand :=
  ⟨fun _ _ hb ht hd => step_turn_ok ht hb hd,
   fun s n w _ hd => step_turn_ok (s := s.withFetchWord n w) (.inr ⟨s.inputs, rfl⟩) rfl hd,
   fun _ _ hb hs hw hr => step_idle hb hs hw hr,
   fun _ _ => ⟨_, rfl, rfl, rfl, rfl, rfl⟩,
   fun _ => ⟨_, rfl, rfl, rfl, rfl, rfl⟩⟩

/-- Settles O53: each kind of step that step_cases names keeps the invariant. -/
theorem stepKeepsInvariant : Obligations.StepKeepsInvariant := fun _ _ => step_inv

/-- Settles O52: the default IBUF_BYTES is one of the legal values. -/
theorem resetInvariant : Obligations.ResetInvariant :=
  ⟨State.inv_resetWith (by decide), fun _ => State.inv_resetWith⟩

end Sys2Proof.Machine
end

section
/-! SUPPORT. The canonical form of the buffers and tables (rules R50, R54, R56, R57): one lemma an update says that the
form survives it, and every command, every host write and so every step are made of them. -/

namespace Sys2Proof.Machine

section Canonical

variable {s t : State}

/-- IBUF, OBUF, WEIGHT and CODE list strictly rising keys, and WEIGHT lists no zero. -/
def State.Canonical (s : State) : Prop :=
  Memory.wf s.ibuf ∧ Memory.wf s.obuf ∧ Table.wf s.weights ∧ (∀ e ∈ s.weights, e.2 ≠ 0#64) ∧ Table.wf s.codes

/-! ### The updates -/

theorem State.canonical_resetBlock (s : State) : s.resetBlock.Canonical :=
  ⟨List.Pairwise.nil, List.Pairwise.nil, List.Pairwise.nil, fun _ he => (nomatch he), List.Pairwise.nil⟩

theorem State.Canonical.setOutput (h : s.Canonical) (bs : List Byte) : (s.setOutput bs).Canonical := by
  obtain ⟨hi, -, hrest⟩ := h
  exact ⟨hi, setOutput_wf s bs, hrest⟩

theorem State.Canonical.withoutOutput (h : s.Canonical) : s.withoutOutput.Canonical := h.setOutput []

theorem State.Canonical.withoutTree (h : s.Canonical) : s.withoutTree.Canonical := by
  obtain ⟨hi, ho, hw, hz, -⟩ := h
  exact ⟨hi, ho, hw, hz, List.Pairwise.nil⟩

theorem State.Canonical.installTree (h : s.Canonical) (N : List Node) (r : BitVec 9) : (s.installTree N r).Canonical := by
  obtain ⟨hi, ho, hw, hz, -⟩ := h
  exact ⟨hi, ho, hw, hz, wf_deriveCodes N r⟩

theorem State.Canonical.emitChunk (h : s.Canonical) (f : Bool) (bs : BitString) : (s.emitChunk f bs).Canonical := by
  cases f with
  | false => exact h.setOutput (wholeBytes bs)
  | true => exact h.setOutput (wholeBytes bs ++ pack (leftover bs))

theorem State.Canonical.clearWeights (h : s.Canonical) : { s with weights := [] }.Canonical := by
  obtain ⟨hi, ho, -, -, hc⟩ := h
  exact ⟨hi, ho, List.Pairwise.nil, fun _ he => (nomatch he), hc⟩

/-- Rule R50: weight 0 unlists its letter, and any other weight is listed in its place. -/
theorem State.Canonical.setWeight (h : s.Canonical) (x : Nat) (w : BitVec 64) : (s.setWeight x w).Canonical := by
  obtain ⟨hi, ho, hw, hz, hc⟩ := h
  refine ⟨hi, ho, setWeight_wf hw x w, fun e he => ?_, hc⟩
  rw [State.setWeight_weights] at he
  split at he
  · exact hz e (Table.mem_erase he)
  · rename_i hne
    rcases Table.mem_insert he with rfl | he
    · exact hne
    · exact hz e he

theorem State.Canonical.writeIbufWord (h : s.Canonical) (j : Nat) (v : Word) : (s.writeIbufWord j v).Canonical := by
  obtain ⟨hi, hrest⟩ := h
  have hwf := writeIbufWord_wf hi j v
  unfold State.writeIbufWord at hwf ⊢
  split
  · rename_i hj
    rw [if_pos hj] at hwf
    exact ⟨hwf, hrest⟩
  · exact ⟨hi, hrest⟩

/-- Rules R345 and R346: an error only discards. -/
theorem State.Canonical.raise (h : s.Canonical) (cmd : Option Instr) (e : ErrCode) (info : Word) :
    (s.raise cmd e info).Canonical := by
  have hf : (s.failed e.code info).Canonical := h
  rw [State.raise_eq]
  dsimp only
  split <;> split
  · exact hf.withoutOutput.withoutTree
  · exact hf.withoutTree
  · exact hf.withoutOutput
  · exact hf

/-! ### Commands, host writes and the step -/

theorem Computes.canonical {i : Instr} (hc : Computes s i t) (h : s.Canonical) : t.Canonical := by
  cases hc with
  | sreset => exact s.canonical_resetBlock
  | wclr => exact h.clearWeights
  | build _ => exact h.installTree _ _
  | tser _ => exact h.setOutput _
  | tdes _ _ => exact h.installTree _ _
  | echunk _ _ _ => exact h.emitChunk _ _
  | dchunk _ _ _ _ => exact h.setOutput _
  | hbuild => exact h.setOutput _
  | hparse => exact h.installTree _ _
  | _ => exact h

theorem exec_canonical {i : Instr} (h : s.Canonical) (he : exec i s = .next t) : t.Canonical := by
  rcases exec_cases he with ⟨u, hu, rfl⟩ | ⟨e, info, -, rfl⟩
  · exact hu.canonical h
  · exact h.raise (some i) e info

theorem State.Canonical.memWrite (h : s.Canonical) (a : Nat) (v : Word) : (s.memWrite a v).Canonical := by
  cases hb : s.busy with
  | true => exact memWrite_busy hb ▸ h
  | false =>
    rcases memWrite_cases s a v hb with e | ⟨_, e⟩ | ⟨-, e⟩ | ⟨-, e⟩ | ⟨_, e⟩ | e | e | ⟨_, e⟩ | ⟨_, e⟩
      | ⟨x, half, -, e⟩ | ⟨j, e⟩ <;> rw [e]
    · exact h
    · exact h
    · exact h
    · exact h
    · exact h
    · exact h
    · exact h
    · exact h
    · exact h
    · exact h.setWeight x _
    · exact h.writeIbufWord j v

theorem step_canonical (h : s.Canonical) (hs : step s = .next t) : t.Canonical := by
  rcases step_cases s t hs with ⟨a, rest, -, -, rfl⟩ | ⟨a, v, rest, -, -, rfl⟩ | ⟨rest, -, rfl⟩
    | ⟨-, -, i, -, he⟩ | ⟨-, -, -, rfl⟩ | ⟨-, -, rfl⟩
  · exact h
  · exact h.memWrite a v
  · exact State.canonical_resetBlock _
  · have hu : { s with inputs := s.inputs.tail }.Canonical := h
    exact exec_canonical hu he
  · have hu : { s with inputs := s.inputs.tail }.Canonical := h
    exact hu.raise none .illegalCommand 0#32
  · exact h

end Canonical

/-- Settles O54: each kind of step that step_cases names keeps the canonical form. -/
theorem stepKeepsMemoryCanonical : Obligations.StepKeepsMemoryCanonical :=
  fun _ _ hi ho hw hz hc hs => step_canonical ⟨hi, ho, hw, hz, hc⟩ hs

end Sys2Proof.Machine
end

section
/-! SUPPORT. The registers as the host reads and writes them, and what a step can change of CMD, PEND and CURSOR
(rules R31 to R51, R62, R151, R251). -/

namespace Sys2Proof.Machine

section Registers

variable {s t : State}

/-! ### Register transactions -/

/-- The offsets of the registers are bus addresses of the register block (rules R80, R81). -/
theorem busAddress_of_regAt {a : Nat} {r : Reg} (h : regAt a = some r) : BusAddress a ∧ a < 0x1000 :=
  (by decide : ∀ e ∈ regMap, BusAddress e.1 ∧ e.1 < 0x1000) (a, r) (Table.lookup_mem h)

theorem reads_reg (hb : s.busy = false) {a : Nat} {r : Reg} (h : regAt a = some r) : s.reads a (s.readReg r) := by
  obtain ⟨ha, hlt⟩ := busAddress_of_regAt h
  rw [← memRead_reg hb hlt h]
  exact reads_memRead ha

theorem writes_reg (hb : s.busy = false) {a : Nat} {r : Reg} (h : regAt a = some r) (v : Word) :
    s.writes a v (s.writeReg r v) := by
  obtain ⟨ha, hlt⟩ := busAddress_of_regAt h
  rw [← memWrite_reg hb hlt h]
  exact writes_memWrite ha v

theorem writes_busy (hb : s.busy = true) {a : Nat} (ha : BusAddress a) (v : Word) :
    s.writes a v { s with drop := true } := by
  rw [← memWrite_busy (a := a) (v := v) hb]
  exact writes_memWrite ha v

/-- CMD reads as LAST_CMD, busy or not (rules R35, R343). -/
theorem reads_cmd (s : State) : s.reads 0x014 s.lastCmd := by
  have hm : s.memRead 0x014 = s.lastCmd := by
    cases hb : s.busy with
    | false => exact memRead_reg (r := .cmd) hb (by decide) rfl
    | true => simp [State.memRead, placeAt, show regAt 0x014 = some .cmd from rfl, State.readReg]
  exact hm ▸ reads_memRead (by decide)

/-! ### The fields of STATUS and PEND -/

/-- The flags of STATUS, from bit 0 up (rule R36). -/
def State.statusFlags (s : State) : List Bool := [s.busy, s.done, s.errs, s.drop, s.treeValid, s.irq]

theorem State.statusWord_eq (s : State) : s.statusWord = BitVec.ofNat 32 (bitsToNat s.statusFlags.reverse) := by
  simp only [State.statusWord, State.statusFlags, bitsToNat, List.reverse_cons, List.reverse_nil, List.nil_append,
    List.cons_append, List.foldl_cons, List.foldl_nil]
  congr 1
  omega

theorem State.getLsbD_statusWord (s : State) (b : Nat) : s.statusWord.getLsbD b = s.statusFlags.getD b false := by
  have hl : s.statusFlags.reverse.length = 6 := rfl
  rw [State.statusWord_eq, BitVec.getLsbD_ofNat]
  by_cases hb : b < 6
  · have hbit := testBit_bitsToNat s.statusFlags.reverse (5 - b) (by omega)
    rw [show s.statusFlags.reverse.length - 1 - (5 - b) = b by omega, List.getElem_reverse] at hbit
    rw [hbit, List.getD_eq_getElem _ _ hb]
    simp [show b < 32 by omega, State.statusFlags, show 5 - (5 - b) = b by omega]
  · have hlt := bitsToNat_lt s.statusFlags.reverse
    rw [Nat.testBit_lt_two_pow (hlt.trans_le (Nat.pow_le_pow_right (by omega) (by omega))), Bool.and_false,
      List.getD_eq_default _ _ (Nat.le_of_not_lt hb)]

/-- PEND_BYTE and PEND_BITS as a read of PEND shows them, and zeros above (rule R46). -/
theorem State.pendWord_fields (s : State) :
    s.pendWord.extractLsb' 0 8 = s.pendByte ∧ s.pendWord.extractLsb' 8 3 = s.pendBits
      ∧ s.pendWord.extractLsb' 11 21 = 0#21 := by
  refine ⟨?_, ?_, ?_⟩ <;> ext i hi
  · simp [State.pendWord, hi, show i < 32 by omega, BitVec.getLsbD_eq_getElem]
  · simp [State.pendWord, hi, show 8 + i < 32 by omega, BitVec.getLsbD_eq_getElem]
  · have hbyte : s.pendByte.getLsbD (11 + i) = false := BitVec.getLsbD_of_ge _ _ (by omega)
    have hbits : s.pendBits.getLsbD (11 + i - 8) = false := BitVec.getLsbD_of_ge _ _ (by omega)
    simp [State.pendWord, hbyte, hbits]

theorem State.ctrlWord_eq (s : State) : s.ctrlWord = if s.ie then 1#32 else 0#32 := by
  unfold State.ctrlWord
  cases s.ie <;> rfl

/-- The plain register writes (rules R34, R36, R39, R48). -/
theorem plain_writes (hb : s.busy = false) (v : Word) :
    s.writes 0x010 v { s with ie := v.getLsbD 0 }
    ∧ s.writes 0x018 v
        { s with
          done := if v.getLsbD 1 then false else s.done
          errs := if v.getLsbD 2 then false else s.errs
          drop := if v.getLsbD 3 then false else s.drop }
    ∧ s.writes 0x024 v { s with ibufLen := v }
    ∧ s.writes 0x048 v { s with streamLenLo := v }
    ∧ s.writes 0x04C v { s with streamLenHi := v } := by
  have hclear : ∀ f c : Bool, (f && !c) = if c then false else f := by decide
  have hstatus := writes_reg hb (a := 0x018) (r := .status) rfl v
  simp only [State.writeReg, State.clearStatus, hclear] at hstatus
  exact ⟨writes_reg hb (r := .ctrl) rfl v, hstatus, writes_reg hb (r := .ibufLen) rfl v,
    writes_reg hb (r := .streamLenLo) rfl v, writes_reg hb (r := .streamLenHi) rfl v⟩

/-- A read of STATUS while idle shows the flags bit by bit, IRQ as DONE and IE (rules R36, R350). -/
theorem reads_status (hb : s.busy = false) :
    ∃ v, s.reads 0x018 v ∧ v.getLsbD 0 = false ∧ v.getLsbD 1 = s.done ∧ v.getLsbD 2 = s.errs
      ∧ v.getLsbD 3 = s.drop ∧ v.getLsbD 4 = s.treeValid ∧ v.getLsbD 5 = (s.done && s.ie)
      ∧ ∀ b, 6 ≤ b → v.getLsbD b = false := by
  have hbit := s.getLsbD_statusWord
  exact ⟨s.statusWord, reads_reg hb (r := .status) rfl, (hbit 0).trans hb, hbit 1, hbit 2, hbit 3, hbit 4, hbit 5,
    fun b h => (hbit b).trans (List.getD_eq_default _ _ h)⟩

/-- STREAM_LEN_LO and STREAM_LEN_HI are the halves of STREAM_LEN (rule R48). -/
theorem State.streamLen_halves (s : State) :
    s.streamLen.extractLsb' 0 32 = s.streamLenLo ∧ s.streamLen.extractLsb' 32 32 = s.streamLenHi :=
  ⟨BitVec.extractLsb'_append_eq_right, BitVec.extractLsb'_append_eq_left⟩

/-- LK_BITS0 to LK_BITS7 stand word by word from 0x060 on (rule R51). -/
theorem regAt_lkBits (k : Fin 8) : regAt (0x060 + 4 * k.val) = some (.lkBits k) := by
  revert k; decide

/-! ### PEND (rules R46, R251) -/

/-- The low bits of PEND_BYTE that PEND_BITS does not cover are 0 (rule R46). -/
def State.PendOk (s : State) : Prop := s.pendByte &&& ~~~ highMask s.pendBits.toNat = 0#8

theorem State.pendOk_setPending (s : State) {r : BitString} (hr : r.length < 8) : (s.setPending r).PendOk := by
  unfold State.PendOk State.setPending
  rw [toNat_ofNat_of_lt hr]
  exact msbWord_and_not_highMask r

theorem State.pendOk_writePend (s : State) (w : Word) : (s.writePend w).PendOk := by
  unfold State.PendOk State.writePend
  rw [BitVec.and_assoc, BitVec.and_not_self]
  exact BitVec.and_zero

theorem State.pendOk_emitChunk (s : State) (f : Bool) (bs : BitString) : (s.emitChunk f bs).PendOk := by
  cases f with
  | false => exact State.pendOk_setPending _ (by rw [length_leftover]; omega)
  | true => exact State.pendOk_setPending (s.setOutput (wholeBytes bs ++ pack (leftover bs))) (r := []) (by decide)

theorem Computes.pendOk {i : Instr} (hc : Computes s i t) (h : s.PendOk) : t.PendOk := by
  cases hc with
  | sreset => exact BitVec.zero_and
  | estart => exact BitVec.zero_and
  | echunk _ _ _ => exact State.pendOk_emitChunk s _ _
  | _ => exact h

theorem State.PendOk.raise (h : s.PendOk) (cmd : Option Instr) (e : ErrCode) (info : Word) :
    (s.raise cmd e info).PendOk := by
  unfold State.PendOk
  rw [State.raise_pendByte, State.raise_pendBits]
  exact h

theorem exec_pendOk {i : Instr} (h : s.PendOk) (he : exec i s = .next t) : t.PendOk := by
  rcases exec_cases he with ⟨u, hu, rfl⟩ | ⟨e, info, -, rfl⟩
  · exact hu.pendOk h
  · exact h.raise (some i) e info

/-- A PEND write of what a good state's PEND reads as stores that state's PEND (rule R251). -/
theorem State.PendOk.writePend_pendWord (h : s.PendOk) (u : State) :
    u.writePend s.pendWord = { u with pendByte := s.pendByte, pendBits := s.pendBits } := by
  obtain ⟨hbyte, hbits, -⟩ := s.pendWord_fields
  have hbool : ∀ b m : Bool, (b && !m) = false → (b && m) = b := by decide
  have hmask : s.pendByte &&& highMask s.pendBits.toNat = s.pendByte := by
    refine BitVec.eq_of_getLsbD_eq fun i hi => ?_
    have hz := congrArg (BitVec.getLsbD · i) h
    simp only [BitVec.getLsbD_and, BitVec.getLsbD_not, BitVec.getLsbD_zero, hi, decide_true, Bool.true_and] at hz ⊢
    exact hbool _ _ hz
  unfold State.writePend
  rw [hbyte, hbits]
  dsimp only
  rw [hmask]

/-! ### What a host write can change of LAST_CMD and PEND -/

theorem State.writeIbufWord_eq (s : State) (j : Nat) (v : Word) : ∃ m, s.writeIbufWord j v = { s with ibuf := m } := by
  unfold State.writeIbufWord
  split
  · exact ⟨_, rfl⟩
  · exact ⟨s.ibuf, rfl⟩

/-- Only acceptance changes LAST_CMD, and only a PEND write changes PEND (rules R35, R46). -/
theorem memWrite_lastCmd_pend (s : State) (a : Nat) (v : Word) :
    ((s.memWrite a v).lastCmd = s.lastCmd ∨ (a = 0x014 ∧ s.busy = false ∧ (s.memWrite a v).lastCmd = v))
      ∧ (s.PendOk → (s.memWrite a v).PendOk) := by
  cases hb : s.busy with
  | true => rw [memWrite_busy hb]; exact ⟨.inl rfl, id⟩
  | false =>
    rcases memWrite_cases s a v hb with e | ⟨_, e⟩ | ⟨ha, e⟩ | ⟨-, e⟩ | ⟨_, e⟩ | e | e | ⟨_, e⟩ | ⟨_, e⟩
      | ⟨x, half, -, e⟩ | ⟨j, e⟩ <;> rw [e]
    · exact ⟨.inl rfl, id⟩
    · exact ⟨.inl rfl, id⟩
    · exact ⟨.inr ⟨ha, rfl, rfl⟩, id⟩
    · exact ⟨.inl rfl, id⟩
    · exact ⟨.inl rfl, id⟩
    · exact ⟨.inl rfl, fun _ => s.pendOk_writePend v⟩
    · exact ⟨.inl rfl, id⟩
    · exact ⟨.inl rfl, id⟩
    · exact ⟨.inl rfl, id⟩
    · exact ⟨.inl rfl, id⟩
    · obtain ⟨m, hm⟩ := s.writeIbufWord_eq j v
      rw [hm]
      exact ⟨.inl rfl, id⟩

theorem step_pendOk (h : s.PendOk) (hs : step s = .next t) : t.PendOk := by
  rcases step_cases s t hs with ⟨a, rest, -, -, rfl⟩ | ⟨a, v, rest, -, -, rfl⟩ | ⟨rest, -, rfl⟩
    | ⟨-, -, i, -, he⟩ | ⟨-, -, -, rfl⟩ | ⟨-, -, rfl⟩
  · exact h
  · exact (memWrite_lastCmd_pend s a v).2 h
  · exact BitVec.zero_and
  · exact exec_pendOk (s := { s with inputs := s.inputs.tail }) h he
  · exact State.PendOk.raise (s := { s with inputs := s.inputs.tail }) h none .illegalCommand 0#32
  · exact h

/-! ### LAST_CMD and SRESET (rules R35, R151) -/

theorem exec_sreset (s : State) : exec .sreset s = .next { s.resetBlock with lastCmd := 0x00000001#32 }.complete := rfl

theorem exec_lastCmd {i : Instr} (hi : i ≠ .sreset) (he : exec i s = .next t) : t.lastCmd = s.lastCmd := by
  rcases exec_cases he with ⟨u, hu, rfl⟩ | ⟨e, info, -, rfl⟩
  · cases hu with
    | sreset => exact absurd rfl hi
    | @echunk f _ _ _ _ => cases f <;> rfl
    | _ => rfl
  · exact State.raise_lastCmd s (some i) e info

/-- One word alone decodes to SRESET: every row's mask covers OP, so OP picks the row, and SRESET's row fixes every
bit (rules R116, R117). -/
theorem decode_sreset {w : Word} (h : decode w = .ok .sreset) : w = 0x00000001#32 := by
  have hmask : ∀ r ∈ opTable, r.mask.extractLsb' 0 8 = BitVec.allOnes 8 := by decide
  have hrow : ∀ r ∈ opTable, r.matchBits.extractLsb' 0 8 = 0x01#8 →
      r.matchBits = 0x00000001#32 ∧ r.mask = BitVec.allOnes 32 := by decide
  unfold decode at h
  split at h
  · cases h
  · rename_i i hc
    split at h
    · rename_i hl
      cases h
      have hop : opField w = 0x01#8 := by
        unfold commandOf at hc
        split at hc <;> cases hc
        rename_i hn
        exact BitVec.eq_of_toNat_eq hn
      obtain ⟨r, hr, hw⟩ := List.any_eq_true.1 hl
      have hw : w &&& r.mask = r.matchBits := eq_of_beq hw
      have hlow : r.matchBits.extractLsb' 0 8 = opField w := by
        rw [← hw, BitVec.extractLsb'_and, hmask r hr, BitVec.and_allOnes, opField]
      obtain ⟨hbits, hones⟩ := hrow r hr (hlow.trans hop)
      rwa [hones, hbits, BitVec.and_allOnes] at hw
    · cases h

/-- A step changes LAST_CMD by accepting a CMD write or by a hardware reset: SRESET, which writes its own word there,
was accepted as that word. -/
theorem step_lastCmd (hs : step s = .next t) (hne : t.lastCmd ≠ s.lastCmd) :
    (∃ v rest, s.inputs = .busWrite 0x014 4 v :: rest ∧ s.busy = false ∧ t.lastCmd = v)
      ∨ ∃ rest, s.inputs = .hardReset :: rest ∧ t.lastCmd = 0#32 := by
  rcases step_cases s t hs with ⟨a, rest, -, -, rfl⟩ | ⟨a, v, rest, -, hin, rfl⟩ | ⟨rest, hin, rfl⟩
    | ⟨-, -, i, hd, he⟩ | ⟨-, -, -, rfl⟩ | ⟨-, -, rfl⟩
  · exact absurd rfl hne
  · rcases (memWrite_lastCmd_pend s a v).1 with hkeep | ⟨rfl, hb, hv⟩
    · exact absurd hkeep hne
    · exact .inl ⟨v, rest, hin, hb, hv⟩
  · exact .inr ⟨rest, hin, rfl⟩
  · by_cases hi : i = .sreset
    · subst hi
      rw [exec_sreset] at he
      cases he
      exact absurd (decode_sreset hd).symm hne
    · exact absurd (exec_lastCmd hi he) hne
  · exact absurd (State.raise_lastCmd _ _ _ _) hne
  · exact absurd rfl hne

/-! ### CURSOR (rule R47) -/

/-- The condition of rule R47 on the index a host writes. -/
theorem State.writeCursor_eq (s : State) (w : Word) : ∃ c, s.writeCursor w = { s with cursor := c }
    ∧ (s.treeValid = true ∧ (w.extractLsb' 0 9).toNat < s.nodeCount.toNat
        ∧ internalAt s.nodes (w.extractLsb' 0 9) → c = w.extractLsb' 0 9)
    ∧ (¬ (s.treeValid = true ∧ (w.extractLsb' 0 9).toNat < s.nodeCount.toNat
        ∧ internalAt s.nodes (w.extractLsb' 0 9)) → c = s.root) := by
  refine ⟨_, rfl, ?_, ?_⟩
  · rintro ⟨hv, hlt, p, l, r, hn⟩
    exact if_pos (by simp only [hv, hlt, hn, decide_true, Node.isInternal_internal, Bool.and_self])
  · intro hno
    refine if_neg fun hk => hno ?_
    simp only [Bool.and_eq_true, decide_eq_true_eq] at hk
    obtain ⟨⟨hv, hlt⟩, hn⟩ := hk
    refine ⟨hv, hlt, ?_⟩
    split at hn
    · rename_i n hn'
      cases n with
      | leaf x p => cases hn
      | internal p l r => exact ⟨p, l, r, hn'⟩
    · cases hn

/-- The commands that start a stream or make a tree leave CURSOR = ROOT (rules R151, R176, R270). -/
theorem exec_cursor_root {i : Instr} (he : exec i s = .next t) (h0 : t.err = 0#8)
    (hi : i = .sreset ∨ i = .dstart ∨ i = .build ∨ (∃ p w, i = .tdes p w) ∨ i = .hparse) : t.cursor = t.root := by
  obtain ⟨u, hu, rfl⟩ := exec_success he h0
  rcases hi with rfl | rfl | rfl | ⟨p, w, rfl⟩ | rfl <;> cases hu <;> rfl

/-! ### Reset (rules R62, R151) -/

/-- Every state that reset leaves, whatever the parameters and the host's record, holds the reset table. -/
theorem State.resetTable_resetWith (p : Config.Params) (events : List Input) (record : List Word) (n : Nat) :
    { State.resetWith p with inputs := events, hostReads := record, draws := n }.ResetTable where
  constants := ⟨rfl, rfl, rfl⟩
  ctrl := rfl
  lastCmd := rfl
  status := rfl
  err := ⟨rfl, rfl⟩
  lengths := ⟨rfl, rfl⟩
  treeForm := ⟨rfl, rfl, rfl⟩
  treeShape := ⟨rfl, rfl⟩
  pend := (by decide : State.reset.pendWord = 0#32)
  cursor := rfl
  streamLen := ⟨rfl, rfl⟩
  dataOff := rfl
  lookup := ⟨rfl, (by decide : ∀ k, (h : k < 8) → State.reset.lkBits[k] = 0#32)⟩
  weights := fun _ => rfl
  nodes := rfl
  codes := fun _ => rfl
  ibuf := fun _ => rfl
  obuf := fun _ => rfl

end Registers

/-! ### The statements -/

/-- Settles O5: the CMD transactions are register transactions, and step_lastCmd says what changes LAST_CMD. -/
theorem cmdRegister : Obligations.CmdRegister :=
  ⟨fun _ w hb => writes_reg hb (r := .cmd) rfl w,
   fun _ w hb => writes_busy hb (by decide) w,
   reads_cmd,
   rfl,
   fun _ _ => step_lastCmd,
   fun s t h => by rw [exec_sreset] at h; cases h; rfl⟩

/-- Settles O10: the states after reset, a hardware reset and SRESET are resetWith, but for the host's record. -/
theorem resetValues : Obligations.ResetValues :=
  ⟨State.resetTable_resetWith _ [] [] 0,
   fun s rest => ⟨_, rfl, State.resetTable_resetWith s.params rest s.hostReads s.draws⟩,
   fun s => ⟨_, exec_sreset s, rfl, rfl, State.resetTable_resetWith s.params s.inputs s.hostReads s.draws⟩⟩

/-- Settles O11: each register's offset is in the map, and readReg and writeReg are what the rules say. -/
theorem registerAccess : Obligations.RegisterAccess := by
  refine ⟨fun s v hb => plain_writes hb v, fun s hb => ?_⟩
  obtain ⟨hlo, hhi⟩ := s.streamLen_halves
  rw [← s.ctrlWord_eq, hlo, hhi]
  exact ⟨reads_reg hb (r := .id) rfl, reads_reg hb (r := .ibufSize) rfl, reads_reg hb (r := .obufSize) rfl,
    reads_reg hb (r := .ctrl) rfl, reads_cmd s, reads_reg hb (r := .err) rfl, reads_reg hb (r := .errInfo) rfl,
    reads_reg hb (r := .ibufLen) rfl, reads_reg hb (r := .obufLen) rfl, reads_reg hb (r := .treeLen) rfl,
    reads_reg hb (r := .treePad) rfl, reads_reg hb (r := .dataPad) rfl, reads_reg hb (r := .root) rfl,
    reads_reg hb (r := .nodeCount) rfl, ⟨s.pendWord, reads_reg hb (r := .pend) rfl, s.pendWord_fields⟩,
    reads_reg hb (r := .cursor) rfl, reads_reg hb (r := .streamLenLo) rfl, reads_reg hb (r := .streamLenHi) rfl,
    reads_reg hb (r := .dataOff) rfl, reads_reg hb (r := .lkLen) rfl,
    fun k hk => reads_reg hb (regAt_lkBits ⟨k, hk⟩), reads_status hb⟩

/-- Settles O12: a PEND write masks what it stores, reads give both fields, and every step keeps the mask. -/
theorem pendRegister : Obligations.PendRegister :=
  ⟨rfl, rfl,
   fun _ w hb => writes_reg hb (r := .pend) rfl w,
   fun s hb => ⟨s.pendWord, reads_reg hb (r := .pend) rfl, s.pendWord_fields⟩,
   fun _ _ hs h => step_pendOk h hs,
   fun s u v hb hreg hv hu => by
     obtain ⟨-, -, -, -, hpend⟩ := hreg
     rw [reads_inj hv (reads_reg hb (r := .pend) rfl), ← State.PendOk.writePend_pendWord hpend u]
     exact writes_reg hu (r := .pend) rfl s.pendWord⟩

/-- Settles O13: the WARL write by writeCursor_eq, the commands by what they compute, the place by the invariant. -/
theorem cursorRegister : Obligations.CursorRegister :=
  ⟨fun s w hb => by
     obtain ⟨c, hc, hrest⟩ := s.writeCursor_eq w
     exact ⟨c, hc ▸ writes_reg hb (r := .cursor) rfl w, hrest⟩,
   fun _ _ _ he h0 hi => exec_cursor_root he h0 hi,
   rfl,
   fun s h hv => by
     obtain ⟨hvalid, -⟩ := h.tree
     obtain ⟨-, -, -, -, -, hcursor⟩ := hvalid hv
     exact hcursor⟩

end Sys2Proof.Machine
end

section
/-! SUPPORT. The output buffer as the host and the commands see it, and what a command leaves of the buffers (rules
R56, R57, R83, R91, R383, R384). -/

namespace Sys2Proof.Machine

section Buffers

variable {s t : State}

/-! ### OBUF (rules R57, R91) -/

/-- OBUF holds the output bytes and no other, and OBUF_LEN counts them. -/
theorem State.BuffersOk.output (h : s.BuffersOk) :
    s.output.length = s.obufLen.toNat ∧ ∀ a, Memory.read s.obuf a = s.output[a]? := by
  obtain ⟨-, -, ⟨bs, hbs, hlen⟩, -⟩ := h
  have hout : s.output = bs := by rw [State.output, hbs, Memory.snd_ofBytes]
  rw [hout]
  exact ⟨hlen, fun a => by rw [hbs, Memory.read_ofBytes]⟩

/-- Lane order of an OBUF word (rule R83). -/
theorem State.extractLsb'_obufWord (s : State) (j : Nat) {lane : Nat} (h : lane < 4) :
    (s.obufWord j).extractLsb' (8 * lane) 8 = s.obufLane j lane := by
  have hlanes := laneBytes_append (s.obufLane j 3) (s.obufLane j 2) (s.obufLane j 1) (s.obufLane j 0)
  simp only [laneBytes, List.cons.injEq, and_true] at hlanes
  obtain ⟨h0, h1, h2, h3⟩ := hlanes
  match lane, h with
  | 0, _ => exact h0
  | 1, _ => exact h1
  | 2, _ => exact h2
  | 3, _ => exact h3

theorem State.BuffersOk.obufLane_defined (h : s.BuffersOk) {j lane : Nat} (hl : j + lane < s.obufLen.toNat) :
    some (s.obufLane j lane) = s.output[j + lane]? := by
  obtain ⟨hlen, hread⟩ := h.output
  simp only [State.obufLane, if_pos hl, hread, List.getElem?_eq_getElem (hlen ▸ hl), Option.getD_some]

theorem State.obufLane_free {j lane : Nat} (hl : s.obufLen.toNat ≤ j + lane) :
    s.obufLane j lane = (Config.freeWord s.draws).extractLsb' (8 * lane) 8 := if_neg (Nat.not_lt_of_le hl)

/-- The OBUF window stands above the IBUF window, whatever the legal parameters (rule R81). -/
theorem placeAt_obuf {p : Config.Params} (hp : p.Valid) {j : Nat} (hj : j < p.obufBytes) :
    placeAt p (0x4000000 + j) = .obuf j := by
  obtain ⟨-, -, hle⟩ := hp
  unfold placeAt
  rw [if_neg (by omega), if_neg (by omega), if_neg (by omega), if_neg (by omega), if_neg (by omega),
    if_pos (by omega), Nat.add_sub_cancel_left]

theorem busAddress_obuf {p : Config.Params} (hp : p.Valid) {j : Nat} (h4 : j % 4 = 0) (hj : j < p.obufBytes) :
    BusAddress (0x4000000 + j) := by
  obtain ⟨-, -, hle⟩ := hp
  unfold Config.Params.obufBytes at hj
  constructor <;> omega

theorem memRead_obuf (hp : s.params.Valid) (hb : s.busy = false) {j : Nat} (hj : j < s.params.obufBytes) :
    s.memRead (0x4000000 + j) = s.obufWord j := by
  simp [State.memRead, hb, placeAt_obuf hp hj]

theorem memWrite_obuf (hp : s.params.Valid) (hb : s.busy = false) {j : Nat} (hj : j < s.params.obufBytes) (v : Word) :
    s.memWrite (0x4000000 + j) v = s := by
  simp [State.memWrite, hb, placeAt_obuf hp hj]

/-! ### What a command leaves of the buffers -/

theorem State.emitChunk_ibuf (s : State) (f : Bool) (bs : BitString) : (s.emitChunk f bs).ibuf = s.ibuf := by
  cases f <;> rfl

/-- Rule R384: no command but SRESET stores to IBUF. -/
theorem exec_ibuf {i : Instr} (hi : i ≠ .sreset) (he : exec i s = .next t) : t.ibuf = s.ibuf := by
  rcases exec_cases he with ⟨u, hu, rfl⟩ | ⟨e, info, -, rfl⟩
  · cases hu with
    | sreset => exact absurd rfl hi
    | echunk _ _ _ => exact s.emitChunk_ibuf _ _
    | _ => rfl
  · exact State.raise_ibuf s (some i) e info

/-- Rule R40: a command that is neither an output command nor SRESET keeps OBUF. -/
theorem exec_obuf {i : Instr} (hi : i ≠ .sreset) (ho : isOutputCommand i = false) (he : exec i s = .next t) :
    t.obuf = s.obuf := by
  rcases exec_cases he with ⟨u, hu, rfl⟩ | ⟨e, info, -, rfl⟩
  · cases hu with
    | sreset => exact absurd rfl hi
    | tser _ => cases ho
    | echunk _ _ _ => cases ho
    | dchunk _ _ _ _ => cases ho
    | hbuild => cases ho
    | _ => rfl
  · simp [discardsOutput, ho]

/-- DCHUNK emits at most a letter a bit, so that its output fits OBUF (rules R8, R272). -/
theorem State.Inv.setOutput_decoded (h : s.Inv) (hn : s.ibufLen.toNat ≤ s.params.ibufBytes) {l : Bool} {dpad : Nat}
    {c : BitVec 9} {out : List Byte} (hd : decodeBits s (chunkBits s.ibufLen.toNat l dpad) 0 s.cursor = .ok (c, out)) :
    (s.setOutput out).Inv := by
  obtain ⟨hlen, -⟩ := decodeBits_ok hd
  have hbits : chunkBits s.ibufLen.toNat l dpad ≤ 8 * s.ibufLen.toNat := by unfold chunkBits; split <;> omega
  exact h.setOutput (by unfold Config.Params.obufBytes; omega)

/-- An output command leaves good buffers, whatever its operands. -/
theorem exec_buffersOk {i : Instr} (h : s.Inv) (ho : isOutputCommand i = true) (he : exec i s = .next t) :
    t.BuffersOk := by
  rcases exec_cases he with ⟨u, hu, rfl⟩ | ⟨e, info, hb, rfl⟩
  · cases hu with
    | tser hv => exact ((Computes.tser hv).inv h rfl).buffers
    | echunk hn hv hc => exact ((Computes.echunk hn hv hc).inv h rfl).buffers
    | dchunk hn _ hd _ => exact (h.setOutput_decoded hn hd).buffers
    | hbuild => exact (Computes.hbuild.inv h rfl).buffers
    | _ => cases ho
  · have hmem : e ∈ errorsOf i := body_error hb
    exact (h.raise (some i) (fun hio => ioError_not_mem_errorsOf i (hio ▸ hmem)) info).buffers

/-! ### LOOKUP (rules R51, R200) -/

theorem getLsbD_codeWord (bs : BitString) (k : Nat) {b : Nat} (h : b < 32) :
    (codeWord bs k).getLsbD (31 - b) = bs.getD (32 * k + b) false := by
  have hbit := getLsbD_msbWord 32 (bs.drop (32 * k)) b h
  rw [List.getD_eq_getElem?_getD, List.getElem?_drop, ← List.getD_eq_getElem?_getD] at hbit
  exact hbit

theorem State.setLookup_lkBits_getElem (s : State) (bs : BitString) {k : Nat} (h : k < 8) :
    (s.setLookup bs).lkBits[k] = codeWord bs k := by
  match k, h with
  | 0, _ => rfl
  | 1, _ => rfl
  | 2, _ => rfl
  | 3, _ => rfl
  | 4, _ => rfl
  | 5, _ => rfl
  | 6, _ => rfl
  | 7, _ => rfl

/-- The detail value of an absent letter (rule R332). -/
theorem detail_letter (x : Byte) : detail x.toNat 0 = x.setWidth 32 <<< 24 := by
  simp [detail, BitVec.ofNat_toNat]

theorem exec_lookup_present {x : Nat} {bs : BitString} (hv : s.treeValid = true) (hx : s.code x = some bs) :
    exec (.lookup x) s = .next (s.setLookup bs).succeeded := exec_of_computes (.lookup hv hx)

theorem exec_lookup_absent {x : Byte} (hv : s.treeValid = true) (hx : s.code x.toNat = none) :
    exec (.lookup x.toNat) s = .next (s.failed 0x02#8 (x.setWidth 32 <<< 24)) := by
  have hbody : body (.lookup x.toNat) s = .error (.err .missingCode (detail x.toNat 0)) := by simp [body, hv, hx]
  rw [exec_eq, hbody, finish_err, State.raise_eq, detail_letter]
  rfl

end Buffers

/-! ### The statements -/

/-- Settles O18: the lanes of a word are obufLane's, which below OBUF_LEN reads the output. -/
theorem obufWindow : Obligations.ObufWindow := by
  intro s j h hb h4 hj
  have ha := busAddress_obuf h.params h4 hj
  refine ⟨fun v => ?_, s.obufWord j, ?_, fun lane hl => ?_⟩
  · have hw := writes_memWrite (s := s) ha v
    rwa [memWrite_obuf h.params hb hj] at hw
  · have hr := reads_memRead (s := s) ha
    rwa [memRead_obuf h.params hb hj] at hr
  · rw [s.extractLsb'_obufWord j hl]
    exact ⟨h.buffers.obufLane_defined, State.obufLane_free⟩

/-- Settles O50: each command by what it computes, and the output commands by the buffers they leave. -/
theorem memoryFrame : Obligations.MemoryFrame := by
  intro s t i hi he
  refine ⟨fun a => by rw [exec_ibuf hi he], fun h1 h2 h3 h4 a => ?_, fun ho h => ?_⟩
  · have ho : isOutputCommand i = false := by
      cases i with
      | tser => exact absurd rfl h1
      | echunk f => exact absurd rfl (h2 f)
      | dchunk l p => exact absurd rfl (h3 l p)
      | hbuild => exact absurd rfl h4
      | _ => rfl
    rw [exec_obuf hi ho he]
  · have ho : isOutputCommand i = true := by
      rcases ho with rfl | ⟨f, rfl⟩ | ⟨l, p, rfl⟩ | rfl <;> rfl
    obtain ⟨hlen, hread⟩ := (exec_buffersOk h ho he).output
    refine ⟨fun a ha => ⟨_, (hread a).trans (List.getElem?_eq_getElem (hlen ▸ ha))⟩, fun a ha => ?_⟩
    rw [hread, List.getElem?_eq_none (hlen ▸ ha)]

/-- Settles O26: LOOKUP of a present letter computes setLookup of its code, which has at most 255 bits. -/
theorem lookupResult : Obligations.LookupResult := by
  intro s x h hv
  refine ⟨fun bs hx => ⟨_, _, exec_lookup_present hv hx, ?_, fun k hk b hb => ?_⟩, exec_lookup_absent hv⟩
  · have hlen := h.code_length_le hv hx
    exact toNat_ofNat_of_lt (by omega)
  · exact (congrArg (BitVec.getLsbD · (31 - b)) (s.setLookup_lkBits_getElem bs hk)).trans (getLsbD_codeWord bs k hb)

end Sys2Proof.Machine
end

section
/-! SUPPORT. What the invariant says of a valid tree: its records are one tree (rule R53), and no code begins
another (rule R55). -/

namespace Sys2Proof.Machine

section TreeFacts

variable {s t : State}

/-! ### The records (rule R53) -/

/-- Every index of a tree but its root's is named as a child, once. -/
theorem ITree.childIndices_records (t : ITree) : (t.idx.toNat :: childIndices t.records).Perm t.indices := by
  induction t with
  | leaf i x w => exact .refl _
  | node i w l r ihl ihr =>
    have hcons : childIndices (ITree.node i w l r).records
        = l.idx.toNat :: r.idx.toNat :: (childIndices l.records ++ childIndices r.records) := by
      simp [childIndices, ITree.records]
    rw [hcons, ITree.indices, ITree.idx_node]
    exact .cons _ ((List.Perm.cons _ List.perm_middle.symm).trans (ihl.append ihr))

theorem ProperTree.root_lt {N : List Node} {r : BitVec 9} (h : ProperTree N r) : r.toNat < N.length := by
  obtain ⟨t, rfl, hh, -⟩ := h.holds
  exact hh.idx_lt

theorem ProperTree.childIndices_perm {N : List Node} {r : BitVec 9} (h : ProperTree N r) :
    (childIndices N).Perm ((List.range N.length).erase r.toNat) := by
  obtain ⟨t, rfl, hh, hp, -⟩ := h.holds
  have hrec : (childIndices N).Perm (childIndices t.records) := (ITree.records_perm hh hp).symm.flatMap_right _
  have hall : (t.idx.toNat :: childIndices N).Perm (List.range N.length) :=
    ((hrec.cons _).trans t.childIndices_records).trans hp
  exact (List.cons_perm_iff_perm_erase.1 hall).2

/-! ### The codes (rule R55) -/

theorem Shape.prefix_of_mem_paths {t : Shape} {p : BitString} {e : Nat × BitString} (h : e ∈ t.paths p) : p <+: e.2 := by
  induction t generalizing p with
  | leaf x => simp only [Shape.paths, List.mem_singleton] at h; subst h; exact List.prefix_refl _
  | node l r ihl ihr =>
    simp only [Shape.paths, List.mem_append] at h
    rcases h with h | h
    · exact (List.prefix_append _ _).trans (ihl h)
    · exact (List.prefix_append _ _).trans (ihr h)

/-- A path that goes left and one that goes right part at that bit. -/
theorem not_prefix_of_branch {p q q' : BitString} {b : Bool} (h : p ++ [b] <+: q) (h' : p ++ [!b] <+: q') : ¬ q <+: q' := by
  intro hq
  have heq := List.prefix_of_prefix_length_le (h.trans hq) h' (by simp)
  have hbit := (List.prefix_append_right_inj p).1 heq
  cases b <;> simp at hbit

/-- No leaf of a shape lies on the path to another. -/
theorem Shape.paths_prefixFree {t : Shape} {p : BitString} {d e : Nat × BitString} (hd : d ∈ t.paths p)
    (he : e ∈ t.paths p) (h : d.2 <+: e.2) : d = e := by
  induction t generalizing p with
  | leaf x =>
    simp only [Shape.paths, List.mem_singleton] at hd he
    rw [hd, he]
  | node l r ihl ihr =>
    simp only [Shape.paths, List.mem_append] at hd he
    rcases hd with hd | hd <;> rcases he with he | he
    · exact ihl hd he
    · exact absurd h (not_prefix_of_branch (prefix_of_mem_paths hd) (prefix_of_mem_paths he))
    · exact absurd h (not_prefix_of_branch (prefix_of_mem_paths hd) (prefix_of_mem_paths he))
    · exact ihr hd he

theorem Shape.codeEntries_prefixFree {t : Shape} {d e : Nat × BitString} (hd : d ∈ t.codeEntries)
    (he : e ∈ t.codeEntries) (h : d.2 <+: e.2) : d = e := by
  cases t with
  | leaf x =>
    simp only [Shape.codeEntries, List.mem_singleton] at hd he
    rw [hd, he]
  | node l r => exact Shape.paths_prefixFree hd he h

/-- The code table of a proper tree answers the entries of its shape (rules R54, R180). -/
theorem ProperTree.exists_codeEntries {N : List Node} {r : BitVec 9} (h : ProperTree N r) :
    ∃ sh : Shape, ∀ k p, Table.lookup (deriveCodes N r) k = some p ↔ (k, p) ∈ sh.codeEntries := by
  obtain ⟨t, rfl, hh, -, hn, -, h256⟩ := h.holds
  have hd : t.shape.depth ≤ Config.maxNodes := by have := t.shape.depth_le; unfold Config.maxNodes; omega
  refine ⟨t.shape, fun k p => ?_⟩
  rw [deriveCodes, codeEntries_eq hh hd]
  refine lookup_codeTable ?_ k p
  rw [Shape.codeEntries_letters]
  exact List.Nodup.map (fun _ _ => BitVec.eq_of_toNat_eq) hn

theorem State.Inv.code_eq (h : s.Inv) (hv : s.treeValid = true) (x : Nat) :
    s.code x = Table.lookup (deriveCodes s.nodes s.root) x := by
  obtain ⟨hvalid, -⟩ := h.tree
  obtain ⟨-, -, hcodes, -⟩ := hvalid hv
  rw [State.code, hcodes]

/-! ### The weights (rule R53) -/

theorem exec_build_weightsAdd (he : exec .build s = .next t) (h0 : t.err = 0#8) : WeightsAdd t.nodes := by
  obtain ⟨u, hu, rfl⟩ := exec_success he h0
  cases hu with
  | build hne =>
    obtain ⟨-, -, -, -, -, hN⟩ := buildTree_proper s hne
    exact hN.weightsAdd

theorem exec_parse_weights {i : Instr} (hi : (∃ p w, i = .tdes p w) ∨ i = .hparse) (he : exec i s = .next t)
    (h0 : t.err = 0#8) : ∀ n ∈ t.nodes, n.weight = 0#72 := by
  obtain ⟨u, hu, rfl⟩ := exec_success he h0
  rcases hi with ⟨p, w, rfl⟩ | rfl
  · cases hu with
    | tdes _ _ => exact fun _ hn => Shape.weight_of_mem_records hn
  · cases hu with
    | hparse => exact fun _ hn => Shape.weight_of_mem_records hn

end TreeFacts

/-! ### The statements -/

/-- Settles O32: the invariant's proper tree, whose child indices are all indices but the root. -/
theorem recordsFormOneTree : Obligations.RecordsFormOneTree := by
  refine ⟨fun s h hv => ?_, fun _ _ => exec_build_weightsAdd, fun _ _ _ => exec_parse_weights, fun s h hv => ?_⟩
  · obtain ⟨hvalid, -⟩ := h.tree
    obtain ⟨hp, hcount, -⟩ := hvalid hv
    have hlen := hp.count
    have hpos := hp.someLeaf
    exact ⟨⟨leafCount s.nodes, hpos, hp.fewLeaves, by omega, by omega, rfl⟩, hcount ▸ hp.root_lt,
      hp.childIndices_perm, hp.reaches, hp.letters⟩
  · obtain ⟨-, hnone⟩ := h.tree
    obtain ⟨-, hcount, hroot, -⟩ := hnone hv
    exact ⟨hcount, hroot⟩

/-- Settles O34: the codes are the paths to distinct leaves of the tree. -/
theorem codesArePrefixFree : Obligations.CodesArePrefixFree := by
  intro s h hv
  have htree := h.properTree hv
  obtain ⟨sh, hsh⟩ := htree.exists_codeEntries
  refine ⟨fun x y p q hx hy hxy hpq => hxy ?_, fun x p hx => ?_⟩
  · rw [h.code_eq hv, hsh] at hx hy
    exact congrArg Prod.fst (Shape.codeEntries_prefixFree hx hy hpq)
  · rw [h.code_eq hv] at hx
    exact htree.code_length hx

end Sys2Proof.Machine
end

section
/-! SUPPORT. The memory map: what stands at each address of the register block and of the windows, and the windows of
WEIGHT, CODE, NODE and IBUF as the host reads and writes them (rules R80, R81, R83 to R90). -/

namespace Sys2Proof.Machine

section Windows

variable {s : State} {p : Config.Params} {a : Nat}

/-! ### Places (rules R81, R84, R85) -/

/-- The word a place reads as while idle (rule R84). -/
def State.readPlace (s : State) : Place → Word
  | .reg r => s.readReg r
  | .weight x h => s.weightWord x h
  | .code x m => s.codeWindowWord x m
  | .node i m => s.nodeWindowWord i m
  | .ibuf _ => 0#32
  | .obuf j => s.obufWord j
  | .nothing => 0#32

/-- The state a write of v to a place leaves while idle (rule R85). -/
def State.writePlace (s : State) (v : Word) : Place → State
  | .reg r => s.writeReg r v
  | .weight x h => s.writeWeight x h v
  | .ibuf j => s.writeIbufWord j v
  | .code _ _ => s
  | .node _ _ => s
  | .obuf _ => s
  | .nothing => s

theorem memRead_idle (hb : s.busy = false) (a : Nat) : s.memRead a = s.readPlace (placeAt s.params a) := by
  rw [State.memRead, hb]
  cases placeAt s.params a <;> rfl

theorem memWrite_idle (hb : s.busy = false) (a : Nat) (v : Word) :
    s.memWrite a v = s.writePlace v (placeAt s.params a) := by
  rw [State.memWrite, hb]
  cases placeAt s.params a <;> rfl

theorem reads_place (hb : s.busy = false) (ha : BusAddress a) {P : Place} (h : placeAt s.params a = P) :
    s.reads a (s.readPlace P) := by
  rw [← h, ← memRead_idle hb]
  exact reads_memRead ha

theorem writes_place (hb : s.busy = false) (ha : BusAddress a) {P : Place} (h : placeAt s.params a = P) (v : Word) :
    s.writes a v (s.writePlace v P) := by
  rw [← h, ← memWrite_idle hb]
  exact writes_memWrite ha v

/-! ### The address map (rule R81) -/

theorem placeAt_weight {x h : Nat} (hx : x < 256) (hh : h < 2) (ha : a = 0x1000 + 8 * x + 4 * h) :
    placeAt p a = .weight x h := by
  rw [placeAt, if_neg (by omega), if_pos (by omega), show (a - 0x1000) / 8 = x by omega,
    show (a - 0x1000) / 4 % 2 = h by omega]

theorem placeAt_code {x m : Nat} (hx : x < 256) (hm : m < 16) : placeAt p (0x2000 + 64 * x + 4 * m) = .code x m := by
  rw [placeAt, if_neg (by omega), if_neg (by omega), if_pos (by omega),
    show (0x2000 + 64 * x + 4 * m - 0x2000) / 64 = x by omega,
    show (0x2000 + 64 * x + 4 * m - 0x2000) / 4 % 16 = m by omega]

theorem placeAt_node {i m : Nat} (hi : i < 512) (hm : m < 8) : placeAt p (0x8000 + 32 * i + 4 * m) = .node i m := by
  rw [placeAt, if_neg (by omega), if_neg (by omega), if_neg (by omega), if_pos (by omega),
    show (0x8000 + 32 * i + 4 * m - 0x8000) / 32 = i by omega,
    show (0x8000 + 32 * i + 4 * m - 0x8000) / 4 % 8 = m by omega]

theorem placeAt_ibuf {j : Nat} (hj : j < p.ibufBytes) : placeAt p (0x1000000 + j) = .ibuf j := by
  rw [placeAt, if_neg (by omega), if_neg (by omega), if_neg (by omega), if_neg (by omega), if_pos (by omega),
    Nat.add_sub_cancel_left]

/-- The addresses at which nothing stands: the holes of the register block and the gaps about the windows. -/
theorem placeAt_unmapped (hp : p.Valid)
    (h : a = 0x00C ∨ a = 0x058 ∨ a = 0x05C ∨ (0x080 ≤ a ∧ a < 0x1000) ∨ (0x1800 ≤ a ∧ a < 0x2000)
      ∨ (0x6000 ≤ a ∧ a < 0x8000) ∨ (0xC000 ≤ a ∧ a < 0x1000000)
      ∨ (0x1000000 + p.ibufBytes ≤ a ∧ a < 0x4000000) ∨ 0x4000000 + p.obufBytes ≤ a) :
    placeAt p a = .nothing := by
  obtain ⟨-, -, hle⟩ := hp
  unfold placeAt
  by_cases hlow : a < 0x1000
  · have hreg : regAt a = none := by
      cases hr : regAt a with
      | none => rfl
      | some r =>
        have hmap := (by decide : ∀ e ∈ regMap, e.1 < 0x080 ∧ e.1 ≠ 0x00C ∧ e.1 ≠ 0x058 ∧ e.1 ≠ 0x05C)
          (a, r) (Table.lookup_mem hr)
        dsimp only at hmap
        omega
    rw [if_pos hlow, hreg]
  · rw [if_neg hlow, if_neg (by omega), if_neg (by omega), if_neg (by omega), if_neg (by omega), if_neg (by omega)]

/-- A register that a host write changes, or acts through, is one of the eight at these offsets (rule R85). -/
theorem writeReg_of_regAt {r : Reg} (h : regAt a = some r)
    (ha : a ∉ [0x010, 0x014, 0x018, 0x024, 0x040, 0x044, 0x048, 0x04C]) (v : Word) : s.writeReg r v = s := by
  have hr : r ∉ [Reg.ctrl, .cmd, .status, .ibufLen, .pend, .cursor, .streamLenLo, .streamLenHi] :=
    (by decide : ∀ e ∈ regMap, e.1 ∉ [0x010, 0x014, 0x018, 0x024, 0x040, 0x044, 0x048, 0x04C] →
      e.2 ∉ [Reg.ctrl, .cmd, .status, .ibufLen, .pend, .cursor, .streamLenLo, .streamLenHi])
      (a, r) (Table.lookup_mem h) ha
  cases r with
  | ctrl | cmd | status | ibufLen | pend | cursor | streamLenLo | streamLenHi => exact absurd (by decide) hr
  | _ => rfl

/-- Outside the writable registers, the weight window and IBUF, a write changes nothing (rules R81, R85). -/
theorem writePlace_readOnly (ha : a ∉ [0x010, 0x014, 0x018, 0x024, 0x040, 0x044, 0x048, 0x04C])
    (hw : ¬ (0x1000 ≤ a ∧ a < 0x1800)) (hi : ¬ (0x1000000 ≤ a ∧ a < 0x1000000 + p.ibufBytes)) (v : Word) :
    s.writePlace v (placeAt p a) = s := by
  rw [placeAt, if_neg hw, if_neg hi]
  split
  · cases hr : regAt a with
    | none => rfl
    | some r => exact writeReg_of_regAt hr ha v
  · split
    · rfl
    · split
      · rfl
      · split <;> rfl

/-! ### WEIGHT (rules R50, R87) -/

theorem State.weight_writeWeight (s : State) (x y h : Nat) (v : Word) :
    (s.writeWeight x h v).weight y = if y = x then
        (if h = 0 then (s.weight x).extractLsb' 32 32 ++ v else v ++ (s.weight x).extractLsb' 0 32)
      else s.weight y := by
  rw [State.writeWeight, State.weight_setWeight]
  simp only [eq_comm]

/-! ### CODE (rules R54, R88) -/

theorem State.codeWindowWord_absent {x : Nat} (hx : s.code x = none) (m : Nat) : s.codeWindowWord x m = 0#32 := by
  simp only [State.codeWindowWord, hx]

theorem State.codeWindowWord_present {x : Nat} {bs : BitString} (hx : s.code x = some bs) (m : Nat) :
    s.codeWindowWord x m = if m = 0 then 0x80000000#32 ||| BitVec.ofNat 32 (bs.length % 512)
      else if m ≤ 8 then codeWord bs (m - 1) else 0#32 := by
  simp only [State.codeWindowWord, hx]

/-- PRESENT and LEN, as word 0 of a code shows them. -/
theorem presentWord_fields {n : Nat} (hn : n < 2 ^ 9) :
    (0x80000000#32 ||| BitVec.ofNat 32 n).getLsbD 31 = true
      ∧ ((0x80000000#32 ||| BitVec.ofNat 32 n).extractLsb' 0 9).toNat = n
      ∧ (0x80000000#32 ||| BitVec.ofNat 32 n).extractLsb' 9 22 = 0#22 := by
  have htop : ∀ i, i < 31 → (0x80000000#32).getLsbD i = false := by decide
  have hlow : ∀ i, 9 ≤ i → n.testBit i = false := fun i hi =>
    Nat.testBit_lt_two_pow (hn.trans_le (Nat.pow_le_pow_right (by omega) hi))
  refine ⟨?_, ?_, ?_⟩
  · rw [BitVec.getLsbD_or]
    rfl
  · have hlen : (0x80000000#32 ||| BitVec.ofNat 32 n).extractLsb' 0 9 = BitVec.ofNat 9 n := by
      refine BitVec.eq_of_getLsbD_eq fun i hi => ?_
      simp only [BitVec.getLsbD_extractLsb', Nat.zero_add, BitVec.getLsbD_or, htop i (by omega), BitVec.getLsbD_ofNat,
        hi, show i < 32 by omega, decide_true, Bool.true_and, Bool.false_or]
    rw [hlen, toNat_ofNat_of_lt hn]
  · refine BitVec.eq_of_getLsbD_eq fun i hi => ?_
    simp only [BitVec.getLsbD_extractLsb', BitVec.getLsbD_or, htop (9 + i) (by omega), BitVec.getLsbD_ofNat,
      hlow (9 + i) (by omega), Nat.zero_testBit, Bool.and_false, Bool.or_false]

/-- Only a valid tree gives a letter a code (rules R54, R346). -/
theorem State.Inv.treeValid_of_code (h : s.Inv) {x : Nat} {bs : BitString} (hx : s.code x = some bs) :
    s.treeValid = true := by
  obtain ⟨-, hnone⟩ := h.tree
  by_contra hv
  obtain ⟨-, -, -, hcodes, -⟩ := hnone (by simpa using hv)
  rw [State.code, hcodes] at hx
  cases hx

/-! ### NODE (rules R52, R89) -/

/-- NODE_COUNT counts the valid records, at most 511 (rules R45, R53). -/
theorem State.Inv.nodeCount_eq (h : s.Inv) : s.nodeCount.toNat = s.nodes.length ∧ s.nodes.length ≤ 511 := by
  obtain ⟨hvalid, hnone⟩ := h.tree
  cases hv : s.treeValid with
  | true =>
    obtain ⟨hp, hcount, -⟩ := hvalid hv
    exact ⟨hcount, hp.length_le⟩
  | false =>
    obtain ⟨hn, hcount, -⟩ := hnone hv
    simp [hn, hcount]

theorem State.nodeWindowWord_invalid {i : Nat} (hi : s.nodeCount.toNat ≤ i) (m : Nat) : s.nodeWindowWord i m = 0#32 :=
  if_neg (Nat.not_lt_of_le hi)

theorem State.Inv.nodeWindowWord_valid (h : s.Inv) {i : Nat} {n : Node} (hn : s.nodes[i]? = some n) (m : Nat) :
    s.nodeWindowWord i m = n.windowWord m := by
  obtain ⟨hcount, -⟩ := h.nodeCount_eq
  obtain ⟨hi, -⟩ := List.getElem?_eq_some_iff.1 hn
  rw [State.nodeWindowWord, if_pos (hcount ▸ hi), hn]

theorem Node.windowWord_leaf (x : Byte) (w : BitVec 72) (m : Nat) : (Node.leaf x w).windowWord m
    = if m = 0 then 0xC0000000#32 ||| x.setWidth 32 else if m = 3 then w.extractLsb' 0 32
      else if m = 4 then w.extractLsb' 32 32 else if m = 5 then (w.extractLsb' 64 8).setWidth 32 else 0#32 :=
  match m with
  | 0 | 1 | 2 | 3 | 4 | 5 | _ + 6 => rfl

theorem Node.windowWord_internal (w : BitVec 72) (l r : BitVec 9) (m : Nat) : (Node.internal w l r).windowWord m
    = if m = 0 then 0x80000000#32 else if m = 1 then l.setWidth 32 else if m = 2 then r.setWidth 32
      else if m = 3 then w.extractLsb' 0 32 else if m = 4 then w.extractLsb' 32 32
      else if m = 5 then (w.extractLsb' 64 8).setWidth 32 else 0#32 :=
  match m with
  | 0 | 1 | 2 | 3 | 4 | 5 | _ + 6 => rfl

/-! ### IBUF (rules R83, R90) -/

/-- The four lanes of an IBUF word, and the bytes beside it. -/
theorem read_writeIbufWord_lanes {j : Nat} (hj : j + 3 < s.params.ibufBytes) (v : Word) :
    (∀ lane, lane < 4 → Memory.read (s.writeIbufWord j v).ibuf (j + lane) = some (v.extractLsb' (8 * lane) 8))
      ∧ ∀ b, b < j ∨ j + 4 ≤ b → Memory.read (s.writeIbufWord j v).ibuf b = Memory.read s.ibuf b := by
  refine ⟨fun lane hl => ?_, fun b hb => ?_⟩
  · rw [read_writeIbufWord s j _ v hj]
    match lane, hl with
    | 0, _ => simp
    | 1, _ => simp
    | 2, _ => simp
    | 3, _ => simp
  · rw [read_writeIbufWord s j _ v hj, if_neg (by omega), if_neg (by omega), if_neg (by omega), if_neg (by omega)]

/-! ### HBUILD (rules R94, R300) -/

/-- Two counts of three bits as the nibbles of a header byte. -/
theorem nibbles_or (t d : BitVec 3) :
    ((t.setWidth 8 <<< 4) ||| d.setWidth 8).extractLsb' 4 4 = t.setWidth 4
      ∧ ((t.setWidth 8 <<< 4) ||| d.setWidth 8).extractLsb' 0 4 = d.setWidth 4 := by
  revert t d; decide

/-- The big-endian bytes of a word give its number back (rule R14). -/
theorem bytesBE_toNat (w : Word) :
    (w.extractLsb' 24 8).toNat * 2 ^ 24 + (w.extractLsb' 16 8).toNat * 2 ^ 16 + (w.extractLsb' 8 8).toNat * 2 ^ 8
      + (w.extractLsb' 0 8).toNat = w.toNat := by
  have hlt := w.isLt
  simp only [BitVec.extractLsb'_toNat, Nat.shiftRight_eq_div_pow]
  omega

end Windows

/-! ### The statements -/

/-- Settles O7: admitted is exactly the rule's condition. -/
theorem unadmittedAccesses : Obligations.UnadmittedAccesses := by
  intro s a size v rest
  refine ⟨fun h => ?_, fun h => ?_⟩
  · have hno : ¬ admitted a size = true := fun ha => h (admitted_iff.1 ha)
    exact ⟨if_neg hno, if_neg hno⟩
  · have hyes : admitted a size = true := admitted_iff.2 h
    exact ⟨⟨_, if_pos hyes⟩, ⟨_, if_pos hyes⟩⟩

/-- Settles O14: the two words of a letter are the halves of its weight, and a write replaces one. -/
theorem weightWindow : Obligations.WeightWindow := by
  intro s x v hb hx
  have h0 : placeAt s.params (0x1000 + 8 * x) = .weight x 0 := placeAt_weight hx (by omega) (by omega)
  have h1 : placeAt s.params (0x1000 + 8 * x + 4) = .weight x 1 := placeAt_weight hx (by omega) (by omega)
  have a0 : BusAddress (0x1000 + 8 * x) := ⟨by omega, by omega⟩
  have a1 : BusAddress (0x1000 + 8 * x + 4) := ⟨by omega, by omega⟩
  exact ⟨reads_place hb a0 h0, reads_place hb a1 h1,
    ⟨_, writes_place hb a0 h0 v, fun y => s.weight_writeWeight x y 0 v⟩,
    ⟨_, writes_place hb a1 h1 v, fun y => s.weight_writeWeight x y 1 v⟩⟩

/-- Settles O15: a listed code has at most 255 bits, so LEN holds its length. -/
theorem codeWindow : Obligations.CodeWindow := by
  intro s x m h hb hx hm
  have hplace : placeAt s.params (0x2000 + 64 * x + 4 * m) = .code x m := placeAt_code hx hm
  have ha : BusAddress (0x2000 + 64 * x + 4 * m) := ⟨by omega, by omega⟩
  have hread : s.reads (0x2000 + 64 * x + 4 * m) (s.codeWindowWord x m) := reads_place hb ha hplace
  refine ⟨writes_place hb ha hplace, fun hc => State.codeWindowWord_absent hc m ▸ hread, fun bs hc => ?_⟩
  have hlen := h.code_length_le (h.treeValid_of_code hc) hc
  rw [State.codeWindowWord_present hc] at hread
  refine ⟨_, hread, fun h0 => ?_, fun h1 h8 b h32 => ?_, fun h9 => ?_⟩
  · rw [if_pos h0, Nat.mod_eq_of_lt (by omega)]
    exact presentWord_fields (by omega)
  · rw [if_neg (by omega), if_pos h8]
    exact getLsbD_codeWord bs (m - 1) h32
  · rw [if_neg (by omega), if_neg (by omega)]

/-- Settles O16: the valid records are those the list holds, at most 511. -/
theorem nodeWindow : Obligations.NodeWindow := by
  intro s i m h hb hi hm
  have hplace : placeAt s.params (0x8000 + 32 * i + 4 * m) = .node i m := placeAt_node hi hm
  have ha : BusAddress (0x8000 + 32 * i + 4 * m) := ⟨by omega, by omega⟩
  have hread : s.reads (0x8000 + 32 * i + 4 * m) (s.nodeWindowWord i m) := reads_place hb ha hplace
  have hinvalid : s.nodeCount.toNat ≤ i → s.reads (0x8000 + 32 * i + 4 * m) 0#32 :=
    fun hn => State.nodeWindowWord_invalid hn m ▸ hread
  obtain ⟨hcount, hle⟩ := h.nodeCount_eq
  refine ⟨writes_place hb ha hplace, hinvalid, fun h511 => hinvalid (by omega), fun x w hn => ?_, fun w l r hn => ?_⟩
  · rw [← Node.windowWord_leaf, ← h.nodeWindowWord_valid hn]
    exact hread
  · rw [← Node.windowWord_internal, ← h.nodeWindowWord_valid hn]
    exact hread

/-- Settles O17: below IBUF_BYTES the word is stored lane by lane, and from there on nothing stands in the window. -/
theorem ibufWindow : Obligations.IbufWindow := by
  intro s j v hp hb h4 hj
  obtain ⟨hp4, -, hle⟩ := id hp
  have ha : BusAddress (0x1000000 + j) := ⟨by omega, by omega⟩
  by_cases hin : j < s.params.ibufBytes
  · have hplace : placeAt s.params (0x1000000 + j) = .ibuf j := placeAt_ibuf hin
    obtain ⟨m, hm⟩ := s.writeIbufWord_eq j v
    have hlanes := read_writeIbufWord_lanes (s := s) (j := j) (by omega) v
    have hwrite : s.writes (0x1000000 + j) v (s.writeIbufWord j v) := writes_place hb ha hplace v
    rw [hm] at hlanes hwrite
    exact ⟨reads_place hb ha hplace, fun hout => absurd hin (Nat.not_lt_of_le hout), fun _ => ⟨m, hwrite, hlanes⟩⟩
  · have hplace : placeAt s.params (0x1000000 + j) = .nothing := placeAt_unmapped hp (by omega)
    exact ⟨reads_place hb ha hplace, fun _ => writes_place hb ha hplace v, fun h => absurd h hin⟩

/-- Settles O19: what stands at the other addresses takes no write, and at the unmapped ones nothing stands. -/
theorem readOnlyAndUnmapped : Obligations.ReadOnlyAndUnmapped := by
  intro s a hb ha
  refine ⟨fun hreg hw hi v => ?_, fun h hp => reads_place hb ha (placeAt_unmapped hp h)⟩
  have hwrite := writes_place hb ha rfl v
  rwa [writePlace_readOnly hreg hw hi] at hwrite

/-- Settles O25: HBUILD computes the header bytes of the three registers. -/
theorem hbuildResult : Obligations.HbuildResult := by
  intro s
  obtain ⟨htree, hdata⟩ := nibbles_or s.treePad s.dataPad
  exact ⟨_, _, _, _, _, exec_of_computes .hbuild, htree, hdata, bytesBE_toNat s.treeLen⟩

end Sys2Proof.Machine
end

section
/-! SUPPORT. Host statements (rules R124, R125): the run of a list of events, one step an event, that a command neither
reads nor changes the host's own record, and each pseudo-command as a run. -/

namespace Sys2Proof.Machine

/-! ### The decoder on the encoder's words (rules R110 to R117) -/

theorem statement_of_wellFormed (i : Instr) : Laws.Encoding.Statement i := by
  cases i with
  | nop => exact Laws.Encoding.nop
  | sreset => exact Laws.Encoding.sreset
  | wclr => exact Laws.Encoding.wclr
  | build => exact Laws.Encoding.build
  | lookup x => exact Laws.Encoding.lookup x
  | tser => exact Laws.Encoding.tser
  | tdes tpad lw => exact Laws.Encoding.tdes tpad lw
  | estart => exact Laws.Encoding.estart
  | echunk f => exact Laws.Encoding.echunk f
  | dstart => exact Laws.Encoding.dstart
  | dchunk l dpad => exact Laws.Encoding.dchunk l dpad
  | hbuild => exact Laws.Encoding.hbuild
  | hparse => exact Laws.Encoding.hparse

theorem legalWord_encode {i : Instr} (h : i.wellFormed = true) : legalWord (encode i) = true := by
  obtain ⟨r, hr, hw⟩ := statement_of_wellFormed i h
  exact List.any_eq_true.2 ⟨r, List.mem_of_getElem? hr, beq_iff_eq.2 hw⟩

/-- OP names the command, and its operand fields hold the operands. -/
theorem commandOf_encode {i : Instr} (h : i.wellFormed = true) : commandOf (encode i) = some i := by
  cases i with
  | lookup x =>
    have h : x < 256 := by simpa [Instr.wellFormed] using h
    have all : ∀ a b : Fin 16, commandOf (encode (.lookup (16 * a.val + b.val)))
        = some (.lookup (16 * a.val + b.val)) := by decide
    have hx := all ⟨x / 16, by omega⟩ ⟨x % 16, by omega⟩
    rwa [show 16 * (x / 16) + x % 16 = x by omega] at hx
  | tdes tpad lw =>
    have h : tpad < 8 ∧ lw < 16 := by simpa [Instr.wellFormed] using h
    have all : ∀ (p : Fin 8) (n : Fin 16), commandOf (encode (.tdes p.val n.val))
        = some (.tdes p.val n.val) := by decide
    exact all ⟨tpad, h.1⟩ ⟨lw, h.2⟩
  | echunk f => cases f <;> rfl
  | dchunk l dpad =>
    have h : dpad < 8 := by simpa [Instr.wellFormed] using h
    have all : ∀ (b : Bool) (p : Fin 8), commandOf (encode (.dchunk b p.val)) = some (.dchunk b p.val) := by decide
    exact all l ⟨dpad, h⟩
  | _ => rfl

theorem decode_encode {i : Instr} (h : i.wellFormed = true) : decode (encode i) = .ok i := by
  simp only [decode, commandOf_encode h, legalWord_encode h, if_true]

section HostRuns

variable {s t u : State} {es fs : List Input} {i : Instr}

/-! ### Commands and the host's own record -/

/-- s with other pending events and another record of the host's reads. -/
def State.withHost (s : State) (events : List Input) (record : List Word) (n : Nat) : State :=
  { s with inputs := events, hostReads := record, draws := n }

section Record

variable (s : State) (events : List Input) (record : List Word) (n : Nat)

@[simp] theorem State.withHost_streamLen : (s.withHost events record n).streamLen = s.streamLen := rfl
@[simp] theorem State.withHost_ibufLen : (s.withHost events record n).ibufLen = s.ibufLen := rfl
@[simp] theorem State.withHost_ibuf : (s.withHost events record n).ibuf = s.ibuf := rfl
@[simp] theorem State.withHost_treeValid : (s.withHost events record n).treeValid = s.treeValid := rfl
@[simp] theorem State.withHost_cursor : (s.withHost events record n).cursor = s.cursor := rfl
@[simp] theorem State.withHost_root : (s.withHost events record n).root = s.root := rfl
@[simp] theorem State.withHost_code (x : Nat) :
    (s.withHost events record n).code x = s.code x := rfl
@[simp] theorem ibufTooLong_withHost : ibufTooLong (s.withHost events record n) = ibufTooLong s := rfl
@[simp] theorem buildLeaves_withHost : buildLeaves (s.withHost events record n) = buildLeaves s := rfl
@[simp] theorem chunkCodes_withHost (k : Nat) :
    chunkCodes (s.withHost events record n) k 0 = chunkCodes s k 0 :=
  chunkCodes_congr (s := s.withHost events record n) (t := s) (fun _ _ => rfl) rfl k 0 (Nat.le_refl _)
@[simp] theorem decodeBits_withHost (k : Nat) (c : BitVec 9) :
    decodeBits (s.withHost events record n) k 0 c = decodeBits s k 0 c :=
  decodeBits_congr (s := s.withHost events record n) (t := s) (n := k) (fun _ _ => rfl) rfl rfl k 0 c (by omega)

theorem parseContainer_withHost (h : Byte) (L : Nat) :
    parseContainer (s.withHost events record n) h L = (parseContainer s h L).map (·.withHost events record n) := by
  simp only [parseContainer, State.withHost_streamLen, State.withHost_ibufLen, State.withHost_ibuf,
    apply_ite (Except.map _)]
  cases parseTree s.ibuf 5 (8 * L - (h.extractLsb' 4 4).toNat) <;> rfl

/-- No command's computation reads or changes the host's record. -/
theorem body_withHost (i : Instr) :
    body i (s.withHost events record n) = (body i s).map (·.withHost events record n) := by
  cases i with
  | build =>
    simp only [body, buildLeaves_withHost]
    cases buildLeaves s <;> rfl
  | lookup x =>
    simp only [body, State.withHost_treeValid, State.withHost_code, apply_ite (Except.map _)]
    cases s.code x <;> rfl
  | tser =>
    simp only [body, State.withHost_treeValid, apply_ite (Except.map _)]
    rfl
  | tdes tpad lw =>
    simp only [body, ibufTooLong_withHost, State.withHost_ibuf, State.withHost_ibufLen, apply_ite (Except.map _)]
    cases parseTree s.ibuf 0 (8 * s.ibufLen.toNat - tpad) <;> rfl
  | echunk f =>
    simp only [body, ibufTooLong_withHost, State.withHost_treeValid, State.withHost_ibufLen, chunkCodes_withHost,
      apply_ite (Except.map _)]
    cases chunkCodes s s.ibufLen.toNat 0 with
    | error e => rfl
    | ok bs => cases f <;> rfl
  | dchunk l dpad =>
    simp only [body, ibufTooLong_withHost, State.withHost_treeValid, State.withHost_ibufLen, State.withHost_cursor,
      decodeBits_withHost, apply_ite (Except.map _)]
    cases decodeBits s (chunkBits s.ibufLen.toNat l dpad) 0 s.cursor with
    | error e => rfl
    | ok r =>
      simp only [State.withHost_root, apply_ite (Except.map _)]
      rfl
  | hparse =>
    simp only [body, ibufTooLong_withHost, State.withHost_streamLen, State.withHost_ibufLen, State.withHost_ibuf,
      parseContainer_withHost, apply_ite (Except.map _)]
    cases readHeader s.ibuf <;> rfl
  | _ => rfl

theorem State.raise_withHost (cmd : Option Instr) (e : ErrCode) (info : Word) :
    (s.withHost events record n).raise cmd e info = (s.raise cmd e info).withHost events record n := by
  simp only [State.raise_eq]
  split <;> split <;> rfl

end Record

theorem exec_withHost (h : exec i s = .next t) (events : List Input) (record : List Word) (n : Nat) :
    exec i (s.withHost events record n) = .next (t.withHost events record n) := by
  rw [exec_eq] at h
  rw [exec_eq, body_withHost]
  rcases finish_next h with ⟨t, ht, rfl⟩ | ⟨e, info, he, rfl⟩
  · rw [ht]
    rfl
  · rw [he, ← State.raise_withHost]
    rfl

theorem exec_keeps_host (h : exec i s = .next t) : t = t.withHost s.inputs s.hostReads s.draws := by
  have hself := exec_withHost h s.inputs s.hostReads s.draws
  exact Host.Outcome.next.inj (h.symm.trans hself)

theorem exec_idle (h : exec i s = .next t) : t.busy = false := by
  rcases exec_cases h with ⟨u, -, rfl⟩ | ⟨e, info, -, rfl⟩
  · rfl
  · rfl

/-! ### Runs -/

theorem runSteps_add (m n : Nat) (s : State) : runSteps (m + n) s = (runSteps m s).bind (runSteps n) := by
  induction m generalizing s with
  | zero => rw [Nat.zero_add]; rfl
  | succ m ih =>
    rw [Nat.add_right_comm]
    simp only [runSteps]
    split
    · exact ih _
    · rfl
    · rfl

/-- The events es, whatever is pending after them, take s to t, one step each. -/
def State.Runs (s : State) (es : List Input) (t : State) : Prop :=
  ∀ rest, runSteps es.length { s with inputs := es ++ rest } = some { t with inputs := rest }

theorem State.Runs.nil (s : State) : s.Runs [] s := fun _ => rfl

theorem State.Runs.append (h : s.Runs es t) (h' : t.Runs fs u) : s.Runs (es ++ fs) u := by
  intro rest
  rw [List.length_append, runSteps_add, List.append_assoc, h]
  exact h' rest

theorem State.reads.runs {a : Nat} {v : Word} (h : s.reads a v) :
    s.Runs [.busRead a 4] { s with hostReads := v :: s.hostReads, draws := s.draws + 1 } := by
  intro rest
  simp only [List.length_singleton, List.singleton_append, runSteps, h rest]

theorem State.writes.runs {a : Nat} {v : Word} (h : s.writes a v t) : s.Runs [.busWrite a 4 v] t := by
  intro rest
  simp only [List.length_singleton, List.singleton_append, runSteps, h rest]

/-- The block's turn performs the accepted command (rule R340). -/
theorem runs_turn (hb : s.busy = true) (hd : decode s.lastCmd = .ok i) (h : exec i s = .next t) :
    s.Runs [.blockTurn] t := by
  intro rest
  have hstep : step { s with inputs := .blockTurn :: rest } = .next { t with inputs := rest } := by
    rw [exec_keeps_host h]
    exact (step_turn_ok (s := { s with inputs := .blockTurn :: rest }) (.inr ⟨rest, rfl⟩) hb hd).trans
      (exec_withHost h rest s.hostReads s.draws)
  simp only [List.length_singleton, List.singleton_append, runSteps, hstep]

/-! ### run (rules R125, R343) -/

/-- STATUS reads as it is, busy or not. -/
theorem reads_statusWord (s : State) : s.reads 0x018 s.statusWord := by
  have hm : s.memRead 0x018 = s.statusWord := by
    cases hb : s.busy with
    | false => exact memRead_reg (r := .status) hb (by decide) rfl
    | true => simp [State.memRead, placeAt, show regAt 0x018 = some .status from rfl, State.readReg]
  exact hm ▸ reads_memRead (by decide)

theorem runs_polls (s : State) (k : Nat) :
    s.Runs (List.replicate k (.busRead 0x018 4))
      { s with hostReads := List.replicate k s.statusWord ++ s.hostReads, draws := s.draws + k } := by
  induction k with
  | zero => exact State.Runs.nil s
  | succ k ih =>
    rw [List.replicate_succ']
    exact ih.append (reads_statusWord _).runs

/-- wait, from the state that has accepted a command: k busy polls, the command, and the poll that finds it done. -/
theorem runs_wait (hb : s.busy = true) (hd : decode s.lastCmd = .ok i) (h : exec i s = .next t) (k : Nat) :
    s.Runs (waitEvents k)
      { t with
        hostReads := t.statusWord :: (List.replicate k s.statusWord ++ s.hostReads)
        draws := s.draws + k + 1 } := by
  have hexec := exec_withHost h s.inputs (List.replicate k s.statusWord ++ s.hostReads) (s.draws + k)
  have hturn := (runs_polls s k).append (runs_turn hb hd hexec)
  have hlast := hturn.append (reads_statusWord _).runs
  rw [List.append_assoc] at hlast
  exact hlast

/-- run, from an idle block: the word is accepted, and then waited for. -/
theorem runs_run (hb : s.busy = false) (hi : i.wellFormed = true)
    (h : exec i (s.accept (encode i)) = .next t) (n k : Nat) :
    s.Runs ((Stmt.run i).events n k)
      { t with
        hostReads := t.statusWord :: (List.replicate k (s.accept (encode i)).statusWord ++ s.hostReads)
        draws := s.draws + k + 1 } := by
  rw [Stmt.events_run]
  exact (writes_reg hb (r := .cmd) rfl (encode i)).runs.append (runs_wait rfl (decode_encode hi) h k)

/-! ### weight (rules R87, R125) -/

/-- The numbers of the two words of weight are the halves of its number. -/
theorem weightHalves_append (w : Nat) :
    BitVec.ofNat 32 (w / 2 ^ 32) ++ BitVec.ofNat 32 (w % 2 ^ 32) = BitVec.ofNat 64 w := by
  refine BitVec.eq_of_toNat_eq ?_
  rw [BitVec.toNat_append, BitVec.toNat_ofNat, BitVec.toNat_ofNat, BitVec.toNat_ofNat, ← Nat.shiftLeft_add_eq_or_of_lt
    (Nat.mod_lt _ (by decide)), Nat.shiftLeft_eq]
  omega

theorem runs_weight (hb : s.busy = false) {x : Nat} (hx : x < 256) (w n k : Nat) :
    ∃ W, s.Runs ((Stmt.weight x w).events n k) { s with weights := W }
      ∧ ∀ y, { s with weights := W }.weight y = if y = x then BitVec.ofNat 64 w else s.weight y := by
  obtain ⟨-, -, ⟨W, hlow, hW⟩, -⟩ := weightWindow s x (BitVec.ofNat 32 (w % 2 ^ 32)) hb hx
  obtain ⟨-, -, -, V, hhigh, hV⟩ := weightWindow { s with weights := W } x (BitVec.ofNat 32 (w / 2 ^ 32)) hb hx
  rw [Nat.add_right_comm] at hhigh
  refine ⟨V, hlow.runs.append hhigh.runs, fun y => ?_⟩
  rw [hV, hW, hW, if_pos rfl, BitVec.extractLsb'_append_eq_right, weightHalves_append]
  split <;> rfl

/-! ### ibuf (rules R83, R90, R125) -/

theorem Stmt.events_ibuf (bs : List Byte) (n k : Nat) :
    (Stmt.ibuf bs).events n k
      = (List.range ((bs.length + 3) / 4)).map (fun j => Input.busWrite (0x1000000 + 4 * j) 4 (laneWord bs j))
        ++ [.busWrite 0x024 4 (BitVec.ofNat 32 bs.length)] := by
  simp [Stmt.events, Stmt.expand, Basic.events, List.flatMap_map, ← List.map_eq_flatMap]

theorem extractLsb'_laneWord (bs : List Byte) (j : Nat) {lane : Nat} (h : lane < 4) :
    (laneWord bs j).extractLsb' (8 * lane) 8 = bs.getD (4 * j + lane) 0#8 := by
  have hlanes := laneBytes_laneWord bs j
  simp only [laneBytes, List.range, List.range.loop, List.map_cons, List.map_nil, List.cons.injEq, and_true] at hlanes
  obtain ⟨h0, h1, h2, h3⟩ := hlanes
  match lane, h with
  | 0, _ => exact h0
  | 1, _ => exact h1
  | 2, _ => exact h2
  | 3, _ => exact h3

/-- The first m words of a byte string, written one after the other, stand in IBUF. -/
theorem runs_ibufWords (hb : s.busy = false) (hp : s.params.Valid) (bs : List Byte) (m : Nat)
    (hm : 4 * m ≤ s.params.ibufBytes) :
    ∃ M, s.Runs ((List.range m).map fun j => .busWrite (0x1000000 + 4 * j) 4 (laneWord bs j)) { s with ibuf := M }
      ∧ ∀ a, a < 4 * m → Memory.read M a = some (bs.getD a 0#8) := by
  induction m with
  | zero => exact ⟨s.ibuf, State.Runs.nil s, fun a ha => absurd ha (Nat.not_lt_zero a)⟩
  | succ m ih =>
    obtain ⟨M, hruns, hM⟩ := ih (by omega)
    have hle : s.params.ibufBytes ≤ 2 ^ 20 := by obtain ⟨-, -, hle⟩ := hp; exact hle
    obtain ⟨-, -, hbelow⟩ := ibufWindow { s with ibuf := M } (4 * m) (laneWord bs m) hp hb (by omega) (by omega)
    obtain ⟨M', hwrite, hlanes, hrest⟩ := hbelow (show 4 * m < s.params.ibufBytes by omega)
    rw [List.range_succ, List.map_append]
    refine ⟨M', hruns.append hwrite.runs, fun a ha => ?_⟩
    by_cases hlow : a < 4 * m
    · rw [hrest a (.inl hlow)]
      exact hM a hlow
    · have hlane := hlanes (a - 4 * m) (by omega)
      rwa [extractLsb'_laneWord bs m (by omega), Nat.add_sub_cancel' (by omega)] at hlane

theorem runs_ibuf (hb : s.busy = false) (hp : s.params.Valid) {bs : List Byte} (hl : bs.length ≤ s.params.ibufBytes)
    (n k : Nat) :
    ∃ M, s.Runs ((Stmt.ibuf bs).events n k) { s with ibuf := M, ibufLen := BitVec.ofNat 32 bs.length }
      ∧ { s with ibuf := M, ibufLen := BitVec.ofNat 32 bs.length }.Loaded bs := by
  obtain ⟨h4, -, hle⟩ := id hp
  obtain ⟨M, hruns, hM⟩ := runs_ibufWords hb hp bs ((bs.length + 3) / 4) (by omega)
  have hlen : { s with ibuf := M }.writes 0x024 (BitVec.ofNat 32 bs.length)
      { s with ibuf := M, ibufLen := BitVec.ofNat 32 bs.length } :=
    writes_reg (s := { s with ibuf := M }) hb (r := .ibufLen) rfl _
  rw [Stmt.events_ibuf]
  refine ⟨M, hruns.append hlen.runs, toNat_ofNat_of_lt (by omega), hl, fun j hj => ?_⟩
  rw [← List.getD_eq_getElem bs 0#8 hj]
  exact hM j (by omega)

/-! ### obuf (rules R83, R91, R125) -/

theorem Stmt.events_obuf (n k : Nat) :
    Stmt.obuf.events n k = (List.range ((n + 3) / 4)).map fun j => Input.busRead (0x4000000 + 4 * j) 4 := by
  simp [Stmt.events, Stmt.expand, Basic.events, List.flatMap_map, ← List.map_eq_flatMap]

/-- Byte i of the words of a run of reads, in lane order (rule R83). -/
theorem getElem?_flatMap_laneBytes (words : List Word) (i : Nat) :
    (words.flatMap laneBytes)[i]? = (words[i / 4]?).map fun w => w.extractLsb' (8 * (i % 4)) 8 := by
  induction words generalizing i with
  | nil => simp
  | cons w words ih =>
    have hlen : (laneBytes w).length = 4 := rfl
    rw [List.flatMap_cons]
    by_cases h : i < 4
    · rw [List.getElem?_append_left (hlen ▸ h), Nat.div_eq_of_lt h, Nat.mod_eq_of_lt h]
      match i, h with
      | 0, _ => rfl
      | 1, _ => rfl
      | 2, _ => rfl
      | 3, _ => rfl
    · rw [List.getElem?_append_right (by omega), hlen, ih, show i / 4 = (i - 4) / 4 + 1 by omega,
        List.getElem?_cons_succ, show i % 4 = (i - 4) % 4 by omega]

/-- The first m words of OBUF, read one after the other, show the output bytes in their lanes. -/
theorem runs_obufWords (h : s.Inv) (hb : s.busy = false) (m : Nat) (hm : 4 * m ≤ s.params.obufBytes) :
    ∃ words : List Word, words.length = m
      ∧ s.Runs ((List.range m).map fun j => .busRead (0x4000000 + 4 * j) 4)
          { s with hostReads := words.reverse ++ s.hostReads, draws := s.draws + m }
      ∧ ∀ i, i < 4 * m → i < s.obufLen.toNat → (words.flatMap laneBytes)[i]? = s.output[i]? := by
  induction m with
  | zero => exact ⟨[], rfl, State.Runs.nil s, fun i hi => absurd hi (Nat.not_lt_zero i)⟩
  | succ m ih =>
    obtain ⟨words, hlen, hruns, hwords⟩ := ih (by omega)
    have hinv := h.setHost s.inputs (words.reverse ++ s.hostReads) (s.draws + m)
    obtain ⟨-, v, hread, hlanes⟩ := obufWindow _ (4 * m) hinv hb (by omega)
      (show 4 * m < s.params.obufBytes by omega)
    rw [List.range_succ, List.map_append]
    refine ⟨words ++ [v], by simp [hlen], ?_, fun i hi hout => ?_⟩
    · rw [List.reverse_append]
      exact hruns.append hread.runs
    · by_cases hlow : i < 4 * m
      · rw [← hwords i hlow hout, getElem?_flatMap_laneBytes, getElem?_flatMap_laneBytes,
          List.getElem?_append_left (by omega)]
      · obtain ⟨hlane, -⟩ := hlanes (i - 4 * m) (by omega)
        rw [Nat.add_sub_cancel' (by omega)] at hlane
        rw [getElem?_flatMap_laneBytes, show i / 4 = words.length by omega, List.getElem?_concat_length,
          show i % 4 = i - 4 * m by omega]
        exact hlane hout

theorem runs_obuf (h : s.Inv) (hb : s.busy = false) (k : Nat) :
    ∃ words : List Word, words.length = (s.obufLen.toNat + 3) / 4
      ∧ s.Runs (Stmt.obuf.events s.obufLen.toNat k)
          { s with hostReads := words.reverse ++ s.hostReads, draws := s.draws + (s.obufLen.toNat + 3) / 4 }
      ∧ { s with hostReads := words.reverse ++ s.hostReads }.obufResult s.obufLen.toNat = s.output := by
  have hfit := h.output
  obtain ⟨hlen, -⟩ := h.buffers.output
  obtain ⟨words, hcount, hruns, hwords⟩ := runs_obufWords h hb ((s.obufLen.toNat + 3) / 4)
    (by unfold Config.Params.obufBytes at *; omega)
  rw [Stmt.events_obuf]
  refine ⟨words, hcount, hruns, ?_⟩
  rw [State.obufResult, ← hcount, State.lastReads_append, obufBytes]
  refine List.ext_getElem? fun i => ?_
  by_cases hi : i < s.obufLen.toNat
  · rw [List.getElem?_take_of_lt hi]
    exact hwords i (by omega) hi
  · rw [List.getElem?_eq_none (by rw [List.length_take]; omega), List.getElem?_eq_none (by omega)]

/-! ### encode and decode (rules R125, R248) -/

theorem codesOf_congr (h : s.codes = t.codes) (bs : List Byte) : codesOf s bs = codesOf t bs := by
  induction bs with
  | nil => rfl
  | cons x bs ih => simp only [codesOf, State.code, h, ih]

theorem State.unpack_congr (hn : s.nodes = t.nodes) (hr : s.root = t.root) (c : BitVec 9) (bits : BitString) :
    s.unpack c bits = t.unpack c bits := by
  induction bits generalizing c with
  | nil => rfl
  | cons b bits ih => simp only [State.unpack, hn, hr, ih]

/-- A last chunk with no bits pending outputs its codes packed, and their padding (rules R241, R245). -/
theorem exec_echunk_single {bs : List Byte} {codes : BitString} (hl : s.Loaded bs) (hv : s.treeValid = true)
    (hp : s.pendBits = 0#3) (hc : codesOf s bs = some codes) :
    ∃ t, exec (.echunk true) s = .next t ∧ t.err = 0#8 ∧ t.output = pack codes
      ∧ t.dataPad.toNat = padOf codes.length := by
  have hpend : s.pendingBits = [] := by rw [State.pendingBits, hp]; rfl
  have hchunk : chunkCodes s s.ibufLen.toNat 0 = .ok codes := by
    obtain ⟨hlen, -⟩ := id hl
    rw [hlen]
    exact chunkCodes_of_stands hl.stands hc
  have hexec := exec_of_computes (.echunk (f := true) (ibufTooLong_eq_false.1 hl.notTooLong) hv hchunk)
  rw [hpend, List.nil_append] at hexec
  refine ⟨_, hexec, rfl, ?_, ?_⟩
  · exact (Memory.snd_ofBytes _).trans (wholeBytes_append_leftover codes)
  · show (BitVec.ofNat 3 (padOf (leftover codes).length)).toNat = _
    rw [length_leftover, toNat_ofNat_of_lt (Nat.lt_succ_of_le (padOf_le _))]
    unfold padOf
    omega

/-- A last chunk whose bits end at the root outputs the letters they emit (rule R272). -/
theorem exec_dchunk_single {bs out : List Byte} {dpad : Nat} (hl : s.Loaded bs) (hv : s.treeValid = true)
    (hi : internalAt s.nodes s.root) (hu : s.unpack s.cursor (dataBits bs true dpad) = (s.root, out)) :
    ∃ t, exec (.dchunk true dpad) s = .next t ∧ t.err = 0#8 ∧ t.output = out ∧ t.cursor = t.root := by
  have hbits : decodeBits s (chunkBits s.ibufLen.toNat true dpad) 0 s.cursor = .ok (s.root, out) := by
    obtain ⟨hlen, -⟩ := id hl
    rw [hlen, chunkBits_eq, ← hu]
    exact decodeBits_internal hi fun _ hk => bitAt_dataBits hl hk
  exact ⟨_, exec_of_computes (.dchunk (ibufTooLong_eq_false.1 hl.notTooLong) hv hbits fun _ => rfl), rfl,
    Memory.snd_ofBytes out, rfl⟩

theorem runs_encode {bs : List Byte} {codes : BitString} (hb : s.busy = false) (hv : s.treeValid = true)
    (hl : s.Loaded bs) (hc : codesOf s bs = some codes) (n k : Nat) :
    ∃ t, s.Runs (Stmt.encode.events n k) t ∧ t.err = 0#8 ∧ t.output = pack codes
      ∧ t.dataPad.toNat = padOf codes.length := by
  obtain ⟨u, hstart, hub, huv, hul, hcodes, hpend⟩ : ∃ u, s.Runs ((Stmt.run .estart).events n k) u
      ∧ u.busy = false ∧ u.treeValid = true ∧ u.Loaded bs ∧ u.codes = s.codes ∧ u.pendBits = 0#3 :=
    ⟨_, runs_run hb rfl (exec_of_computes .estart) n k, rfl, hv, hl, rfl, rfl⟩
  obtain ⟨t, hexec, herr, hout, hpad⟩ := exec_echunk_single
    (s := u.accept (encode (.echunk true))) hul huv hpend
    ((codesOf_congr (s := u.accept _) (t := s) hcodes bs).trans hc)
  rw [Stmt.events_encode]
  exact ⟨_, hstart.append (runs_run hub rfl hexec n k), herr, hout, hpad⟩

theorem runs_decode {bs out : List Byte} {p : Nat} (hb : s.busy = false) (hv : s.treeValid = true) (hl : s.Loaded bs)
    (hp : p < 8) (hi : internalAt s.nodes s.root) (hout : s.unpack s.root (dataBits bs true p) = (s.root, out))
    (n k : Nat) :
    ∃ t, s.Runs ((Stmt.decode p).events n k) t ∧ t.err = 0#8 ∧ t.output = out ∧ t.cursor = t.root := by
  obtain ⟨u, hstart, hub, huv, hul, hnodes, hroot, hcursor⟩ : ∃ u, s.Runs ((Stmt.run .dstart).events n k) u
      ∧ u.busy = false ∧ u.treeValid = true ∧ u.Loaded bs ∧ u.nodes = s.nodes ∧ u.root = s.root ∧ u.cursor = s.root :=
    ⟨_, runs_run hb rfl (exec_of_computes .dstart) n k, rfl, hv, hl, rfl, rfl, rfl⟩
  have hunpack : (u.accept (encode (.dchunk true p))).unpack u.cursor (dataBits bs true p) = (u.root, out) := by
    rw [State.unpack_congr (s := u.accept _) (t := s) hnodes hroot, hcursor, hout, hroot]
  obtain ⟨t, hexec, hend⟩ := exec_dchunk_single (s := u.accept (encode (.dchunk true p))) hul huv
    (by rw [State.accept_nodes, State.accept_root, hnodes, hroot]; exact hi) hunpack
  rw [Stmt.events_decode]
  exact ⟨_, hstart.append (runs_run hub (i := .dchunk true p) (decide_eq_true hp) hexec n k), hend⟩

/-! ### What a statement expands to (rules R80, R124, R125) -/

/-- A turn of the block, or a transaction the bus admits. -/
def Input.Admitted (e : Input) : Prop :=
  e = .blockTurn ∨ (∃ a, e = .busRead a 4 ∧ BusAddress a) ∨ ∃ a v, e = .busWrite a 4 v ∧ BusAddress a

theorem Basic.admitted_events {b : Basic} (h : b.wellFormed = true) {k : Nat} {e : Input} (he : e ∈ b.events k) :
    e.Admitted := by
  have hstatus : (Input.busRead 0x018 4).Admitted := .inr (.inl ⟨_, rfl, by decide⟩)
  cases b with
  | command i =>
    obtain rfl := List.mem_singleton.1 he
    exact .inr (.inr ⟨_, _, rfl, by decide⟩)
  | wr a v =>
    obtain rfl := List.mem_singleton.1 he
    obtain ⟨-, ha⟩ := admitted_iff.1 h
    exact .inr (.inr ⟨_, _, rfl, ha⟩)
  | rd a =>
    obtain rfl := List.mem_singleton.1 he
    obtain ⟨-, ha⟩ := admitted_iff.1 h
    exact .inr (.inl ⟨_, rfl, ha⟩)
  | wait =>
    rcases List.mem_append.1 he with he | he
    · obtain rfl := List.eq_of_mem_replicate he
      exact hstatus
    · rcases List.mem_pair.1 he with rfl | rfl
      · exact .inl rfl
      · exact hstatus

theorem runBasics_wellFormed {i : Instr} (h : i.wellFormed = true) {b : Basic} (hb : b ∈ runBasics i) :
    b.wellFormed = true := by
  rcases List.mem_pair.1 hb with rfl | rfl
  · exact h
  · rfl

theorem Stmt.expand_wellFormed {c : Stmt} (h : c.wellFormed = true) {n : Nat} (hn : n ≤ 2 ^ 26) {b : Basic}
    (hb : b ∈ c.expand n) : b.wellFormed = true := by
  cases c with
  | basic b' => exact List.mem_singleton.1 hb ▸ h
  | run i => exact runBasics_wellFormed h hb
  | weight x w =>
    have h : x < 256 ∧ w < 2 ^ 64 := by simpa [Stmt.wellFormed] using h
    rcases List.mem_pair.1 hb with rfl | rfl
    · exact admitted_iff.2 ⟨rfl, by omega, by omega⟩
    · exact admitted_iff.2 ⟨rfl, by omega, by omega⟩
  | ibuf bs =>
    have h : 0x1000000 + bs.length ≤ 2 ^ 27 := of_decide_eq_true h
    rcases List.mem_append.1 hb with hb | hb
    · obtain ⟨j, hj, rfl⟩ := List.mem_map.1 hb
      rw [List.mem_range] at hj
      exact admitted_iff.2 ⟨rfl, by omega, by omega⟩
    · obtain rfl := List.mem_singleton.1 hb
      exact admitted_iff.2 ⟨rfl, by decide⟩
  | obuf =>
    obtain ⟨j, hj, rfl⟩ := List.mem_map.1 hb
    rw [List.mem_range] at hj
    exact admitted_iff.2 ⟨rfl, by omega, by omega⟩
  | encode =>
    rcases List.mem_append.1 hb with hb | hb
    · exact runBasics_wellFormed rfl hb
    · exact runBasics_wellFormed rfl hb
  | decode p =>
    rcases List.mem_append.1 hb with hb | hb
    · exact runBasics_wellFormed rfl hb
    · exact runBasics_wellFormed (i := .dchunk true p) h hb

theorem Stmt.admitted_events {c : Stmt} (h : c.wellFormed = true) {n k : Nat} (hn : n ≤ 2 ^ 26) {e : Input}
    (he : e ∈ c.events n k) : e.Admitted := by
  obtain ⟨b, hb, he⟩ := List.mem_flatMap.1 he
  exact Basic.admitted_events (Stmt.expand_wellFormed h hn hb) he

/-- A run of m events, in the claims' words. -/
theorem State.Runs.runSteps (h : s.Runs es t) {m : Nat} (hm : es.length = m) (rest : List Input) :
    runSteps m { s with inputs := es ++ rest } = some { t with inputs := rest } := hm ▸ h rest

theorem Stmt.length_events_run (i : Instr) (n k : Nat) : ((Stmt.run i).events n k).length = k + 3 := by
  simp [Stmt.events_run]

end HostRuns

/-! ### The statement -/

/-- Settles O60: each pseudo-command is a run of its events, and every event is admitted. -/
theorem hostStatements : Obligations.HostStatements := by
  refine ⟨fun c n k h hn e he => Stmt.admitted_events h hn he, fun s t u i n k rest hb hi hu ht => ?_,
    fun s x w n k rest hb hx _ => ?_, fun s bs n k rest hb hp hl => ?_, fun s n k rest h hb hn => ?_,
    fun s bs codes n k rest hb hv hl hc => ?_, fun s bs out p n k rest hb hv hl hp hi hout => ?_⟩
  · subst hu
    have hhost := exec_keeps_host ht
    have hidle := exec_idle ht
    refine ⟨?_, (t.getLsbD_statusWord 0).trans hidle, State.getLsbD_statusWord _ 0⟩
    have hexec := exec_withHost ht s.inputs s.hostReads s.draws
    have hrun := (runs_run hb hi hexec n k).runSteps (Stmt.length_events_run i n k) rest
    rw [hrun, hhost]
    rfl
  · obtain ⟨W, hrun, hW⟩ := runs_weight hb hx w n k
    exact ⟨W, hrun.runSteps rfl rest, hW⟩
  · obtain ⟨M, hrun, hM⟩ := runs_ibuf hb hp hl n k
    exact ⟨M, hrun.runSteps (by simp [Stmt.events_ibuf]) rest, hM⟩
  · subst hn
    obtain ⟨words, hlen, hrun, hwords⟩ := runs_obuf h hb k
    exact ⟨words, hlen, hrun.runSteps (by simp [Stmt.events_obuf]) rest, hwords⟩
  · obtain ⟨t, hrun, hend⟩ := runs_encode hb hv hl hc n k
    refine ⟨{ t with inputs := rest }, hrun.runSteps ?_ rest, rfl, hend⟩
    rw [Stmt.events_encode, List.length_append, Stmt.length_events_run, Stmt.length_events_run, Nat.two_mul]
  · obtain ⟨t, hrun, hend⟩ := runs_decode hb hv hl hp hi hout n k
    refine ⟨{ t with inputs := rest }, hrun.runSteps ?_ rest, rfl, hend⟩
    rw [Stmt.events_decode, List.length_append, Stmt.length_events_run, Stmt.length_events_run, Nat.two_mul]

end Sys2Proof.Machine
end

section
/-! SUPPORT. The decoder's words (rules R110 to R124): a legal word selects the row of its opcode, and is put together
from that row's fixed bits and its operand fields. -/

namespace Sys2Proof.Machine

/-! ### Fields of a word (rule R111) -/

/-- The mask of the k bits from bit n on. -/
def fieldMask (n k : Nat) : Word := (BitVec.allOnes k).setWidth 32 <<< n

theorem and_fieldMask (w : Word) (n k : Nat) : w &&& fieldMask n k = (w.extractLsb' n k).setWidth 32 <<< n := by
  refine BitVec.eq_of_getLsbD_eq fun i hi => ?_
  by_cases hn : i < n
  · simp [fieldMask, hn]
  · have hin : n + (i - n) = i := by omega
    by_cases hk : i - n < k <;> simp [fieldMask, hn, hk, hin, hi]

theorem and_opMask (w : Word) : w &&& 0x000000FF#32 = (opField w).setWidth 32 :=
  (and_fieldMask w 0 8).trans (BitVec.shiftLeft_zero _)

theorem ofNat_flField (w : Word) : BitVec.ofNat 32 (flField w).toNat = (w.extractLsb' 16 1).setWidth 32 := by
  have hbit : w.extractLsb' 16 1 = BitVec.ofBool (flField w) := by
    refine BitVec.eq_of_getLsbD_eq fun i hi => ?_
    obtain rfl : i = 0 := by omega
    simp [flField]
  rw [hbit, ← BitVec.ofNat_toNat, BitVec.toNat_ofBool]

/-! ### The row of an opcode (rules R116, R117) -/

theorem opTable_getElem?_op {r : OpRow} (hr : r ∈ opTable) : opTable[(r.matchBits.setWidth 8).toNat]? = some r := by
  revert r; decide

/-- Every row's mask covers OP, and its match bits stand in OP alone. -/
theorem opRow_masks {r : OpRow} (hr : r ∈ opTable) :
    r.mask.setWidth 8 = BitVec.allOnes 8 ∧ r.mask = (r.mask &&& 0xFFFFFF00#32) ||| 0x000000FF#32
      ∧ r.matchBits = (r.matchBits.setWidth 8).setWidth 32 ∧ r.matchBits &&& 0xFFFFFF00#32 = 0#32 := by
  revert r; decide

theorem matchBits_of_getElem? {n : Nat} {r : OpRow} (h : opTable[n]? = some r) : (r.matchBits.setWidth 8).toNat = n := by
  have all : ∀ k : Fin 13, (opTable[k.val].matchBits.setWidth 8).toNat = k.val := by decide
  obtain ⟨hn, rfl⟩ := List.getElem?_eq_some_iff.1 h
  exact all ⟨n, hn⟩

/-- A word selects no row but its opcode's. -/
theorem opField_of_selects {w : Word} {r : OpRow} (hr : r ∈ opTable) (hw : w &&& r.mask = r.matchBits) :
    opField w = r.matchBits.setWidth 8 := by
  obtain ⟨hop, -⟩ := opRow_masks hr
  rw [← hw, BitVec.setWidth_and, hop, BitVec.and_allOnes]
  rfl

theorem getElem?_of_selects {w : Word} {r : OpRow} (hr : r ∈ opTable) (hw : w &&& r.mask = r.matchBits) :
    opTable[(opField w).toNat]? = some r :=
  opField_of_selects hr hw ▸ opTable_getElem?_op hr

/-- A word whose opcode is a row's selects that row exactly when the bits the row does not use are 0. -/
theorem selects_iff_unused_zero {w : Word} {r : OpRow} (hr : r ∈ opTable) (hop : opField w = r.matchBits.setWidth 8) :
    w &&& r.mask = r.matchBits ↔ w &&& (r.mask &&& 0xFFFFFF00#32) = 0#32 := by
  obtain ⟨-, hmask, hbits, hhigh⟩ := opRow_masks hr
  constructor
  · intro hw
    rw [← BitVec.and_assoc, hw, hhigh]
  · intro h0
    rw [hmask, BitVec.and_or_distrib_left, h0, BitVec.zero_or, and_opMask, hop, ← hbits]

/-! ### The decoder (rules R110, R117) -/

theorem legalWord_iff {w : Word} : legalWord w = true ↔ ∃ r ∈ opTable, w &&& r.mask = r.matchBits := by
  simp [legalWord]

theorem exists_commandOf {w : Word} (h : (opField w).toNat < 0x0D) : ∃ i, commandOf w = some i := by
  unfold commandOf
  generalize (opField w).toNat = n at h
  interval_cases n <;> exact ⟨_, rfl⟩

theorem decode_eq_ok_iff {w : Word} {i : Instr} : decode w = .ok i ↔ commandOf w = some i ∧ legalWord w = true := by
  unfold decode
  split
  · rename_i hc
    simp [hc]
  · rename_i j hc
    split <;> simp_all

/-- The decoder accepts exactly the legal words. -/
theorem exists_decode_iff {w : Word} : (∃ i, decode w = .ok i) ↔ ∃ r ∈ opTable, w &&& r.mask = r.matchBits := by
  simp only [decode_eq_ok_iff, exists_and_right, legalWord_iff, and_iff_right_iff_imp]
  rintro ⟨r, hr, hw⟩
  have hrow := getElem?_of_selects hr hw
  exact exists_commandOf (List.getElem?_eq_some_iff.1 hrow).1

/-- The encoder writes the opcode's match bits, and each operand into the field the decoder takes it from, which is
a part of the bits the row leaves free. -/
theorem encode_of_commandOf {w : Word} {i : Instr} {r : OpRow} (hc : commandOf w = some i)
    (hr : opTable[(opField w).toNat]? = some r) : encode i = r.matchBits ||| (w &&& ~~~ r.mask) := by
  have hlookup : ~~~ 0xFFFF00FF#32 = fieldMask 8 8 := by decide
  have htdes : ~~~ 0xFF01FFFF#32 = fieldMask 17 3 ||| fieldMask 20 4 := by decide
  have hechunk : ~~~ 0xFFFEFFFF#32 = fieldMask 16 1 := by decide
  have hdchunk : ~~~ 0xFFF0FFFF#32 = fieldMask 16 1 ||| fieldMask 17 3 := by decide
  unfold commandOf at hc
  split at hc <;> cases hc <;> rename_i hop <;> rw [hop] at hr <;> cases hr
  case h_5 => -- LOOKUP
    rw [hlookup, and_fieldMask, encode, argField, BitVec.ofNat_toNat]
  case h_7 => -- TDES
    rw [htdes, BitVec.and_or_distrib_left, and_fieldMask, and_fieldMask, encode, padField, lwField, BitVec.ofNat_toNat,
      BitVec.ofNat_toNat, BitVec.or_assoc]
  case h_9 => -- ECHUNK
    rw [hechunk, and_fieldMask, encode, ofNat_flField]
  case h_11 => -- DCHUNK
    rw [hdchunk, BitVec.and_or_distrib_left, and_fieldMask, and_fieldMask, encode, ofNat_flField, padField,
      BitVec.ofNat_toNat, BitVec.or_assoc]
  all_goals simp [encode] -- the commands without operands

/-- A word that decodes is its row's fixed bits with its own bits elsewhere, which is what the encoder writes. -/
theorem encode_of_decode {w : Word} {i : Instr} (h : decode w = .ok i) : encode i = w := by
  obtain ⟨hc, hl⟩ := decode_eq_ok_iff.1 h
  obtain ⟨r, hr, hw⟩ := legalWord_iff.1 hl
  calc encode i
      = (w &&& r.mask) ||| (w &&& ~~~ r.mask) := by rw [encode_of_commandOf hc (getElem?_of_selects hr hw), hw]
    _ = w := by rw [← BitVec.and_or_distrib_left, BitVec.or_not_self, BitVec.and_allOnes]

/-- Rule R117: a word is illegal by its opcode or by a bit that its opcode does not use. -/
theorem not_selects_iff {w : Word} : (¬ ∃ r ∈ opTable, w &&& r.mask = r.matchBits) ↔
    0x0D ≤ (opField w).toNat ∨ ∃ r ∈ opTable, opField w = r.matchBits.setWidth 8
      ∧ w &&& (r.mask &&& 0xFFFFFF00#32) ≠ 0#32 := by
  constructor
  · intro hno
    refine or_iff_not_imp_left.2 fun hop => ?_
    obtain ⟨r, hrow⟩ : ∃ r, opTable[(opField w).toNat]? = some r :=
      ⟨_, List.getElem?_eq_getElem (show (opField w).toNat < 0x0D by omega)⟩
    have hr := List.mem_of_getElem? hrow
    have hbits := BitVec.eq_of_toNat_eq (matchBits_of_getElem? hrow).symm
    exact ⟨r, hr, hbits, fun h0 => hno ⟨r, hr, (selects_iff_unused_zero hr hbits).2 h0⟩⟩
  · rintro hillegal ⟨r, hr, hw⟩
    have hrow := getElem?_of_selects hr hw
    rcases hillegal with hop | ⟨r', hr', hop, hne⟩
    · have hlt : (opField w).toNat < 0x0D := (List.getElem?_eq_some_iff.1 hrow).1
      omega
    · have hsame : r' = r := Option.some.inj ((opTable_getElem?_op hr').symm.trans (hop ▸ hrow))
      exact hne (hsame ▸ (selects_iff_unused_zero hr (opField_of_selects hr hw)).1 hw)

/-! ### The statements -/

/-- Settles O1: the decoder reads the encoder's fields, and a legal word's row leaves nothing but those fields free. -/
theorem decodeEncodeAgree : Obligations.DecodeEncodeAgree :=
  ⟨fun _ => decode_encode, fun _ _ h => ⟨decode_wellFormed h, encode_of_decode h⟩⟩

/-- Settles O3: a word can select its opcode's row only, and a word that selects none is no command in its turn. -/
theorem illegalWords : Obligations.IllegalWords := by
  refine fun w => ⟨exists_decode_iff, not_selects_iff, fun s hb ht hlast hno => ?_⟩
  cases hd : decode w with
  | ok i => exact absurd (exists_decode_iff.1 ⟨i, hd⟩) hno
  | error e => exact step_turn_error ht hb (hlast ▸ hd)

/-- Settles O33: the code table of a proper tree, by the kind of its root. -/
theorem codesArePaths : Obligations.CodesArePaths := by
  refine fun s x p h hv => ⟨fun hi => ?_, fun y w hleaf => ?_⟩
  · rw [h.code_eq hv]
    exact (h.properTree hv).code_iff_descend hi x p
  · rw [h.code_eq hv, ProperTree.code_leaf hleaf]
    by_cases hxy : x = y
    · simp [Table.lookup, hxy, eq_comm]
    · have hne : y.toNat ≠ x.toNat := fun he => hxy (BitVec.eq_of_toNat_eq he.symm)
      simp [Table.lookup, hxy, hne]

/-- Settles O2: seven of the words are those the encoder writes, and the other two are rejected by evaluation. -/
theorem writtenWordsDecode : Obligations.WrittenWordsDecode :=
  ⟨decode_encode (i := .nop) rfl, decode_encode (i := .build) rfl, decode_encode (i := .lookup 0x61) rfl,
    decode_encode (i := .tdes 3 1) rfl, decode_encode (i := .echunk true) rfl, decode_encode (i := .dchunk true 7) rfl,
    decode_encode (i := .hparse) rfl, rfl, rfl⟩

end Sys2Proof.Machine
end

section
/-! SUPPORT. The register frame: which command may change which register and table, each fact by what the command
computes when it succeeds and what an error leaves (rules R341, R345, R346). -/

namespace Sys2Proof.Machine

section Frame

variable {s t : State} {i : Instr}

/-! ### Kinds of commands (rules R40, R346) -/

theorem isOutputCommand_eq_false (htser : i ≠ .tser) (hechunk : ∀ f, i ≠ .echunk f) (hdchunk : ∀ l p, i ≠ .dchunk l p)
    (hhbuild : i ≠ .hbuild) : isOutputCommand i = false := by
  cases i with
  | tser => exact absurd rfl htser
  | echunk f => exact absurd rfl (hechunk f)
  | dchunk l p => exact absurd rfl (hdchunk l p)
  | hbuild => exact absurd rfl hhbuild
  | _ => rfl

theorem makesTree_eq_false (hbuild : i ≠ .build) (htdes : ∀ p w, i ≠ .tdes p w) (hhparse : i ≠ .hparse) :
    makesTree i = false := by
  cases i with
  | build => exact absurd rfl hbuild
  | tdes p w => exact absurd rfl (htdes p w)
  | hparse => exact absurd rfl hhparse
  | _ => rfl

theorem invalidatesTree_eq_false (hm : makesTree i = false) (e : ErrCode) : invalidatesTree (some i) e = false := by
  simp [invalidatesTree, hm]

/-! ### What every command but SRESET keeps -/

theorem exec_hostRegisters (hi : i ≠ .sreset) (he : exec i s = .next t) :
    t.params = s.params ∧ t.ie = s.ie ∧ t.drop = s.drop ∧ t.ibufLen = s.ibufLen ∧ t.streamLenLo = s.streamLenLo
      ∧ t.streamLenHi = s.streamLenHi := by
  rcases exec_cases he with ⟨u, hu, rfl⟩ | ⟨e, info, -, rfl⟩
  · cases hu with
    | sreset => exact absurd rfl hi
    | @echunk f _ _ _ _ => cases f <;> exact ⟨rfl, rfl, rfl, rfl, rfl, rfl⟩
    | _ => exact ⟨rfl, rfl, rfl, rfl, rfl, rfl⟩
  · simp

theorem exec_hostFields (he : exec i s = .next t) :
    t.inputs = s.inputs ∧ t.hostReads = s.hostReads ∧ t.draws = s.draws :=
  have hkeep := exec_keeps_host he
  ⟨(congrArg State.inputs hkeep).trans rfl, (congrArg State.hostReads hkeep).trans rfl,
    (congrArg State.draws hkeep).trans rfl⟩

/-! ### The completion state (rules R341, R345) -/

theorem exec_done (he : exec i s = .next t) : t.done = true := by
  rcases exec_cases he with ⟨u, -, rfl⟩ | ⟨e, info, -, rfl⟩
  · rfl
  · rfl

/-- A success keeps the sticky ERRS. -/
theorem exec_errs_of_success (hi : i ≠ .sreset) (he : exec i s = .next t) (h0 : t.err = 0#8) : t.errs = s.errs := by
  obtain ⟨u, hu, rfl⟩ := exec_success he h0
  cases hu with
  | sreset => exact absurd rfl hi
  | @echunk f _ _ _ _ => cases f <;> rfl
  | _ => rfl

theorem exec_errs_of_error (he : exec i s = .next t) (h0 : t.err ≠ 0#8) : t.errs = true := by
  rcases exec_cases he with ⟨u, -, rfl⟩ | ⟨e, info, -, rfl⟩
  · exact absurd rfl h0
  · rfl

/-! ### Registers with writers of their own -/

/-- Rule R152: only WCLR, of the commands, writes WEIGHT. -/
theorem exec_weights (hi : i ≠ .sreset) (hw : i ≠ .wclr) (he : exec i s = .next t) : t.weights = s.weights := by
  rcases exec_cases he with ⟨u, hu, rfl⟩ | ⟨e, info, -, rfl⟩
  · cases hu with
    | sreset => exact absurd rfl hi
    | wclr => exact absurd rfl hw
    | @echunk f _ _ _ _ => cases f <;> rfl
    | _ => rfl
  · exact State.raise_weights s (some i) e info

/-- Rule R200: only LOOKUP writes the LK registers. -/
theorem exec_lookupRegisters (hi : i ≠ .sreset) (hl : ∀ x, i ≠ .lookup x) (he : exec i s = .next t) :
    t.lkLen = s.lkLen ∧ t.lkBits = s.lkBits := by
  rcases exec_cases he with ⟨u, hu, rfl⟩ | ⟨e, info, -, rfl⟩
  · cases hu with
    | sreset => exact absurd rfl hi
    | @lookup x _ _ _ => exact absurd rfl (hl x)
    | @echunk f _ _ _ _ => cases f <;> exact ⟨rfl, rfl⟩
    | _ => exact ⟨rfl, rfl⟩
  · exact ⟨State.raise_lkLen s (some i) e info, State.raise_lkBits s (some i) e info⟩

/-- Rule R40: only the output commands write OBUF_LEN, in success and in error. -/
theorem exec_obufLen (hi : i ≠ .sreset) (ho : isOutputCommand i = false) (he : exec i s = .next t) :
    t.obufLen = s.obufLen := by
  rcases exec_cases he with ⟨u, hu, rfl⟩ | ⟨e, info, -, rfl⟩
  · cases hu with
    | sreset => exact absurd rfl hi
    | tser _ => cases ho
    | echunk _ _ _ => cases ho
    | dchunk _ _ _ _ => cases ho
    | hbuild => cases ho
    | _ => rfl
  · simp [discardsOutput, ho]

/-- Rules R240, R241: only ESTART and ECHUNK write PEND. -/
theorem exec_pend (hi : i ≠ .sreset) (hs : i ≠ .estart) (hc : ∀ f, i ≠ .echunk f) (he : exec i s = .next t) :
    t.pendByte = s.pendByte ∧ t.pendBits = s.pendBits := by
  rcases exec_cases he with ⟨u, hu, rfl⟩ | ⟨e, info, -, rfl⟩
  · cases hu with
    | sreset => exact absurd rfl hi
    | estart => exact absurd rfl hs
    | @echunk f _ _ _ _ => exact absurd rfl (hc f)
    | _ => exact ⟨rfl, rfl⟩
  · exact ⟨State.raise_pendByte s (some i) e info, State.raise_pendBits s (some i) e info⟩

/-- Rules R245, R303: only a last ECHUNK and HPARSE write DATA_PAD. -/
theorem exec_dataPad (hi : i ≠ .sreset) (hc : i ≠ .echunk true) (hp : i ≠ .hparse) (he : exec i s = .next t) :
    t.dataPad = s.dataPad := by
  rcases exec_cases he with ⟨u, hu, rfl⟩ | ⟨e, info, -, rfl⟩
  · cases hu with
    | sreset => exact absurd rfl hi
    | hparse _ _ _ _ _ _ _ _ _ _ => exact absurd rfl hp
    | @echunk f _ _ _ _ =>
      cases f with
      | false => rfl
      | true => exact absurd rfl hc
    | _ => rfl
  · exact State.raise_dataPad s (some i) e info

/-! ### The tree (rules R176, R346) -/

/-- Only a command that makes a tree writes the tree, in success and in error. -/
theorem exec_tree (hi : i ≠ .sreset) (hm : makesTree i = false) (he : exec i s = .next t) :
    t.treeValid = s.treeValid ∧ t.root = s.root ∧ t.nodeCount = s.nodeCount ∧ t.nodes = s.nodes ∧ t.codes = s.codes
      ∧ t.dataOff = s.dataOff := by
  rcases exec_cases he with ⟨u, hu, rfl⟩ | ⟨e, info, -, rfl⟩
  · cases hu with
    | sreset => exact absurd rfl hi
    | build _ => cases hm
    | tdes _ _ => cases hm
    | hparse _ _ _ _ _ _ _ _ _ _ => cases hm
    | @echunk f _ _ _ _ => cases f <;> exact ⟨rfl, rfl, rfl, rfl, rfl, rfl⟩
    | _ => exact ⟨rfl, rfl, rfl, rfl, rfl, rfl⟩
  · simp [invalidatesTree_eq_false hm]

/-- Rule R213: of the commands that make no tree, only TSER writes TREE_LEN and TREE_PAD. -/
theorem exec_treeForm (hi : i ≠ .sreset) (hm : makesTree i = false) (hs : i ≠ .tser) (he : exec i s = .next t) :
    t.treeLen = s.treeLen ∧ t.treePad = s.treePad := by
  rcases exec_cases he with ⟨u, hu, rfl⟩ | ⟨e, info, -, rfl⟩
  · cases hu with
    | sreset => exact absurd rfl hi
    | build _ => cases hm
    | tdes _ _ => cases hm
    | hparse _ _ _ _ _ _ _ _ _ _ => cases hm
    | tser _ => exact absurd rfl hs
    | @echunk f _ _ _ _ => cases f <;> exact ⟨rfl, rfl⟩
    | _ => exact ⟨rfl, rfl⟩
  · simp [invalidatesTree_eq_false hm]

/-- Rules R270, R272: of the commands that make no tree, only DSTART and DCHUNK write CURSOR. -/
theorem exec_cursor (hi : i ≠ .sreset) (hm : makesTree i = false) (hs : i ≠ .dstart) (hc : ∀ l p, i ≠ .dchunk l p)
    (he : exec i s = .next t) : t.cursor = s.cursor := by
  rcases exec_cases he with ⟨u, hu, rfl⟩ | ⟨e, info, -, rfl⟩
  · cases hu with
    | sreset => exact absurd rfl hi
    | build _ => cases hm
    | tdes _ _ => cases hm
    | hparse _ _ _ _ _ _ _ _ _ _ => cases hm
    | dstart => exact absurd rfl hs
    | @dchunk l p _ _ _ _ _ _ => exact absurd rfl (hc l p)
    | @echunk f _ _ _ _ => cases f <;> rfl
    | _ => rfl
  · simp [invalidatesTree_eq_false hm]

end Frame

/-! ### The statements -/

/-- Settles O49: one lemma per register or group of registers with the same writers. -/
theorem registerFrame : Obligations.RegisterFrame := by
  intro s t i hi he
  obtain ⟨hparams, hie, hdrop, hibufLen, hlo, hhi⟩ := exec_hostRegisters hi he
  refine ⟨⟨hparams, hie, exec_lastCmd hi he, hdrop, hibufLen, hlo, hhi, exec_hostFields he⟩,
    ⟨exec_idle he, exec_done he, exec_errs_of_success hi he, exec_errs_of_error he⟩,
    fun hw => exec_weights hi hw he,
    fun hl => exec_lookupRegisters hi hl he,
    fun h1 h2 h3 h4 => exec_obufLen hi (isOutputCommand_eq_false h1 h2 h3 h4) he,
    fun hs hc => exec_pend hi hs hc he,
    fun hc hp => exec_dataPad hi hc hp he,
    fun h1 h2 h3 => ?_⟩
  have hm := makesTree_eq_false h1 h2 h3
  exact ⟨exec_tree hi hm he, fun hs => exec_treeForm hi hm hs he, fun hs hc => exec_cursor hi hm hs hc he⟩

/-- Settles O24: each of the four computes one state, from every state, and completes it. -/
theorem plainCommandResults : Obligations.PlainCommandResults :=
  fun _ => ⟨exec_of_computes .nop, ⟨[], exec_of_computes .wclr, fun _ => rfl⟩, exec_of_computes .estart,
    exec_of_computes .dstart⟩

end Sys2Proof.Machine
end

section
/-! SUPPORT. BUILD as a command: the empty weight table, the one letter, and the registers of the tree it installs
(rules R170, R171, R175 to R177, R212). -/

namespace Sys2Proof.Machine

section BuildResults

variable {s : State}

/-! ### What BUILD computes (rules R170, R171, R176) -/

theorem exec_build_of_empty (h : presentLetters s = []) : exec .build s = .next (s.failed 0x01#8 0#32).withoutTree := by
  have hb : body .build s = .error (.err .inputEmpty 0#32) := by simp only [body, buildLeaves_eq_nil.2 h]
  rw [exec_eq, hb, finish_err, State.raise_eq]
  rfl

theorem presentLetters_eq_nil_iff : presentLetters s = [] ↔ ∀ x, x < 256 → s.weight x = 0#64 := by
  simp [List.eq_nil_iff_forall_not_mem, mem_presentLetters]

theorem presentLetters_eq_singleton {x : Nat} (hx : x < 256) (hw : s.weight x ≠ 0#64)
    (h : ∀ y, y < 256 → y ≠ x → s.weight y = 0#64) : presentLetters s = [x] := by
  have hperm := List.perm_ext_iff_of_nodup (presentLetters_nodup s) (List.nodup_singleton x)
  refine List.perm_singleton.1 (hperm.2 fun y => ?_)
  rw [mem_presentLetters, List.mem_singleton]
  refine ⟨fun ⟨hy, hwy⟩ => ?_, fun hyx => hyx ▸ ⟨hx, hw⟩⟩
  by_contra hyx
  exact hwy (h y hy hyx)

/-- A tree of k leaves in 2k − 1 records, installed: the registers in terms of k (rules R176, R212). -/
theorem State.installTree_of_leafCount {N : List Node} {k : Nat} (hk : leafCount N = k) (hlen : N.length = 2 * k - 1)
    (r : BitVec 9) :
    s.installTree N r =
      { s with
        nodes := N
        nodeCount := BitVec.ofNat 10 (2 * k - 1)
        root := r
        codes := deriveCodes N r
        treeLen := BitVec.ofNat 32 ((10 * k - 1 + 7) / 8)
        treePad := BitVec.ofNat 3 (padOf (10 * k - 1))
        dataOff := 0#32
        cursor := r
        treeValid := true } := by
  rw [State.installTree, hk, hlen]
  rfl

theorem ProperTree.leafCount_eq {N : List Node} {r : BitVec 9} (h : ProperTree N r) {k : Nat} (hk : 1 ≤ k)
    (hlen : N.length = 2 * k - 1) : leafCount N = k := by
  have := h.count
  omega

end BuildResults

/-! ### The statements -/

/-- Settles O28: the proper tree of buildTree, with its registers in terms of the number of letters. -/
theorem buildResult : Obligations.BuildResult := by
  intro s k hk hpos
  have hne : presentLetters s ≠ [] := List.ne_nil_of_length_pos (by omega)
  obtain ⟨M, hN, hM, hMlen, hroot, htree⟩ := buildTree_proper s hne
  have hleaves : (buildLeaves s).length = k := by rw [buildLeaves_eq, List.length_map, hk]
  have hlen : (buildTree (buildLeaves s)).1.length = 2 * k - 1 := by rw [hN, List.length_append]; omega
  have hr : (buildTree (buildLeaves s)).2 = 2 * k - 2 := by omega
  have hexec := exec_of_computes (.build hne)
  rw [hr] at htree hexec
  rw [State.installTree_of_leafCount (htree.leafCount_eq hpos hlen) hlen] at hexec
  exact ⟨_, M, buildLeaves_eq s ▸ hN, hM, by omega, htree, hexec⟩

/-- Settles O30: BUILD's result for the one letter, whose Leaf is the root and so has the one-bit code. -/
theorem buildSingleLetter : Obligations.BuildSingleLetter := by
  intro s x hx hothers
  have hp := presentLetters_eq_singleton x.isLt hx hothers
  obtain ⟨N, M, hN, -, hM, -, hexec⟩ := buildResult s 1 (by rw [hp]; rfl) (Nat.le_refl 1)
  obtain rfl : M = [] := List.eq_nil_of_length_eq_zero (by omega)
  rw [hp, List.append_nil, List.map_singleton, BitVec.ofNat_toNat, BitVec.setWidth_eq] at hN
  subst hN
  have hcodes : deriveCodes [Node.leaf x ((s.weight x.toNat).setWidth 72)] 0#9 = [(x.toNat, [false])] :=
    ProperTree.code_leaf rfl
  exact hcodes ▸ hexec

/-- Settles O27: no letter is present, so BUILD has no leaf to start with. -/
theorem buildInputEmpty : Obligations.BuildInputEmpty :=
  fun _ h => exec_build_of_empty (presentLetters_eq_nil_iff.2 h)

end Sys2Proof.Machine
end

section
/-! SUPPORT. The order of BUILD's merges: the loop keeps the nodes that wait in its priority structure, and each merge
takes the two least of them (rules R173, R174). -/

namespace Sys2Proof.Machine

/-! ### Parents (rule R174) -/

/-- Record m is the parent of node i. -/
def ParentOf (N : List Node) (m i : Nat) : Prop :=
  ∃ w l r, N[m]? = some (.internal w l r) ∧ (i = l.toNat ∨ i = r.toNat)

theorem mem_childIndices_take {N : List Node} {m i : Nat} :
    i ∈ childIndices (N.take m) ↔ ∃ m' < m, ParentOf N m' i := by
  rw [childIndices, List.mem_flatMap]
  constructor
  · rintro ⟨n, hn, hi⟩
    obtain ⟨m', hn⟩ := List.mem_iff_getElem?.1 hn
    rw [List.getElem?_take] at hn
    split at hn
    case isTrue hlt =>
      cases n with
      | leaf x w => cases hi
      | internal w l r => exact ⟨m', hlt, w, l, r, hn, by simpa using hi⟩
    case isFalse => cases hn
  · rintro ⟨m', hlt, w, l, r, hn, hi⟩
    exact ⟨_, List.mem_of_getElem? ((List.getElem?_take_of_lt hlt).trans hn), by simpa using hi⟩

/-- A node waits for record m when it exists and no earlier record is its parent. -/
theorem awaits_iff {N : List Node} {m i : Nat} : Awaits N m i ↔ i < m ∧ ∀ m' < m, ¬ ParentOf N m' i := by
  simp [Awaits, mem_childIndices_take]

/-! ### The order of the merges (rule R173) -/

/-- Among the nodes that wait for record m, l has the least pair (weight, index) and r the least of the rest. -/
structure TakesLeast (N : List Node) (m l r : Nat) : Prop where
  leftAwaits : Awaits N m l
  leftLeast : ∀ i, Awaits N m i → NotHeavier N l i
  rightAwaits : Awaits N m r
  ne : r ≠ l
  rightLeast : ∀ i, Awaits N m i → i ≠ l → NotHeavier N r i

/-- Each Internal record has the children that rule R173 chooses. -/
def MergesLeast (N : List Node) : Prop :=
  ∀ m w l r, N[m]? = some (.internal w l r) → TakesLeast N m l.toNat r.toNat

theorem weightAt_append {N : List Node} {i : Nat} (h : i < N.length) (M : List Node) :
    weightAt (N ++ M) i = weightAt N i := by
  simp [weightAt, List.getD_eq_getElem?_getD, List.getElem?_append_left h]

theorem notHeavier_append {N : List Node} {i j : Nat} (hi : i < N.length) (hj : j < N.length) (M : List Node) :
    NotHeavier (N ++ M) i j ↔ NotHeavier N i j := by
  rw [NotHeavier, weightAt_append hi, weightAt_append hj, NotHeavier]

theorem awaits_append {N : List Node} {m : Nat} (h : m ≤ N.length) (M : List Node) (i : Nat) :
    Awaits (N ++ M) m i ↔ Awaits N m i := by
  rw [Awaits, List.take_append_of_le_length h, Awaits]

/-- What a merge takes does not change as records are added. -/
theorem TakesLeast.append {N : List Node} {m l r : Nat} (h : TakesLeast N m l r) (hm : m ≤ N.length) (M : List Node) :
    TakesLeast (N ++ M) m l r := by
  have hlt : ∀ {i}, Awaits N m i → i < N.length := fun ⟨hi, _⟩ => Nat.lt_of_lt_of_le hi hm
  refine ⟨(awaits_append hm M l).2 h.leftAwaits, fun i hi => ?_, (awaits_append hm M r).2 h.rightAwaits, h.ne,
    fun i hi hne => ?_⟩
  · rw [awaits_append hm] at hi
    exact (notHeavier_append (hlt h.leftAwaits) (hlt hi) M).2 (h.leftLeast i hi)
  · rw [awaits_append hm] at hi
    exact (notHeavier_append (hlt h.rightAwaits) (hlt hi) M).2 (h.rightLeast i hi hne)

/-! ### One merge of the loop (rules R173, R174) -/

/-- The least node of a priority structure that is not empty. -/
def least (N : List Node) (Q : List Nat) : Nat := argmin N (Q.headD 0) Q.tail

theorem least_mem {N : List Node} {Q : List Nat} (h : Q ≠ []) : least N Q ∈ Q := by
  cases Q with
  | nil => exact absurd rfl h
  | cons i Q => exact argmin_mem N i Q

theorem least_notHeavier {N : List Node} {Q : List Nat} {j : Nat} (h : j ∈ Q) : NotHeavier N (least N Q) j := by
  cases Q with
  | nil => cases h
  | cons i Q => exact argmin_least N i Q j h

/-- The least of the rest. -/
def secondLeast (N : List Node) (Q : List Nat) : Nat := least N (Q.erase (least N Q))

/-- The record that merges nodes a and b. -/
def mergedNode (N : List Node) (a b : Nat) : Node :=
  .internal (weightAt N a + weightAt N b) (BitVec.ofNat 9 a) (BitVec.ofNat 9 b)

/-- The records after one merge. -/
def mergeRecords (N : List Node) (Q : List Nat) : List Node := N ++ [mergedNode N (least N Q) (secondLeast N Q)]

/-- The priority structure after one merge. -/
def mergeQueue (N : List Node) (Q : List Nat) : List Nat :=
  (Q.erase (least N Q)).erase (secondLeast N Q) ++ [N.length]

theorem mergeAll_succ (k : Nat) (N : List Node) {Q : List Nat} (h : 2 ≤ Q.length) :
    mergeAll (k + 1) N Q = mergeAll k (mergeRecords N Q) (mergeQueue N Q) := by
  match Q, h with
  | _ :: _ :: _, _ => rfl

/-- What every merge keeps holds of the records the loop ends with. -/
theorem mergeAll_induction {P : List Node → List Nat → Prop}
    (step : ∀ N Q, 2 ≤ Q.length → P N Q → P (mergeRecords N Q) (mergeQueue N Q))
    (k : Nat) {N : List Node} {Q : List Nat} (h : P N Q) : ∃ Q', P (mergeAll k N Q).1 Q' := by
  induction k generalizing N Q with
  | zero =>
    match Q with
    | [] => exact ⟨_, h⟩
    | [_] => exact ⟨_, h⟩
    | _ :: _ :: _ => exact ⟨_, h⟩
  | succ k ih =>
    match Q with
    | [] => exact ⟨_, h⟩
    | [_] => exact ⟨_, h⟩
    | i :: j :: Q =>
      have h2 : 2 ≤ (i :: j :: Q).length := by simp
      rw [mergeAll_succ k N h2]
      exact ih (step N _ h2 h)

/-! ### The invariant of the loop -/

/-- The priority structure lists the nodes that wait for the next record, and every merge so far took the least. -/
structure Merging (N : List Node) (Q : List Nat) : Prop where
  fits : N.length + Q.length ≤ 512
  nodup : Q.Nodup
  waiting : ∀ i, i ∈ Q ↔ Awaits N N.length i
  merges : MergesLeast N

theorem childIndices_append_mergedNode {N : List Node} {a b : Nat} (ha : a < 512) (hb : b < 512) :
    childIndices (N ++ [mergedNode N a b]) = childIndices N ++ [a, b] := by
  simp [childIndices, mergedNode, Nat.mod_eq_of_lt ha, Nat.mod_eq_of_lt hb]

/-- After a merge its two nodes wait no more. -/
theorem awaits_mergedNode {N : List Node} {a b : Nat} (ha : a < 512) (hb : b < 512) (i : Nat) :
    Awaits (N ++ [mergedNode N a b]) (N ++ [mergedNode N a b]).length i
      ↔ i < N.length + 1 ∧ i ∉ childIndices N ∧ i ≠ a ∧ i ≠ b := by
  rw [Awaits, List.take_length, childIndices_append_mergedNode ha hb]
  simp

theorem childIndices_lt {N : List Node} (h : MergesLeast N) {i : Nat} (hi : i ∈ childIndices N) : i < N.length := by
  rw [← List.take_length (l := N), mem_childIndices_take] at hi
  obtain ⟨m, hm, w, l, r, hN, hi⟩ := hi
  obtain ⟨⟨hl, -⟩, -, ⟨hr, -⟩, -⟩ := h m w l r hN
  omega

/-- A merge takes the two least nodes that wait. -/
theorem Merging.takesLeast {N : List Node} {Q : List Nat} (h : Merging N Q) (h2 : 2 ≤ Q.length) :
    TakesLeast N N.length (least N Q) (secondLeast N Q) := by
  have ha : least N Q ∈ Q := least_mem (List.ne_nil_of_length_pos (by omega))
  have hlen := List.length_erase_of_mem ha
  have hb : secondLeast N Q ∈ Q.erase (least N Q) := least_mem (List.ne_nil_of_length_pos (by omega))
  obtain ⟨hne, hb⟩ := h.nodup.mem_erase_iff.1 hb
  exact ⟨(h.waiting _).1 ha, fun i hi => least_notHeavier ((h.waiting i).2 hi), (h.waiting _).1 hb, hne,
    fun i hi hia => least_notHeavier (h.nodup.mem_erase_iff.2 ⟨hia, (h.waiting i).2 hi⟩)⟩

theorem Merging.mem_rest {N : List Node} {Q : List Nat} (h : Merging N Q) (a b i : Nat) :
    i ∈ (Q.erase a).erase b ↔ i ≠ b ∧ i ≠ a ∧ i < N.length ∧ i ∉ childIndices N := by
  rw [(h.nodup.erase a).mem_erase_iff, h.nodup.mem_erase_iff, h.waiting, Awaits, List.take_length]

/-- One merge keeps the invariant. -/
theorem Merging.merge {N : List Node} {Q : List Nat} (h : Merging N Q) (h2 : 2 ≤ Q.length) :
    Merging (mergeRecords N Q) (mergeQueue N Q) := by
  have hleast := h.takesLeast h2
  rw [mergeRecords, mergeQueue]
  generalize least N Q = a, secondLeast N Q = b at hleast ⊢
  have haQ := (h.waiting a).2 hleast.leftAwaits
  have hbQ := h.nodup.mem_erase_iff.2 ⟨hleast.ne, (h.waiting b).2 hleast.rightAwaits⟩
  have hfits := h.fits
  obtain ⟨ha, -⟩ := hleast.leftAwaits
  obtain ⟨hb, -⟩ := hleast.rightAwaits
  refine ⟨?_, ?_, fun i => ?_, fun m w l r hm => ?_⟩
  · have hla := List.length_erase_of_mem haQ
    have hlb := List.length_erase_of_mem hbQ
    simp only [List.length_append, List.length_singleton, hlb, hla]
    omega
  · refine List.nodup_append.2 ⟨(h.nodup.erase a).erase b, List.nodup_singleton _, fun i hi j hj => ?_⟩
    obtain ⟨-, -, hlt, -⟩ := (h.mem_rest a b i).1 hi
    rw [List.mem_singleton] at hj
    omega
  · have hnew : N.length ∉ childIndices N := fun hc => Nat.lt_irrefl _ (childIndices_lt h.merges hc)
    rw [awaits_mergedNode (by omega) (by omega), List.mem_append, h.mem_rest, List.mem_singleton,
      Nat.lt_succ_iff_lt_or_eq]
    constructor
    · rintro (⟨hib, hia, hlt, hc⟩ | rfl)
      · exact ⟨.inl hlt, hc, hia, hib⟩
      · exact ⟨.inr rfl, hnew, by omega, by omega⟩
    · rintro ⟨hlt | rfl, hc, hia, hib⟩
      · exact .inl ⟨hib, hia, hlt, hc⟩
      · exact .inr rfl
  · rcases Nat.lt_trichotomy m N.length with hlt | rfl | hgt
    · rw [List.getElem?_append_left hlt] at hm
      exact (h.merges m w l r hm).append (Nat.le_of_lt hlt) _
    · rw [List.getElem?_concat_length] at hm
      cases hm
      simpa [Nat.mod_eq_of_lt (show a < 512 by omega), Nat.mod_eq_of_lt (show b < 512 by omega)]
        using hleast.append (Nat.le_refl _) [mergedNode N a b]
    · rw [List.getElem?_eq_none (by rw [List.length_append, List.length_singleton]; omega)] at hm
      cases hm

theorem length_buildLeaves_le (s : State) : (buildLeaves s).length ≤ 256 := by
  rw [buildLeaves_eq, List.length_map]
  exact length_presentLetters s

/-- BUILD starts with every leaf waiting and no merge made. -/
theorem merging_buildLeaves (s : State) : Merging (buildLeaves s) (List.range (buildLeaves s).length) := by
  have hk := length_buildLeaves_le s
  have hleaf : ∀ n ∈ buildLeaves s, n.isInternal = false := fun n hn => by
    rw [buildLeaves_eq] at hn
    obtain ⟨x, -, rfl⟩ := List.mem_map.1 hn
    rfl
  have hparent : ∀ m i, ¬ ParentOf (buildLeaves s) m i := fun m i ⟨w, l, r, hm, _⟩ =>
    Bool.noConfusion (hleaf _ (List.mem_of_getElem? hm))
  refine ⟨?_, List.nodup_range, fun i => ?_, fun m w l r hm => ?_⟩
  · rw [List.length_range]
    omega
  · rw [awaits_iff, List.mem_range]
    exact ⟨fun h => ⟨h, fun m _ => hparent m i⟩, fun h => h.1⟩
  · exact absurd ⟨w, l, r, hm, .inl rfl⟩ (hparent m l.toNat)

theorem buildTree_mergesLeast (s : State) : MergesLeast (buildTree (buildLeaves s)).1 := by
  obtain ⟨Q, h⟩ := mergeAll_induction (fun _ _ h2 h => h.merge h2) (buildLeaves s).length (merging_buildLeaves s)
  exact h.merges

/-- The records of a BUILD that succeeds are those of buildTree. -/
theorem exec_build_nodes {s t : State} (he : exec .build s = .next t) (h0 : t.err = 0#8) :
    t.nodes = (buildTree (buildLeaves s)).1 := by
  obtain ⟨u, hu, rfl⟩ := exec_success he h0
  cases hu
  rfl

/-! ### The statement -/

/-- Settles O29: the loop's invariant at its end, and the exact sums of the records. -/
theorem buildMergeOrder : Obligations.BuildMergeOrder := by
  intro s t he h0 m w l r hm
  have hleast : MergesLeast t.nodes := exec_build_nodes he h0 ▸ buildTree_mergesLeast s
  obtain ⟨hl, hll, hr, hne, hrl⟩ := hleast m w l r hm
  exact ⟨hl, hll, hr, fun h => hne (congrArg BitVec.toNat h), hrl,
    exec_build_weightsAdd he h0 _ (List.mem_of_getElem? hm)⟩

end Sys2Proof.Machine
end

section
/-! SUPPORT. Code lengths after BUILD: parents stand in the order of their children's pairs (weight, index), so depths
fall as weights grow (rules R173, R174, R181). -/

namespace Sys2Proof.Machine

/-! ### What the order of the merges says of weights (rules R173, R174) -/

/-- BUILD's records as the argument about code lengths sees them: each Internal record has the two least nodes
that waited for it as children and the sum of their weights, and after an Internal record stand only such. -/
structure Greedy (N : List Node) : Prop where
  merges : MergesLeast N
  adds : WeightsAdd N
  later : ∀ {m n i : Nat}, ParentOf N m i → m ≤ n → n < N.length → ∃ w l r, N[n]? = some (.internal w l r)

section GreedyFacts

variable {N : List Node} {m n i j : Nat}

/-- The weight of an Internal record is the sum of its children's. -/
theorem Greedy.weight_eq (h : Greedy N) {w : BitVec 72} {l r : BitVec 9} (hm : N[m]? = some (.internal w l r)) :
    (weightAt N m).toNat = (weightAt N l.toNat).toNat + (weightAt N r.toNat).toNat := by
  have hw : weightAt N m = w := by simp [weightAt, List.getD_eq_getElem?_getD, hm, Node.weight]
  rw [hw]
  exact h.adds _ (List.mem_of_getElem? hm)

theorem Greedy.weight_child_le (h : Greedy N) (hp : ParentOf N m i) :
    (weightAt N i).toNat ≤ (weightAt N m).toNat := by
  obtain ⟨w, l, r, hm, hi⟩ := hp
  rw [h.weight_eq hm]
  rcases hi with rfl | rfl
  · exact Nat.le_add_right _ _
  · exact Nat.le_add_left _ _

theorem Greedy.child_awaits (h : Greedy N) (hp : ParentOf N m i) : Awaits N m i := by
  obtain ⟨w, l, r, hm, hi⟩ := hp
  have hl := h.merges m w l r hm
  rcases hi with rfl | rfl
  · exact hl.leftAwaits
  · exact hl.rightAwaits

theorem Greedy.child_lt (h : Greedy N) (hp : ParentOf N m i) : i < m := (h.child_awaits hp).1

/-- The children of a record come before every node that waited for it in vain. -/
theorem Greedy.child_notHeavier (h : Greedy N) (hp : ParentOf N m i) (hj : Awaits N m j) (hne : ¬ ParentOf N m j) :
    NotHeavier N i j := by
  obtain ⟨w, l, r, hm, hi⟩ := hp
  have hl := h.merges m w l r hm
  rcases hi with rfl | rfl
  · exact hl.leftLeast j hj
  · exact hl.rightLeast j hj fun hjl => hne ⟨w, l, r, hm, .inl hjl⟩

/-- A node that waits for record n and is older than record m, m before n, waited for m in vain. -/
theorem awaited_of_awaits (hj : Awaits N n j) (hmn : m < n) (hjm : j < m) : Awaits N m j ∧ ¬ ParentOf N m j := by
  obtain ⟨-, hno⟩ := awaits_iff.1 hj
  exact ⟨awaits_iff.2 ⟨hjm, fun m' hm' => hno m' (by omega)⟩, hno m hmn⟩

/-- The weights of the Internal records do not fall. -/
theorem Greedy.weight_mono (h : Greedy N) (hp : ParentOf N m i) (hmn : m ≤ n) (hn : n < N.length) :
    (weightAt N m).toNat ≤ (weightAt N n).toNat := by
  induction n using Nat.strong_induction_on with
  | _ n ih =>
    rcases Nat.eq_or_lt_of_le hmn with rfl | hlt
    · exact Nat.le_refl _
    obtain ⟨w, l, r, hnode⟩ := h.later hp hmn hn
    have hl : ParentOf N n l.toNat := ⟨w, l, r, hnode, .inl rfl⟩
    have hr : ParentOf N n r.toNat := ⟨w, l, r, hnode, .inr rfl⟩
    have hll := h.child_lt hl
    have hrl := h.child_lt hr
    by_cases hml : m ≤ l.toNat
    · exact (ih _ hll hml (by omega)).trans (h.weight_child_le hl)
    by_cases hmr : m ≤ r.toNat
    · exact (ih _ hrl hmr (by omega)).trans (h.weight_child_le hr)
    obtain ⟨w', l', r', hnode'⟩ := h.later hp (Nat.le_refl m) (by omega)
    obtain ⟨hal, hvl⟩ := awaited_of_awaits (h.child_awaits hl) hlt (by omega)
    obtain ⟨har, hvr⟩ := awaited_of_awaits (h.child_awaits hr) hlt (by omega)
    have hleft : NotHeavier N l'.toNat l.toNat := h.child_notHeavier ⟨w', l', r', hnode', .inl rfl⟩ hal hvl
    have hright : NotHeavier N r'.toNat r.toNat := h.child_notHeavier ⟨w', l', r', hnode', .inr rfl⟩ har hvr
    rw [h.weight_eq hnode, h.weight_eq hnode']
    unfold NotHeavier at hleft hright
    omega

/-- A child's pair (weight, index) is less than that of every record from its parent on. -/
theorem Greedy.not_notHeavier_child (h : Greedy N) (hp : ParentOf N m i) (hmn : m ≤ n) (hn : n < N.length) :
    ¬ NotHeavier N n i := by
  have hw := (h.weight_child_le hp).trans (h.weight_mono hp hmn hn)
  have hi := h.child_lt hp
  unfold NotHeavier
  omega

/-- The parents of two nodes stand in the order of the nodes' pairs. -/
theorem Greedy.parent_notHeavier {v u mv mu : Nat} (h : Greedy N) (hv : ParentOf N mv v) (hu : ParentOf N mu u)
    (hvu : NotHeavier N v u) (hmv : mv < N.length) (hmu : mu < N.length) : NotHeavier N mv mu := by
  have hle : mv ≤ mu := by
    by_contra hlt
    have hvm := h.child_lt hv
    by_cases hold : mu ≤ v
    · exact h.not_notHeavier_child hu hold (by omega) hvu
    · obtain ⟨ha, hn⟩ := awaited_of_awaits (h.child_awaits hv) (Nat.lt_of_not_le hlt) (by omega)
      have huv := h.child_notHeavier hu ha hn
      have huv' : v = u := by unfold NotHeavier at hvu huv; omega
      exact hn (huv' ▸ hu)
  have := h.weight_mono hv hle hmu
  unfold NotHeavier
  omega

end GreedyFacts

/-! ### Depths (rule R180) -/

/-- Following children from node r leads to node i in d steps. -/
inductive AtDepth (N : List Node) (r : Nat) : Nat → Nat → Prop
  | root : AtDepth N r r 0
  | child {m i d : Nat} : AtDepth N r m d → ParentOf N m i → AtDepth N r i (d + 1)

theorem ParentOf.lt_length {N : List Node} {m i : Nat} (h : ParentOf N m i) : m < N.length := by
  obtain ⟨w, l, r, hm, -⟩ := h
  exact (List.getElem?_eq_some_iff.1 hm).1

/-- A node with the greater pair (weight, index) lies no deeper. -/
theorem Greedy.depth_le {N : List Node} {r u v d e : Nat} (h : Greedy N) (hr : r + 1 = N.length)
    (hu : AtDepth N r u d) (hv : AtDepth N r v e) (hvu : NotHeavier N v u) : d ≤ e := by
  induction hu generalizing v e with
  | root => exact Nat.zero_le e
  | @child mu u d hmu hpu ih =>
    cases hv with
    | root =>
      have hlt := hpu.lt_length
      exact absurd hvu (h.not_notHeavier_child hpu (by omega) (by omega))
    | child hmv hpv => exact Nat.succ_le_succ (ih hmv (h.parent_notHeavier hpv hpu hvu hpv.lt_length hpu.lt_length))

theorem Greedy.atDepth_lt {N : List Node} {r i d : Nat} (h : Greedy N) (hr : r < N.length) (hi : AtDepth N r i d) :
    i < N.length := by
  cases hi with
  | root => exact hr
  | child _ hp => exact (h.child_lt hp).trans hp.lt_length

/-- The node a path leads to lies as deep as the path is long. -/
theorem exists_atDepth_of_descend {N : List Node} {r : Nat} {p : BitString} {i : BitVec 9} {d : Nat} {n : Node}
    (hi : AtDepth N r i.toNat d) (h : descend N i p = some n) :
    ∃ j : BitVec 9, nodeAt N j = n ∧ AtDepth N r j.toNat (d + p.length) := by
  induction p generalizing i d with
  | nil => exact ⟨i, Option.some.inj h, hi⟩
  | cons b p ih =>
    rw [descend] at h
    split at h
    · cases h
    case _ w l r' hnode =>
      have hchild : ParentOf N i.toNat (if b then r' else l).toNat :=
        ⟨w, l, r', nodeAt_internal hnode, by cases b <;> simp⟩
      obtain ⟨j, hj, hd⟩ := ih (hi.child hchild) h
      exact ⟨j, hj, by rw [List.length_cons, Nat.add_comm p.length, ← Nat.add_assoc]; exact hd⟩

/-! ### BUILD's codes (rule R181) -/

theorem buildTree_greedy {s : State} (hne : presentLetters s ≠ []) : Greedy (buildTree (buildLeaves s)).1 := by
  obtain ⟨M, hN, hM, -, -, htree⟩ := buildTree_proper s hne
  refine ⟨buildTree_mergesLeast s, htree.weightsAdd, fun {m n i} ⟨w, l, r, hm, _⟩ hmn hn => ?_⟩
  have hfirst : (buildLeaves s).length ≤ m := by
    by_contra hlt
    rw [hN, List.getElem?_append_left (by omega), buildLeaves_eq] at hm
    obtain ⟨x, -, hx⟩ := List.mem_map.1 (List.mem_of_getElem? hm)
    cases hx
  have hlater : (buildTree (buildLeaves s)).1[n] ∈ M := by
    simp only [hN, List.getElem_append_right (Nat.le_trans hfirst hmn)]
    exact List.getElem_mem _
  rw [List.getElem?_eq_getElem hn]
  cases hnode : (buildTree (buildLeaves s)).1[n] with
  | leaf x w' => cases hM _ (hnode ▸ hlater)
  | internal w' l' r' => exact ⟨w', l', r', rfl⟩

/-- A Leaf record of BUILD has its letter's weight. -/
theorem buildTree_leaf_weight {s : State} (hne : presentLetters s ≠ []) {x : Byte} {w : BitVec 72}
    (h : Node.leaf x w ∈ (buildTree (buildLeaves s)).1) : w.toNat = (s.weight x.toNat).toNat := by
  obtain ⟨M, hN, hM, -⟩ := buildTree_proper s hne
  rw [hN, List.mem_append, buildLeaves_eq] at h
  rcases h with h | h
  · obtain ⟨y, hy, hxy⟩ := List.mem_map.1 h
    cases hxy
    have hy := (mem_presentLetters.1 hy).1
    have hw := (s.weight y).isLt
    rw [BitVec.toNat_setWidth, BitVec.toNat_ofNat, Nat.mod_eq_of_lt hy, Nat.mod_eq_of_lt (by omega)]
  · cases hM _ h

theorem buildTree_root_last {s : State} (hne : presentLetters s ≠ []) :
    (BitVec.ofNat 9 (buildTree (buildLeaves s)).2).toNat + 1 = (buildTree (buildLeaves s)).1.length := by
  obtain ⟨M, hN, -, hMlen, hroot, -⟩ := buildTree_proper s hne
  have hk := length_buildLeaves_le s
  rw [BitVec.toNat_ofNat, Nat.mod_eq_of_lt (by omega), hN, List.length_append]
  omega

theorem ProperTree.exists_byte_of_code {N : List Node} {r : BitVec 9} (h : ProperTree N r) {k : Nat} {p : BitString}
    (hk : Table.lookup (deriveCodes N r) k = some p) : ∃ x : Byte, k = x.toNat := by
  obtain ⟨sh, hsh⟩ := h.exists_codeEntries
  have hmem := List.mem_map_of_mem (f := Prod.fst) ((hsh k p).1 hk)
  rw [Shape.codeEntries_letters] at hmem
  obtain ⟨x, -, hx⟩ := List.mem_map.1 hmem
  exact ⟨x, hx.symm⟩

theorem ProperTree.code_length_of_leaf {N : List Node} {r : BitVec 9} {y : Byte} {w : BitVec 72} {k : Nat}
    {p : BitString} (hleaf : N[r.toNat]? = some (.leaf y w)) (hk : Table.lookup (deriveCodes N r) k = some p) :
    p.length = 1 := by
  have hmem := Table.lookup_mem hk
  rw [ProperTree.code_leaf hleaf, List.mem_singleton] at hmem
  cases hmem
  rfl

/-- A letter's code is as long as its leaf, which has its weight, is deep. -/
theorem buildTree_code_atDepth {s : State} (hne : presentLetters s ≠ []) {r : BitVec 9} {x : Nat} {p : BitString}
    (htree : ProperTree (buildTree (buildLeaves s)).1 r) (hi : internalAt (buildTree (buildLeaves s)).1 r)
    (hx : Table.lookup (deriveCodes (buildTree (buildLeaves s)).1 r) x = some p) :
    ∃ j, (weightAt (buildTree (buildLeaves s)).1 j).toNat = (s.weight x).toNat
      ∧ AtDepth (buildTree (buildLeaves s)).1 r.toNat j p.length := by
  obtain ⟨b, rfl⟩ := htree.exists_byte_of_code hx
  obtain ⟨w, hd⟩ := (htree.code_iff_descend hi b p).1 hx
  obtain ⟨j, hj, hdepth⟩ := exists_atDepth_of_descend .root hd
  rw [Nat.zero_add] at hdepth
  have hjlt := (buildTree_greedy hne).atDepth_lt htree.root_lt hdepth
  have hmem : nodeAt (buildTree (buildLeaves s)).1 j ∈ (buildTree (buildLeaves s)).1 := by
    rw [nodeAt, List.getD_eq_getElem _ _ hjlt]
    exact List.getElem_mem hjlt
  refine ⟨j.toNat, ?_, hdepth⟩
  rw [← buildTree_leaf_weight hne (hj ▸ hmem)]
  exact congrArg (fun n => n.weight.toNat) hj

/-! ### The statement -/

/-- Settles O31: of two leaves the one with the greater pair (weight, index) lies no deeper. -/
theorem buildCodeOrder : Obligations.BuildCodeOrder := by
  intro s t x y p q he h0 hx hy hw
  obtain ⟨u, hu, rfl⟩ := exec_success he h0
  cases hu with
  | build hne =>
    obtain ⟨-, -, -, -, -, htree⟩ := buildTree_proper s hne
    have hlast := buildTree_root_last hne
    generalize BitVec.ofNat 9 (buildTree (buildLeaves s)).2 = r at hlast htree hx hy
    have hnode := List.getElem?_eq_getElem htree.root_lt
    cases hc : (buildTree (buildLeaves s)).1[r.toNat] with
    | leaf z w =>
      rw [hc] at hnode
      rw [ProperTree.code_length_of_leaf hnode hx, ProperTree.code_length_of_leaf hnode hy]
    | internal w l r' =>
      rw [hc] at hnode
      obtain ⟨i, hwi, hdi⟩ := buildTree_code_atDepth hne htree ⟨w, l, r', hnode⟩ hx
      obtain ⟨j, hwj, hdj⟩ := buildTree_code_atDepth hne htree ⟨w, l, r', hnode⟩ hy
      exact (buildTree_greedy hne).depth_le hlast hdi hdj (.inl (by omega))

end Sys2Proof.Machine
end

section
/-! SUPPORT. The Kraft equality: the leaves of a shape share out the root's part of the sum (rule R181). -/

namespace Sys2Proof.Machine

/-! ### The code table as a list (rules R54, R180) -/

/-- Where the letters are distinct, the code table lists the entries written to it, in letter order. -/
theorem codeTable_perm {es : List (Nat × BitString)} (hn : (es.map Prod.fst).Nodup) : (codeTable es).Perm es := by
  have hwf : Table.wf (codeTable es) := Table.wf_foldl_insert es List.Pairwise.nil
  have hnodup : ((codeTable es).map Prod.fst).Nodup := hwf.imp Nat.ne_of_lt
  refine (List.perm_ext_iff_of_nodup hnodup.of_map hn.of_map).2 fun ⟨k, p⟩ => ?_
  rw [← lookup_codeTable hn]
  exact ⟨Table.lookup_of_mem hwf, Table.lookup_mem⟩

/-- A proper tree's code table lists the entries of a shape with as many letters as there are Leaf records. -/
theorem ProperTree.deriveCodes_perm {N : List Node} {r : BitVec 9} (h : ProperTree N r) :
    ∃ sh : Shape, sh.letters.length = leafCount N ∧ (deriveCodes N r).Perm sh.codeEntries := by
  obtain ⟨t, rfl, hh, -, hn, hc, h256⟩ := h.holds
  have hd : t.shape.depth ≤ Config.maxNodes := by have := t.shape.depth_le; unfold Config.maxNodes; omega
  refine ⟨t.shape, hc, ?_⟩
  rw [deriveCodes, codeEntries_eq hh hd]
  refine codeTable_perm ?_
  rw [Shape.codeEntries_letters]
  exact List.Nodup.map (fun _ _ => BitVec.eq_of_toNat_eq) hn

/-! ### The Kraft sum (rule R181) -/

theorem Shape.depth_pos (t : Shape) : 0 < t.depth := by
  cases t with
  | leaf x => exact Nat.one_pos
  | node l r => exact Nat.lt_of_lt_of_le Nat.one_pos (Nat.le_add_right 1 _)

/-- 2^256 times the sum of 2^(−LEN) over the entries of a code table. -/
def kraftSum (es : List (Nat × BitString)) : Nat := (es.map fun e => 2 ^ (256 - e.2.length)).sum

theorem kraftSum_append (ds es : List (Nat × BitString)) : kraftSum (ds ++ es) = kraftSum ds + kraftSum es := by
  simp [kraftSum]

/-- The leaves below a node share the node's part of the sum, half going to each side. -/
theorem Shape.kraftSum_paths (t : Shape) (p : BitString) (hp : p.length + t.depth ≤ 257) :
    kraftSum (t.paths p) = 2 ^ (256 - p.length) := by
  induction t generalizing p with
  | leaf x => simp [Shape.paths, kraftSum]
  | node l r ihl ihr =>
    simp only [Shape.depth] at hp
    have hhalf : 256 - p.length = 256 - (p.length + 1) + 1 := by
      have := l.depth_pos
      omega
    have hlen : ∀ b : Bool, (p ++ [b]).length = p.length + 1 := fun b => List.length_append
    rw [Shape.paths, kraftSum_append, ihl _ (by rw [hlen]; omega), ihr _ (by rw [hlen]; omega), hlen, hlen, hhalf,
      Nat.pow_succ]
    omega

/-! ### The statement -/

/-- Settles O35: the code table lists the paths of a shape, whose leaves share out the root's part of the sum, and no
path is longer than the shape is deep. -/
theorem kraftEquality : Obligations.KraftEquality := by
  intro s h hv
  have htree := h.properTree hv
  obtain ⟨hvalid, -⟩ := h.tree
  obtain ⟨-, -, hcodes, -⟩ := hvalid hv
  obtain ⟨sh, hcount, hperm⟩ := htree.deriveCodes_perm
  have hsum : (s.codes.map fun e => 2 ^ (256 - e.2.length)).sum = kraftSum sh.codeEntries :=
    hcodes ▸ (hperm.map _).sum_eq
  have hfew := htree.fewLeaves
  have hdepth := sh.depth_le
  rw [hsum]
  cases sh with
  | leaf x =>
    refine ⟨fun h2 => ?_, fun _ => by simp [kraftSum, Shape.codeEntries]⟩
    simp only [Shape.letters, List.length_singleton] at hcount
    omega
  | node l r =>
    have hl := l.length_letters_pos
    have hr := r.length_letters_pos
    have hletters : (Shape.node l r).letters.length = l.letters.length + r.letters.length := List.length_append
    refine ⟨fun _ => ⟨Shape.kraftSum_paths _ [] (by rw [List.length_nil]; omega), fun x p hx => ?_⟩,
      fun h1 => by omega⟩
    have hmem : (x, p) ∈ (Shape.node l r).paths [] := hperm.mem_iff.1 (hcodes ▸ Table.lookup_mem hx)
    have hlen : p.length + 1 ≤ 0 + (Shape.node l r).depth := (Shape.paths_length hmem).2
    omega

end Sys2Proof.Machine
end

section
/-! SUPPORT. Where the tree parser stops: on a repeated letter, on bits that run out and on bits left over, in the
words of the grammar (rules R121, R222, R223, R225). -/

namespace Sys2Proof.Machine

section ParseStops

variable {m : Memory} {off nbits : Nat}

/-! ### Bits taken from a chunk -/

theorem Takes.of_isPrefix {pos : Nat} {bs cs : BitString} (h : Takes m off nbits pos cs) (hp : bs <+: cs) :
    Takes m off nbits pos bs := by
  obtain ⟨ds, rfl⟩ := hp
  exact (takes_append.1 h).1

/-- The bits at a position are one string: two strings of one length that are taken there are equal. -/
theorem Takes.unique {pos : Nat} {bs cs : BitString} (hb : Takes m off nbits pos bs) (hc : Takes m off nbits pos cs)
    (hl : bs.length = cs.length) : bs = cs := by
  refine List.ext_getElem hl fun i h1 h2 => ?_
  have := (hb i h1).symm.trans (hc i h2)
  rwa [Except.ok.injEq] at this

/-- Rule R222: taking a bit past the end is TreeFormatTooSmall, which names the number of bits. -/
theorem takeBit_past : takeBit m off nbits nbits = .error (.err .treeFormatTooSmall (BitVec.ofNat 32 nbits)) := by
  simp [takeBit]

/-! ### Leaf offsets (rule R223) -/

@[simp] theorem Shape.length_leafOffsets (t : Shape) (pos : Nat) : (t.leafOffsets pos).length = t.letters.length := by
  induction t generalizing pos with
  | leaf x => rfl
  | node l r ihl ihr => simp [Shape.leafOffsets, Shape.letters, ihl, ihr]

/-- A leaf's tag and letter stand within the serialization. -/
theorem Shape.bounds_of_mem_leafOffsets {t : Shape} {pos o : Nat} (h : o ∈ t.leafOffsets pos) :
    pos ≤ o ∧ o + 9 ≤ pos + t.bits.length := by
  induction t generalizing pos with
  | leaf x =>
    obtain rfl := List.mem_singleton.1 h
    simp [Shape.bits]
  | node l r ihl ihr =>
    simp only [Shape.bits, List.length_cons, List.length_append]
    rcases List.mem_append.1 h with h | h
    · have := ihl h; omega
    · have := ihr h; omega

/-! ### The repeated letter (rule R223) -/

/-- The parser stops at the first leaf, here leaf k, whose letter has been met before, if its bits reach that far:
the subtrees to the left of the path to the leaf parse, and the fuel lasts because each level takes a bit. -/
theorem parseNode_duplicate (t : Shape) {f pos k o : Nat} {seen : List Byte} {x : Byte}
    (hx : t.letters[k]? = some x) (ho : (t.leafOffsets pos)[k]? = some o) (hf : o < pos + f)
    (h : Takes m off nbits pos (t.bits.take (o + 9 - pos))) (hn : (t.letters.take k).Nodup)
    (hd : ∀ y ∈ t.letters.take k, y ∉ seen) (hr : x ∈ seen ∨ x ∈ t.letters.take k) :
    parseNode m off nbits f pos seen = .error (.err .treeFormatDuplicate (detail x.toNat o)) := by
  induction t generalizing f pos k seen with
  | leaf y =>
    obtain ⟨rfl, rfl⟩ : k = 0 ∧ y = x := by simpa [Shape.letters, List.getElem?_singleton] using hx
    obtain rfl : pos = o := by simpa [Shape.leafOffsets] using ho
    obtain ⟨f, rfl⟩ : ∃ g, f = g + 1 := ⟨f - 1, by omega⟩
    rw [List.take_of_length_le (by simp [Shape.bits]), Shape.bits, takes_cons] at h
    have hseen : y ∈ seen := by simpa using hr
    simp [parseNode, h.1, takeLetter_eq h.2, hseen]
  | node l r ihl ihr =>
    have hpos : pos + 1 ≤ o := by
      rcases List.mem_append.1 (List.mem_of_getElem? ho) with hmem | hmem
      · exact (Shape.bounds_of_mem_leafOffsets hmem).1
      · have := Shape.bounds_of_mem_leafOffsets hmem; omega
    obtain ⟨f, rfl⟩ : ∃ g, f = g + 1 := ⟨f - 1, by omega⟩
    rw [show o + 9 - pos = o + 9 - (pos + 1) + 1 by omega, Shape.bits, List.take_succ_cons, takes_cons,
      List.take_append, takes_append] at h
    obtain ⟨htag, hleft, hrest⟩ := h
    simp only [Shape.letters, List.take_append] at hx hn hd hr
    simp only [Shape.leafOffsets] at ho
    by_cases hk : k < l.letters.length
    · rw [List.getElem?_append_left hk] at hx
      rw [List.getElem?_append_left (by simpa using hk)] at ho
      rw [show k - l.letters.length = 0 by omega, List.take_zero, List.append_nil] at hn hd hr
      have hl := ihl (f := f) hx ho (by omega) hleft hn hd hr
      simp [parseNode, htag, hl]
    · rw [List.getElem?_append_right (by omega)] at hx
      rw [List.getElem?_append_right (by simpa using hk), Shape.length_leafOffsets] at ho
      obtain ⟨hend, -⟩ := Shape.bounds_of_mem_leafOffsets (List.mem_of_getElem? ho)
      rw [List.take_of_length_le (by omega)] at hleft hrest hn hd hr
      obtain ⟨hnl, hnr, hdis⟩ := List.nodup_append.1 hn
      have hl := parseNode_eq l (f := f) (seen := seen) (by have := l.depth_le_bits; omega) hleft hnl
        fun y hy => hd y (List.mem_append_left _ hy)
      have hright := ihr (f := f) (seen := l.letters.reverse ++ seen) hx ho (by omega)
        (by rwa [show o + 9 - (pos + 1 + l.bits.length) = o + 9 - (pos + 1) - l.bits.length by omega]) hnr
        (fun y hy hmem => by
          rcases List.mem_append.1 hmem with hmem | hmem
          · exact hdis y (List.mem_reverse.1 hmem) y hy rfl
          · exact hd y (List.mem_append_right _ hy) hmem)
        (by simpa [or_comm, or_left_comm, or_assoc] using hr)
      simp [parseNode, htag, hl, hright]

/-- Rule R223: the first repeated letter ends the parse, with the offset of its tag, if its bits are there. -/
theorem parseTree_duplicate {t : Shape} {ys zs : List Byte} {x : Byte} {o : Nat} (hs : t.letters = ys ++ x :: zs)
    (hn : ys.Nodup) (hx : x ∈ ys) (ho : (t.leafOffsets 0)[ys.length]? = some o) {bits : BitString}
    (hl : bits.length = nbits) (h : Takes m off nbits 0 bits) (hpre : t.bits.take (o + 9) <+: bits) :
    parseTree m off nbits = .error (.err .treeFormatDuplicate (detail x.toNat o)) := by
  have htake : t.letters.take ys.length = ys := by rw [hs, List.take_left]
  have hlen := hpre.length_le
  have hbound := Shape.bounds_of_mem_leafOffsets (List.mem_of_getElem? ho)
  rw [List.length_take] at hlen
  have hnode := parseNode_duplicate t (f := nbits + 1) (seen := []) (x := x) (by simp [hs]) ho (by omega)
    (h.of_isPrefix hpre)
    (by rwa [htake]) (fun _ _ => List.not_mem_nil) (.inr (by rwa [htake]))
  simp [parseTree, hnode]

/-! ### Bits that run out, bits left over (rules R222, R225) -/

/-- Rule R222: a proper beginning of a serialization runs out, where no letter repeats among its whole leaves. -/
theorem parseTree_tooSmall {t : Shape} {bits rest : BitString} (hb : t.bits = bits ++ rest) (hr : rest ≠ [])
    (hl : bits.length = nbits) (h : Takes m off nbits 0 bits) (hn : (t.lettersWithin bits.length).Nodup) :
    parseTree m off nbits = .error (.err .treeFormatTooSmall (BitVec.ofNat 32 nbits)) :=
  parseTree_stop hb hr hl.le h (by rw [hl]; exact takeBit_past) hn

/-- Rule R225: bits that follow a whole serialization are left over. -/
theorem parseTree_tooLarge {t : Shape} (hn : t.letters.Nodup) (hl : t.bits.length < nbits)
    (h : Takes m off nbits 0 t.bits) :
    parseTree m off nbits = .error (.err .treeFormatTooLarge (BitVec.ofNat 32 t.bits.length)) := by
  have hnode := parseNode_eq t (f := nbits + 1) (seen := []) (by have := t.depth_le_bits; omega) h hn
    fun _ _ => List.not_mem_nil
  simp [parseTree, hnode, hl.ne]

end ParseStops

end Sys2Proof.Machine
end

section
/-! SUPPORT. The tree codec: what TSER puts out, which chunks TDES accepts and how it rejects the others, and that
TDES takes back what TSER puts out (rules R210 to R228). -/

namespace Sys2Proof.Machine

section TreeCodec

variable {s : State} {bs : List Byte} {tpad : Nat}

/-! ### TSER (rules R211 to R213) -/

theorem exec_tser (hv : s.treeValid = true) :
    exec .tser s = .next
      { s.withOutput (pack s.serialized) with
        treeLen := BitVec.ofNat 32 ((s.serialized.length + 7) / 8)
        treePad := BitVec.ofNat 3 (padOf s.serialized.length) }.succeeded := by
  rw [exec_of_computes (.tser hv), length_pack]
  rfl

/-- TREE_LEN and TREE_PAD describe the tree already, so TSER changes nothing but the output (rules R41, R42). -/
theorem State.Inv.exec_tser (h : s.Inv) (hv : s.treeValid = true) :
    exec .tser s = .next (s.withOutput (pack s.serialized)).succeeded := by
  have hform := h.setTreeForm_serialized hv
  have hout : (s.setOutput (pack s.serialized)).setTreeForm (pack s.serialized).length (padOf s.serialized.length)
      = (s.setTreeForm (pack s.serialized).length (padOf s.serialized.length)).setOutput (pack s.serialized) := rfl
  rw [exec_of_computes (.tser hv), hout, hform]
  rfl

/-- A valid tree has the codes and the serialization of a shape with distinct letters (rules R180, R210). -/
theorem State.Inv.exists_shape (h : s.Inv) (hv : s.treeValid = true) :
    ∃ sh : Shape, sh.letters.Nodup ∧ s.serialized = sh.bits ∧ s.codes = codeTable sh.codeEntries := by
  obtain ⟨hvalid, -⟩ := h.tree
  obtain ⟨htree, -, hcodes, -⟩ := hvalid hv
  obtain ⟨t, hroot, hholds, -, hn, -, h256⟩ := htree.holds
  have hd : t.shape.depth ≤ Config.maxNodes := by have := t.shape.depth_le; unfold Config.maxNodes; omega
  refine ⟨t.shape, hn, ?_, ?_⟩
  · rw [State.serialized, ← hroot, ser_eq hholds hd]
  · rw [hcodes, ← hroot, deriveCodes, codeEntries_eq hholds hd]

/-! ### TDES on a loaded chunk (rules R220 to R227) -/

theorem State.Loaded.takes (h : s.Loaded bs) (n : Nat) : Takes s.ibuf 0 n 0 ((bitsOf bs).take n) :=
  takes_bitsOf h.stands (Nat.le_refl n)

/-- What TDES computes from a parsed shape, in the words of the claims (rules R176, R224). -/
theorem State.installParsed_eq (sh : Shape) (n p : Nat) :
    (s.installTree (sh.records 0) 0#9).setTreeForm n p = s.withParsedTree sh n p 0 := by
  rw [State.installTree, Shape.length_records]
  rfl

/-- Rules R222 to R225: the parser accepts a loaded chunk exactly where its bits but the last tpad are the
serialization of a shape with distinct letters. -/
theorem State.Loaded.parseTree_iff (h : s.Loaded bs) (ht : tpad < 8) {sh : Shape} :
    parseTree s.ibuf 0 (8 * bs.length - tpad) = .ok sh ↔
      sh.letters.Nodup ∧ ∃ pad : BitString, bitsOf bs = sh.bits ++ pad ∧ pad.length = tpad := by
  have htakes := h.takes (8 * bs.length - tpad)
  have hlen := length_bitsOf bs
  rw [parseTree_ok_iff]
  constructor
  · rintro ⟨hn, hl, hsh⟩
    have hpos : 0 < sh.bits.length := by have := sh.length_bits; have := sh.length_letters_pos; omega
    have hbits : sh.bits = (bitsOf bs).take (8 * bs.length - tpad) :=
      hsh.unique htakes (by rw [List.length_take]; omega)
    refine ⟨hn, (bitsOf bs).drop (8 * bs.length - tpad), ?_, by rw [List.length_drop]; omega⟩
    rw [hbits, List.take_append_drop]
  · rintro ⟨hn, pad, hbits, hpad⟩
    have hl : sh.bits.length = 8 * bs.length - tpad := by
      rw [← hlen, hbits, List.length_append]; omega
    rw [hbits, List.take_left' hl] at htakes
    exact ⟨hn, hl, htakes⟩

theorem State.Loaded.exec_tdes (h : s.Loaded bs) {sh : Shape}
    (hp : parseTree s.ibuf 0 (8 * bs.length - tpad) = .ok sh) :
    exec (.tdes tpad 1) s = .next (s.withParsedTree sh bs.length tpad 0).succeeded := by
  obtain ⟨hlen, hfits, -⟩ := h
  have hc : Computes s (.tdes tpad 1) _ := .tdes (by rwa [hlen]) (by rwa [hlen])
  rw [exec_of_computes hc, State.installParsed_eq, hlen]
  rfl

/-- Rules R345 and R346: a command that makes the tree leaves none when it ends in an error of its own, but for
BufferBounds. -/
theorem exec_error_withoutTree {i : Instr} {e : ErrCode} {info : Word} (hm : makesTree i = true)
    (hb : body i s = .error (.err e info)) (he : e ≠ .bufferBounds) :
    exec i s = .next (s.failed e.code info).withoutTree := by
  have hout : isOutputCommand i = false := by
    cases i with
    | build | tdes _ _ | hparse => rfl
    | _ => cases hm
  have hill : e ≠ .illegalCommand := by
    have hmem : e ∈ errorsOf i := body_error hb
    rintro rfl
    cases i <;> simp [errorsOf] at hmem
  rw [exec_eq, hb, finish_err, State.raise_eq]
  simp [discardsOutput, invalidatesTree, hout, hm, he, hill]

/-- Rule R221: the width is checked before any bit is read. -/
theorem State.Loaded.exec_tdes_width (h : s.Loaded bs) {lw : Nat} (hl : lw ≠ 1) :
    exec (.tdes tpad lw) s = .next (s.failed 0x05#8 (BitVec.ofNat 32 lw)).withoutTree := by
  have hb : body (.tdes tpad lw) s = .error (.err .treeFormatTypeMismatch (BitVec.ofNat 32 lw)) := by
    simp [body, h.notTooLong, Config.lwNative, hl]
  exact exec_error_withoutTree rfl hb (by decide)

theorem State.Loaded.exec_tdes_error (h : s.Loaded bs) {e : ErrCode} {info : Word}
    (hp : parseTree s.ibuf 0 (8 * bs.length - tpad) = .error (.err e info)) (he : e ≠ .bufferBounds) :
    exec (.tdes tpad 1) s = .next (s.failed e.code info).withoutTree := by
  have hlen : s.ibufLen.toNat = bs.length := h.1
  have hb : body (.tdes tpad 1) s = .error (.err e info) := by
    simp [body, h.notTooLong, Config.lwNative, hlen, hp]
  exact exec_error_withoutTree rfl hb he

end TreeCodec

/-! ### The statements -/

/-- Settles O58: TSER's bytes carry a shape with the codes and the serialization of the tree, and TDES accepts them
and installs that shape. -/
theorem treeRoundTrip : Obligations.TreeRoundTrip := by
  intro s h hv
  obtain ⟨sh, hn, hser, hcodes⟩ := h.exists_shape hv
  obtain ⟨hvalid, -⟩ := h.tree
  obtain ⟨-, -, -, -, hpad, -⟩ := hvalid hv
  rw [← h.length_serialized hv] at hpad
  refine ⟨_, h.exec_tser hv, rfl, fun u hu => ?_⟩
  have hout : (s.withOutput (pack s.serialized)).succeeded.output = pack s.serialized := Memory.snd_ofBytes _
  rw [hout] at hu
  have hbits : bitsOf (pack s.serialized) = sh.bits ++ List.replicate s.treePad.toNat false := by
    rw [bitsOf_pack, hpad, hser]
  have hparse := (hu.parseTree_iff s.treePad.isLt).2 ⟨hn, _, hbits, List.length_replicate⟩
  exact ⟨_, hu.exec_tdes hparse, rfl, rfl, (Shape.deriveCodes_records hn).trans hcodes.symm,
    (Shape.ser_records hn).trans hser.symm, rfl, fun n => Shape.weight_of_mem_records⟩

/-- Settles O36: a tree of k leaves serializes to 10k − 1 bits, and k is 1 to 256. -/
theorem serializedLength : Obligations.SerializedLength := by
  intro s h hv
  have htree := h.properTree hv
  have hpos := htree.someLeaf
  have hfew := htree.fewLeaves
  rw [length_pack, h.length_serialized hv]
  unfold serializedBits padOf
  omega

/-- Settles O37: TSER's output is the packed serialization, which the invariant's TREE_LEN and TREE_PAD describe. -/
theorem tserResult : Obligations.TserResult :=
  fun s hv => ⟨exec_tser hv, bitsOf_pack s.serialized, fun h => h.exec_tser hv⟩

/-- Settles O38: TDES succeeds exactly where the parser accepts the chunk, and with LW = 1 only. -/
theorem tdesResult : Obligations.TdesResult := by
  intro s bs tpad hl ht
  refine ⟨fun sh pad hn hbits hpad => hl.exec_tdes ((hl.parseTree_iff ht).2 ⟨hn, pad, hbits, hpad⟩),
    fun lw t he h0 => ?_⟩
  obtain ⟨u, hc, -⟩ := exec_success he h0
  cases hc with
  | @tdes _ sh _ hp =>
    rw [show s.ibufLen.toNat = bs.length from hl.1, hl.parseTree_iff ht] at hp
    obtain ⟨hn, pad, hbits, hpad⟩ := hp
    exact ⟨rfl, sh, pad, hn, hbits, hpad⟩

/-- Settles O39: the width check, and the three ways in which the parser stops. -/
theorem tdesRejects : Obligations.TdesRejects := by
  intro s bs tpad hl ht
  refine ⟨fun lw _ hlw => hl.exec_tdes_width hlw, fun bits hbits => ?_⟩
  have hlen : bits.length = 8 * bs.length - tpad := by rw [hbits, List.length_take, length_bitsOf]; omega
  have htakes : Takes s.ibuf 0 (8 * bs.length - tpad) 0 bits := hbits ▸ hl.takes _
  refine ⟨fun sh rest hn hsh hr => ?_, fun sh rest hn hsh hr => ?_, fun sh ys zs x off hs hn hx hoff hpre => ?_⟩
  · rw [hlen]
    exact hl.exec_tdes_error (parseTree_tooSmall hsh hr hlen htakes hn) (by decide)
  · have hpos := List.length_pos_of_ne_nil hr
    have hlt : sh.bits.length < 8 * bs.length - tpad := by rw [← hlen, hsh, List.length_append]; omega
    exact hl.exec_tdes_error (parseTree_tooLarge hn hlt (htakes.of_isPrefix ⟨rest, hsh.symm⟩)) (by decide)
  · have hdetail : detail x.toNat off = (x.setWidth 32 <<< 24) ||| BitVec.ofNat 32 off := by
      rw [detail, BitVec.ofNat_toNat]
    rw [← hdetail]
    exact hl.exec_tdes_error (parseTree_duplicate hs hn hx hoff hlen htakes hpre) (by decide)

end Sys2Proof.Machine
end

section
/-! SUPPORT. The bit-packer: what ECHUNK answers on a loaded chunk, and that the pending bits it hands from chunk to
chunk make a stream of chunks one bit string (rules R241 to R247). -/

namespace Sys2Proof.Machine

section BitPacker

variable {s : State} {bs : List Byte} {codes bits : BitString} {f : Bool}

/-! ### A loaded chunk (rules R241, R380) -/

theorem State.loaded_load (hp : s.params.Valid) (hl : bs.length ≤ s.params.ibufBytes) : (s.load bs).Loaded bs := by
  obtain ⟨-, -, hmax⟩ := hp
  refine ⟨toNat_ofNat_of_lt (by omega), hl, fun j hj => ?_⟩
  rw [State.load_ibuf, Memory.read_ofBytes, List.getElem?_eq_getElem hj]

theorem State.Loaded.chunkCodes_eq (h : s.Loaded bs) (hc : codesOf s bs = some codes) :
    chunkCodes s s.ibufLen.toNat 0 = .ok codes := by
  obtain ⟨hlen, -⟩ := id h
  rw [hlen]
  exact chunkCodes_of_stands h.stands hc

theorem State.Loaded.computes_echunk (h : s.Loaded bs) (hv : s.treeValid = true) (hc : codesOf s bs = some codes) :
    Computes s (.echunk f) (s.emitChunk f (s.pendingBits ++ codes)) :=
  .echunk (ibufTooLong_eq_false.1 h.notTooLong) hv (h.chunkCodes_eq hc)

theorem codesOf_of_present (h : ∀ x ∈ bs, s.code x.toNat ≠ none) : ∃ codes, codesOf s bs = some codes := by
  induction bs with
  | nil => exact ⟨[], rfl⟩
  | cons x bs ih =>
    rw [List.forall_mem_cons] at h
    obtain ⟨hx, hbs⟩ := h
    obtain ⟨c, hc⟩ := Option.ne_none_iff_exists'.1 hx
    obtain ⟨cs, hcs⟩ := ih hbs
    exact ⟨c ++ cs, by simp only [codesOf, hc, hcs]⟩

/-! ### The two ends of a chunk (rules R241, R243, R245) -/

/-- The padding depends on the bits past the last whole byte only. -/
theorem padOf_congr {m n : Nat} (h : m % 8 = n % 8) : padOf m = padOf n := by
  unfold padOf
  rw [h]

theorem State.emitChunk_true (s : State) (bits : BitString) :
    s.emitChunk true bits =
      { s.withOutput (pack bits) with
        pendByte := 0#8
        pendBits := 0#3
        dataPad := BitVec.ofNat 3 (padOf bits.length) } := by
  have hpad : padOf (leftover bits).length = padOf bits.length :=
    padOf_congr (by rw [length_leftover, Nat.mod_mod])
  rw [State.emitChunk, wholeBytes_append_leftover, hpad]
  rfl

theorem State.emitChunk_false (s : State) (bits : BitString) :
    s.emitChunk false bits =
      { s.withOutput (wholeBytes bits) with
        pendByte := (pack (leftover bits)).headD 0#8
        pendBits := BitVec.ofNat 3 (bits.length % 8) } := by
  have hlen := length_leftover bits
  rw [← msbWord_eq_headD (by omega), ← hlen]
  rfl

/-- What the chunk puts out: its bits packed where it is the last, and else their whole bytes. -/
def chunkOutput (f : Bool) (bits : BitString) : List Byte := if f then pack bits else wholeBytes bits

theorem State.emitChunk_obuf (s : State) (f : Bool) (bits : BitString) :
    (s.emitChunk f bits).obuf = Memory.ofBytes (chunkOutput f bits) := by
  cases f with
  | false => rw [State.emitChunk_false]; rfl
  | true => rw [State.emitChunk_true]; rfl

theorem State.emitChunk_obufLen (s : State) (f : Bool) (bits : BitString) :
    (s.emitChunk f bits).obufLen = BitVec.ofNat 32 (chunkOutput f bits).length := by
  cases f with
  | false => rw [State.emitChunk_false]; rfl
  | true => rw [State.emitChunk_true]; rfl

theorem length_chunkOutput (f : Bool) (bits : BitString) :
    (chunkOutput f bits).length = if f then (bits.length + 7) / 8 else bits.length / 8 := by
  cases f with
  | false => exact length_wholeBytes bits
  | true => exact length_pack bits

/-- Rule R243: n letters have at most 255 n code bits, and at most 7 bits are pending. -/
theorem State.Inv.chunkOutput_fits (h : s.Inv) (hl : s.Loaded bs) (hv : s.treeValid = true)
    (hc : codesOf s bs = some codes) :
    (chunkOutput f (s.pendingBits ++ codes)).length ≤ 32 * s.params.ibufBytes + 1 := by
  have hcodes := codesOf_length_le (fun _ _ => h.code_length_le hv) hc
  have hpend := s.pendBits.isLt
  obtain ⟨-, hfits, -⟩ := hl
  rw [length_chunkOutput, List.length_append, length_pendingBits]
  split <;> omega

/-- Rule R244: the first letter without a code ends the chunk, and the error keeps all but the output. -/
theorem State.Loaded.exec_echunk_missing {j : Nat} {x : Byte} (h : s.Loaded bs) (hv : s.treeValid = true)
    (hj : bs[j]? = some x) (hx : s.code x.toNat = none) (hc : codesOf s (bs.take j) = some codes) :
    exec (.echunk f) s = .next (s.failed 0x02#8 (detail x.toNat j)).withoutOutput := by
  obtain ⟨hlt, hxj⟩ := List.getElem?_eq_some_iff.1 hj
  have hsplit : bs = bs.take j ++ x :: bs.drop (j + 1) := by
    rw [← hxj, ← List.drop_eq_getElem_cons hlt, List.take_append_drop]
  have hstop : chunkCodes s s.ibufLen.toNat 0 = .error (.err .missingCode (detail x.toNat j)) := by
    have hstands := h.stands
    rw [hsplit] at hstands
    have hmissing := chunkCodes_missing hstands hc hx
    obtain ⟨hlen, -⟩ := h
    rwa [← hsplit, ← hlen, List.length_take, Nat.min_eq_left (Nat.le_of_lt hlt), Nat.zero_add] at hmissing
  have hbody : body (.echunk f) s = .error (.err .missingCode (detail x.toNat j)) := by
    simp [body, h.notTooLong, hv, hstop]
  rw [exec_eq, hbody, finish_err, State.raise_eq]
  rfl

/-! ### From chunk to chunk (rules R246, R247) -/

/-- Bits that have become pending are the bits the next chunk starts with (rules R46, R241). -/
theorem State.pendingBits_setPending (s : State) {r : BitString} (h : r.length < 8) :
    (s.setPending r).pendingBits = r := by
  have hn : (BitVec.ofNat 3 r.length).toNat = r.length := toNat_ofNat_of_lt h
  rw [State.pendingBits, State.setPending_pendByte, State.setPending_pendBits, hn, bits8_msbWord]
  refine List.ext_getElem (by simp; omega) fun i _ hi => ?_
  simp [hi]

theorem State.pendingBits_emitChunk_false (s : State) (bits : BitString) :
    (s.emitChunk false bits).pendingBits = leftover bits :=
  (s.setOutput (wholeBytes bits)).pendingBits_setPending (by rw [length_leftover]; omega)

/-- The stitch: packing may stop after the whole bytes and go on later with the leftover bits. -/
theorem wholeBytes_append_pack (a b : BitString) : wholeBytes a ++ pack (leftover a ++ b) = pack (a ++ b) := by
  have hwhole : (a.take (8 * (a.length / 8))).length % 8 = 0 := by rw [List.length_take]; omega
  rw [wholeBytes, leftover, ← pack_append hwhole, ← List.append_assoc, List.take_append_drop]

/-- What the packer reads and no chunk changes: IBUF_BYTES and the tree. -/
structure State.SameTree (s t : State) : Prop where
  params : t.params = s.params
  treeValid : t.treeValid = s.treeValid
  nodes : t.nodes = s.nodes
  root : t.root = s.root
  codes : t.codes = s.codes

theorem State.SameTree.trans {t u : State} (h : s.SameTree t) (h' : t.SameTree u) : s.SameTree u :=
  ⟨h'.params.trans h.params, h'.treeValid.trans h.treeValid, h'.nodes.trans h.nodes, h'.root.trans h.root,
    h'.codes.trans h.codes⟩

/-- The state after ECHUNK of the chunk bs, where bits are the pending bits and its codes. -/
def State.packed (s : State) (f : Bool) (bs : List Byte) (bits : BitString) : State :=
  ((s.load bs).emitChunk f bits).complete

theorem State.sameTree_packed (s : State) (f : Bool) (bs : List Byte) (bits : BitString) :
    s.SameTree (s.packed f bs bits) := by
  rw [State.packed]
  cases f with
  | false => rw [State.emitChunk_false]; exact ⟨rfl, rfl, rfl, rfl, rfl⟩
  | true => rw [State.emitChunk_true]; exact ⟨rfl, rfl, rfl, rfl, rfl⟩

theorem State.runOn_echunk (hp : s.params.Valid) (hv : s.treeValid = true) (hl : bs.length ≤ s.params.ibufBytes)
    (hc : codesOf s bs = some codes) :
    s.runOn (.echunk f) bs
      = some (s.packed f bs (s.pendingBits ++ codes), chunkOutput f (s.pendingBits ++ codes)) := by
  have hcodes : codesOf (s.load bs) bs = some codes := (codesOf_congr (s := s.load bs) (t := s) rfl bs).trans hc
  have hexec : exec (.echunk f) (s.load bs) = .next (s.packed f bs (s.pendingBits ++ codes)) :=
    exec_of_computes ((State.loaded_load hp hl).computes_echunk hv hcodes)
  have hout : (s.packed f bs (s.pendingBits ++ codes)).output = chunkOutput f (s.pendingBits ++ codes) := by
    rw [State.output, State.packed, State.complete_obuf, State.emitChunk_obuf, Memory.snd_ofBytes]
  rw [State.runOn, hexec, ← hout]
  rfl

/-- Rule R247, with any bits pending at the start: each chunk packs its whole bytes and hands the leftover bits on. -/
theorem State.packStream_eq {chunks : List (List Byte)} (hp : s.params.Valid) (hv : s.treeValid = true)
    (hne : chunks ≠ []) (hl : ∀ c ∈ chunks, c.length ≤ s.params.ibufBytes)
    (hc : codesOf s chunks.flatten = some bits) :
    ∃ t, s.packStream chunks = some (t, pack (s.pendingBits ++ bits))
      ∧ t.dataPad = BitVec.ofNat 3 (padOf (s.pendingBits ++ bits).length)
      ∧ t.pendByte = 0#8 ∧ t.pendBits = 0#3 ∧ s.SameTree t := by
  induction chunks generalizing s bits with
  | nil => exact absurd rfl hne
  | cons c chunks ih =>
    rw [List.forall_mem_cons] at hl
    obtain ⟨hfit, hfits⟩ := hl
    rw [List.flatten_cons, codesOf_append] at hc
    obtain ⟨first, hfirst, hc⟩ := Option.bind_eq_some_iff.1 hc
    obtain ⟨rest, hrest, rfl⟩ := Option.map_eq_some_iff.1 hc
    cases chunks with
    | nil =>
      obtain rfl : [] = rest := Option.some.inj hrest
      rw [List.append_nil]
      have hrun := State.runOn_echunk (f := true) hp hv hfit hfirst
      refine ⟨_, hrun, ?_, ?_, ?_, s.sameTree_packed true c _⟩ <;>
        rw [State.packed, State.emitChunk_true] <;> rfl
    | cons d ds =>
      have hsame := s.sameTree_packed false c (s.pendingBits ++ first)
      have hpend : (s.packed false c (s.pendingBits ++ first)).pendingBits = leftover (s.pendingBits ++ first) :=
        (s.load c).pendingBits_emitChunk_false _
      obtain ⟨t, hpack, hpad, hbyte, hbits, htree⟩ := ih (s := s.packed false c (s.pendingBits ++ first))
        (hsame.params ▸ hp) (hsame.treeValid.trans hv) (List.cons_ne_nil d ds)
        (hsame.params ▸ hfits) ((codesOf_congr hsame.codes _).trans hrest)
      rw [hpend] at hpack hpad
      refine ⟨t, ?_, ?_, hbyte, hbits, hsame.trans htree⟩
      · rw [State.packStream, State.runOn_echunk hp hv hfit hfirst]
        simp only [hpack, Option.map_some, chunkOutput, Bool.false_eq_true, if_false, wholeBytes_append_pack,
          List.append_assoc]
      · rw [hpad]
        congr 1
        refine padOf_congr ?_
        rw [← List.append_assoc, List.length_append, List.length_append (as := s.pendingBits ++ first),
          length_leftover, Nat.mod_add_mod]

end BitPacker

/-! ### The statements -/

/-- Settles O40: ECHUNK computes emitChunk of the pending bits and the codes, whose two forms are the claim's. -/
theorem echunkResult : Obligations.EchunkResult := by
  rintro s bs codes bits hl hv hc rfl
  have hexec (f : Bool) := exec_of_computes (hl.computes_echunk (f := f) hv hc)
  have hlast := hexec true
  have hmore := hexec false
  rw [State.emitChunk_true] at hlast
  rw [State.emitChunk_false] at hmore
  exact ⟨hlast, hmore⟩

/-- Settles O41: OBUF_LEN is the length of the chunk's output, which the 255 bits of a code bound. -/
theorem echunkSize : Obligations.EchunkSize := by
  intro s t bs codes f h hl he h0 hc
  obtain ⟨u, hu, rfl⟩ := exec_success he h0
  cases hu with
  | echunk _ hv hchunk =>
    obtain rfl : codes = _ := Except.ok.inj ((hl.chunkCodes_eq hc).symm.trans hchunk)
    have hle := h.chunkOutput_fits (f := f) hl hv hc
    obtain ⟨-, -, hmax⟩ := h.params
    have hlen : (s.emitChunk f (s.pendingBits ++ codes)).complete.obufLen.toNat
        = (chunkOutput f (s.pendingBits ++ codes)).length := by
      rw [State.complete_obufLen, State.emitChunk_obufLen, toNat_ofNat_of_lt (by omega)]
    rw [hlen]
    refine ⟨?_, ?_, hle, Nat.lt_of_le_of_lt hle (by unfold Config.Params.obufBytes; omega)⟩ <;>
    · rintro rfl
      rw [length_chunkOutput, List.length_append, length_pendingBits]
      rfl

/-- Settles O42: the letters before letter j have codes, so it is the one that ends the chunk. -/
theorem echunkMissingCode : Obligations.EchunkMissingCode := by
  intro s bs f j x hl hv hj hx hbefore
  have hpresent : ∀ y ∈ bs.take j, s.code y.toNat ≠ none := by
    intro y hy
    obtain ⟨k, hk, rfl⟩ := List.mem_take_iff_getElem.1 hy
    exact hbefore k _ (by omega) (List.getElem?_eq_getElem _)
  obtain ⟨codes, hcodes⟩ := codesOf_of_present hpresent
  have hexec := hl.exec_echunk_missing (f := f) hv hj hx hcodes
  rwa [detail, BitVec.ofNat_toNat] at hexec

/-- Settles O55: packStream_eq with no bits pending at the start. -/
theorem chunkSizeInvariance : Obligations.ChunkSizeInvariance := by
  intro s chunks bits hp hv hpend hne hl hc
  have hnone : s.pendingBits = [] := by rw [State.pendingBits, hpend]; rfl
  obtain ⟨t, hpack, hpad, hbyte, hbits, hsame⟩ := State.packStream_eq hp hv hne hl hc
  rw [hnone, List.nil_append] at hpack hpad
  refine ⟨t, hpack, ?_, hbyte, hbits, hsame.nodes, hsame.root, hsame.codes⟩
  rw [hpad, toNat_ofNat_of_lt (Nat.lt_succ_of_le (padOf_le _))]

end Sys2Proof.Machine
end

section
/-! SUPPORT. The bit-unpacker: the decode loop on a bit string, what DCHUNK answers on a loaded chunk, and that the
cursor it hands from chunk to chunk makes a data region of chunks one bit string (rules R270 to R278). -/

namespace Sys2Proof.Machine

section BitUnpacker

variable {s : State} {bs : List Byte} {l : Bool} {dpad : Nat} {q : BitVec 9 × List Byte}
variable {chunks : List (List Byte)} {last : List Byte} {p : Nat}

/-! ### The decode loop on a bit string (rules R271, R272, R274) -/

/-- The decode loop of rule R272 on a bit string, for every tree: the cursor after it and the letters emitted, none
where a bit is malformed (rule R274). -/
def State.decodeFrom (s : State) : BitVec 9 → BitString → Option (BitVec 9 × List Byte)
  | c, [] => some (c, [])
  | c, b :: bits =>
    (decodeBit s 0 c b).toOption.bind fun q => (s.decodeFrom q.1 bits).map fun r => (r.1, q.2 ++ r.2)

theorem State.decodeFrom_congr {t : State} (h : s.SameTree t) (c : BitVec 9) (bits : BitString) :
    t.decodeFrom c bits = s.decodeFrom c bits := by
  induction bits generalizing c with
  | nil => rfl
  | cons b bits ih => simp only [State.decodeFrom, decodeBit, cursorStep, h.nodes, h.root, ih]

/-- The place of a bit in its chunk is only named in the error it raises. -/
theorem toOption_decodeBit (s : State) (i : Nat) (c : BitVec 9) (b : Bool) :
    (decodeBit s i c b).toOption = (decodeBit s 0 c b).toOption := by
  unfold decodeBit
  cases nodeAt s.nodes s.root with
  | leaf x w => cases b <;> rfl
  | internal w l r => rfl

/-- DCHUNK's loop over the bits that stand in IBUF is the loop on the bit string they make. -/
theorem toOption_decodeBits {bits : BitString} {i : Nat} {c : BitVec 9}
    (h : ∀ k, (hk : k < bits.length) → bitAt s.ibuf (i + k) = some bits[k]) :
    (decodeBits s bits.length i c).toOption = s.decodeFrom c bits := by
  induction bits generalizing i c with
  | nil => rfl
  | cons b bits ih =>
    have h0 : bitAt s.ibuf i = some b := h 0 (Nat.succ_pos _)
    have ht : ∀ k, (hk : k < bits.length) → bitAt s.ibuf (i + 1 + k) = some bits[k] := by
      intro k hk
      rw [Nat.add_assoc, Nat.add_comm 1 k]
      exact h (k + 1) (Nat.succ_lt_succ hk)
    rw [State.decodeFrom, ← toOption_decodeBit s i]
    simp only [List.length_cons, decodeBits, ibufBit, h0]
    cases decodeBit s i c b with
    | error e => rfl
    | ok q =>
      have hrest := ih (c := q.1) ht
      cases hr : decodeBits s bits.length (i + 1) q.1 with
      | error e => rw [hr] at hrest; simp [Except.toOption, ← hrest, hr]
      | ok r => rw [hr] at hrest; simp [Except.toOption, ← hrest, hr]

theorem State.decodeFrom_append (s : State) (c : BitVec 9) (a b : BitString) :
    s.decodeFrom c (a ++ b)
      = (s.decodeFrom c a).bind fun q => (s.decodeFrom q.1 b).map fun r => (r.1, q.2 ++ r.2) := by
  induction a generalizing c with
  | nil => simp [State.decodeFrom]
  | cons x a ih =>
    simp only [List.cons_append, State.decodeFrom, ih]
    cases (decodeBit s 0 c x).toOption with
    | none => rfl
    | some q => simp [Option.map_bind, Option.bind_map, Function.comp_def]

theorem State.decodeFrom_internal (hi : internalAt s.nodes s.root) (c : BitVec 9) (bits : BitString) :
    s.decodeFrom c bits = some (s.unpack c bits) := by
  obtain ⟨w, l, r, hr⟩ := hi
  induction bits generalizing c with
  | nil => rfl
  | cons b bits ih =>
    simp only [State.decodeFrom, decodeBit, nodeAt_of_getElem? hr, cursorStep, State.unpack, ih]
    cases nodeAt s.nodes (if b = true then (nodeAt s.nodes c).right else (nodeAt s.nodes c).left) <;> rfl

/-- A code decodes to its letter, and back to the root (rules R120, R175, R271, R274). -/
theorem State.Inv.decodeFrom_code (h : s.Inv) (hv : s.treeValid = true) {x : Byte} {p : BitString}
    (hx : s.code x.toNat = some p) : s.decodeFrom s.root p = some (s.root, [x]) := by
  have htree := h.properTree hv
  rw [h.code_eq hv] at hx
  have hroot := List.getElem?_eq_getElem htree.root_lt
  cases hn : s.nodes[s.root.toNat]'htree.root_lt with
  | leaf y w =>
    rw [hn] at hroot
    rw [ProperTree.code_leaf hroot] at hx
    obtain ⟨hy, rfl⟩ : y.toNat = x.toNat ∧ [false] = p := by simpa [Table.lookup] using hx
    simp [State.decodeFrom, decodeBit, nodeAt_of_getElem? hroot, BitVec.eq_of_toNat_eq hy, Except.toOption]
  | internal w l r =>
    rw [hn] at hroot
    have hi : internalAt s.nodes s.root := ⟨w, l, r, hroot⟩
    obtain ⟨w', hd⟩ := (htree.code_iff_descend hi x p).1 hx
    have hlen := htree.code_length hx
    cases p with
    | nil => exact absurd hlen.1 (by simp)
    | cons b p => rw [State.decodeFrom_internal hi, s.unpack_path _ _ _ _ _ hd]

/-- Decoding undoes coding (rules R123, R278). -/
theorem State.Inv.decodeFrom_codesOf (h : s.Inv) (hv : s.treeValid = true) {letters : List Byte} {bits : BitString}
    (hc : codesOf s letters = some bits) : s.decodeFrom s.root bits = some (s.root, letters) := by
  induction letters generalizing bits with
  | nil =>
    obtain rfl : [] = bits := Option.some.inj hc
    rfl
  | cons x xs ih =>
    rw [← List.singleton_append, codesOf_append] at hc
    obtain ⟨p, hp, hc⟩ := Option.bind_eq_some_iff.1 hc
    obtain ⟨rest, hrest, rfl⟩ := Option.map_eq_some_iff.1 hc
    have hx : s.code x.toNat = some p := by
      cases hx : s.code x.toNat <;> simp_all [codesOf]
    simp [State.decodeFrom_append, h.decodeFrom_code hv hx, ih hrest]

/-! ### DCHUNK on a loaded chunk (rules R272, R275, R277) -/

theorem State.Loaded.body_dchunk_stop {e : Stop} (h : s.Loaded bs) (hv : s.treeValid = true)
    (hd : decodeBits s (dataBits bs l dpad).length 0 s.cursor = .error e) : body (.dchunk l dpad) s = .error e := by
  obtain ⟨hlen, -⟩ := id h
  rw [← chunkBits_eq, ← hlen] at hd
  simp [body, h.notTooLong, hv, hd]

theorem State.Loaded.computes_dchunk (h : s.Loaded bs) (hv : s.treeValid = true)
    (hd : decodeBits s (dataBits bs l dpad).length 0 s.cursor = .ok q) (hq : l = true → q.1 = s.root) :
    Computes s (.dchunk l dpad) { s.setOutput q.2 with cursor := q.1 } := by
  obtain ⟨hlen, -⟩ := id h
  rw [← chunkBits_eq, ← hlen] at hd
  exact .dchunk (ibufTooLong_eq_false.1 h.notTooLong) hv hd hq

theorem State.Loaded.body_dchunk_inside (h : s.Loaded bs) (hv : s.treeValid = true)
    (hd : decodeBits s (dataBits bs true dpad).length 0 s.cursor = .ok q) (hq : q.1 ≠ s.root) :
    body (.dchunk true dpad) s = .error (.err .dataMalformed (detail 1 (dataBits bs true dpad).length)) := by
  obtain ⟨hlen, -⟩ := id h
  rw [← chunkBits_eq, ← hlen] at hd ⊢
  simp [body, h.notTooLong, hv, hd, hq]

theorem exec_dchunk_malformed {info : Word} (hb : body (.dchunk l dpad) s = .error (.err .dataMalformed info)) :
    exec (.dchunk l dpad) s = .next (s.failed 0x0B#8 info).withoutOutput := by
  rw [exec_eq, hb, finish_err, State.raise_eq]
  rfl

/-- Where DCHUNK succeeds, and what it computes there. -/
theorem State.Loaded.toOption_body_dchunk (h : s.Loaded bs) (hv : s.treeValid = true) :
    (body (.dchunk l dpad) s).toOption
      = ((s.decodeFrom s.cursor (dataBits bs l dpad)).filter fun q => !l || q.1 == s.root).map
          fun q => { s.setOutput q.2 with cursor := q.1 } := by
  rw [← toOption_decodeBits (i := 0) fun _ hk => bitAt_dataBits h hk]
  cases hd : decodeBits s (dataBits bs l dpad).length 0 s.cursor with
  | error e => rw [h.body_dchunk_stop hv hd]; rfl
  | ok q =>
    by_cases hq : l = true → q.1 = s.root
    · rw [body_ok.2 (h.computes_dchunk hv hd hq)]
      have hend : (!l || q.1 == s.root) = true := by
        cases l with
        | false => rfl
        | true => simpa using hq rfl
      simp [Except.toOption, Option.filter, hend]
    · obtain ⟨rfl, hne⟩ := Classical.not_imp.1 hq
      rw [h.body_dchunk_inside hv hd hne]
      simp [Except.toOption, Option.filter, hne]

/-! ### From chunk to chunk (rule R276) -/

theorem State.runOn_eq (s : State) (i : Instr) (chunk : List Byte) :
    s.runOn i chunk = (body i (s.load chunk)).toOption.map fun t => (t.complete, t.output) := by
  rw [State.runOn, exec_eq]
  match body i (s.load chunk) with
  | .ok t => rfl
  | .error (.err e info) => simp [e.code_ne_zero, Except.toOption]
  | .error (.fault f) => rfl

/-- The state after DCHUNK of the chunk bs, whose bits leave the cursor and the letters q. -/
def State.unpacked (s : State) (bs : List Byte) (q : BitVec 9 × List Byte) : State :=
  { (s.load bs).setOutput q.2 with cursor := q.1 }.complete

theorem State.sameTree_unpacked (s : State) (bs : List Byte) (q : BitVec 9 × List Byte) :
    s.SameTree (s.unpacked bs q) := ⟨rfl, rfl, rfl, rfl, rfl⟩

theorem State.sameTree_load (s : State) (bs : List Byte) : s.SameTree (s.load bs) := ⟨rfl, rfl, rfl, rfl, rfl⟩

theorem State.runOn_dchunk (hp : s.params.Valid) (hv : s.treeValid = true) (hl : bs.length ≤ s.params.ibufBytes) :
    s.runOn (.dchunk l dpad) bs
      = ((s.decodeFrom s.cursor (dataBits bs l dpad)).filter fun q => !l || q.1 == s.root).map
          fun q => (s.unpacked bs q, q.2) := by
  have hout : ∀ q : BitVec 9 × List Byte, { (s.load bs).setOutput q.2 with cursor := q.1 }.output = q.2 :=
    fun q => Memory.snd_ofBytes q.2
  rw [State.runOn_eq, (State.loaded_load hp hl).toOption_body_dchunk hv, State.decodeFrom_congr (s.sameTree_load bs),
    Option.map_map]
  simp only [Function.comp_def, hout]
  rfl

theorem State.unpackStream_cons (s : State) (p : Nat) (c : List Byte) {cs : List (List Byte)} (h : cs ≠ []) :
    s.unpackStream p (c :: cs)
      = (s.runOn (.dchunk false 0) c).bind fun a => (a.1.unpackStream p cs).map fun b => (b.1, a.2 ++ b.2) := by
  cases cs with
  | nil => exact absurd rfl h
  | cons d ds =>
    rw [State.unpackStream]
    cases s.runOn (.dchunk false 0) c <;> rfl

/-- Rule R276 for every tree: the pass gives what the loop gives on the bits of all chunks, if it ends at the root. -/
theorem State.unpackStream_eq (hp : s.params.Valid) (hv : s.treeValid = true)
    (hl : ∀ c ∈ chunks ++ [last], c.length ≤ s.params.ibufBytes) :
    (s.unpackStream p (chunks ++ [last])).map (fun a => (a.1.cursor, a.2))
      = (s.decodeFrom s.cursor (bitsOf chunks.flatten ++ dataBits last true p)).filter fun q => q.1 == s.root := by
  induction chunks generalizing s with
  | nil =>
    rw [List.nil_append, List.forall_mem_singleton] at hl
    rw [List.nil_append, State.unpackStream, State.runOn_dchunk hp hv hl, Option.map_map]
    exact Option.map_id'
  | cons c chunks ih =>
    rw [List.cons_append, List.forall_mem_cons] at hl
    obtain ⟨hfit, hfits⟩ := hl
    rw [List.cons_append, State.unpackStream_cons _ _ _ (by simp), State.runOn_dchunk hp hv hfit, List.flatten_cons,
      bitsOf_append, List.append_assoc, State.decodeFrom_append]
    have hbits : dataBits c false 0 = bitsOf c := rfl
    rw [hbits]
    cases s.decodeFrom s.cursor (bitsOf c) with
    | none => rfl
    | some q =>
      have hrest := ih (s := s.unpacked c q) hp hv hfits
      rw [State.decodeFrom_congr (s.sameTree_unpacked c q)] at hrest
      calc _ = ((s.unpacked c q).unpackStream p (chunks ++ [last])).map
                (fun a => (a.1.cursor, q.2 ++ a.2)) := by simp [Option.filter, Function.comp_def]
        _ = (((s.unpacked c q).unpackStream p (chunks ++ [last])).map fun a => (a.1.cursor, a.2)).map
                (fun r => (r.1, q.2 ++ r.2)) := by rw [Option.map_map]; rfl
        _ = _ := by rw [hrest, Option.bind_some, Option.filter_map]; rfl

theorem State.unpackStream_of_ends {out : List Byte} (hp : s.params.Valid) (hv : s.treeValid = true)
    (hl : ∀ c ∈ chunks ++ [last], c.length ≤ s.params.ibufBytes)
    (hd : s.decodeFrom s.cursor (bitsOf chunks.flatten ++ dataBits last true p) = some (s.root, out)) :
    ∃ t, s.unpackStream p (chunks ++ [last]) = some (t, out) ∧ t.cursor = s.root := by
  have hpass := State.unpackStream_eq (p := p) hp hv hl
  rw [hd, Option.filter_some_pos (by simp)] at hpass
  obtain ⟨⟨t, out'⟩, hrun, heq⟩ := Option.map_eq_some_iff.1 hpass
  obtain ⟨hcursor, rfl⟩ := Prod.mk.inj heq
  exact ⟨t, hrun, hcursor⟩

/-- The padding of the data region is that of its last chunk (rule R277). -/
theorem dataBits_flatten (hp : p < 8) (hne : last ≠ []) :
    (bitsOf (chunks ++ [last]).flatten).take (8 * (chunks ++ [last]).flatten.length - p)
      = bitsOf chunks.flatten ++ dataBits last true p := by
  have hpos := List.length_pos_of_ne_nil hne
  have hflat : (chunks ++ [last]).flatten = chunks.flatten ++ last := by simp
  rw [hflat, bitsOf_append, List.take_append, List.take_of_length_le (by rw [length_bitsOf, List.length_append]; omega),
    dataBits, if_pos ⟨rfl, hne⟩, length_bitsOf, List.length_append]
  congr 2
  omega

/-- The bits of a packed string but its padding are the string (rules R13, R123). -/
theorem take_bitsOf_pack (bits : BitString) :
    (bitsOf (pack bits)).take (8 * (pack bits).length - padOf bits.length) = bits := by
  rw [bitsOf_pack, length_pack, ← padOf_spec, Nat.add_sub_cancel, List.take_left]

end BitUnpacker

/-! ### The statements -/

/-- Settles O43: the decode loop of a tree whose root is Internal, and the check of a last chunk's end. -/
theorem dchunkResult : Obligations.DchunkResult := by
  intro s bs l dpad h _ hv hi
  have hd := decodeBits_internal (c := s.cursor) hi fun _ => bitAt_dataBits h (l := l) (dpad := dpad)
  refine ⟨fun hend => ?_, ?_⟩
  · have hroot : l = true → (s.unpack s.cursor (dataBits bs l dpad)).1 = s.root := by
      rintro rfl
      simpa using hend
    exact exec_of_computes (h.computes_dchunk hv hd hroot)
  · rintro rfl hne
    exact exec_dchunk_malformed (h.body_dchunk_inside hv hd hne)

/-- Settles O44: the decode loop of a tree that is one Leaf, on bits that are all 0 and at the first 1. -/
theorem dchunkOneLeaf : Obligations.DchunkOneLeaf := by
  intro s bs l dpad x w h _ hv hx hcursor
  have hbit : ∀ k, (hk : k < (dataBits bs l dpad).length) → bitAt s.ibuf (0 + k) = some (dataBits bs l dpad)[k] :=
    fun _ => bitAt_dataBits h
  refine ⟨fun hzero => ?_, fun i rest hone => ?_⟩
  · have hd := decodeBits_leaf (c := s.cursor) hx fun k hk =>
      (hbit k hk).trans (congrArg some (hzero _ (List.getElem_mem hk)))
    exact exec_of_computes (h.computes_dchunk hv hd fun _ => hcursor)
  · refine exec_dchunk_malformed (h.body_dchunk_stop hv ?_)
    have hlen : (dataBits bs l dpad).length = i + 1 + rest.length := by simp [hone]; omega
    simp only [hone] at hbit
    have hd := decodeBits_leaf_one (n := i) (m := rest.length) (c := s.cursor) hx
      (fun k hk => (hbit k (by simp; omega)).trans (by simp [hk]))
      ((hbit i (by simp)).trans (by simp))
    rw [hlen, hd, Nat.zero_add]
    rfl

/-- Settles O56: the pass and the single DCHUNK give what the decode loop gives on the bits of the region. -/
theorem cursorPersistence : Obligations.CursorPersistence := by
  intro s chunks last p hp hv hcursor hpad hne hl
  have hpass := State.unpackStream_eq (p := p) hp hv hl
  refine ⟨?_, fun hfits => ?_⟩
  · rintro hi out rfl
    rw [dataBits_flatten hpad hne]
    have hd := State.decodeFrom_internal hi s.root (bitsOf chunks.flatten ++ dataBits last true p)
    rw [hcursor] at hpass
    refine ⟨fun hend => State.unpackStream_of_ends hp hv hl ?_, fun hend => ?_⟩
    · rw [hcursor, hd]
      exact congrArg some (Prod.ext hend rfl)
    · rw [hd, Option.filter_some_neg (by simpa using hend)] at hpass
      exact Option.map_eq_none_iff.1 hpass
  · have hflat : (chunks ++ [last]).flatten ≠ [] := by simp [hne]
    have hone := State.unpackStream_eq (s := s) (chunks := []) (p := p) hp hv (List.forall_mem_singleton.2 hfits)
    have hregion : dataBits (chunks ++ [last]).flatten true p = bitsOf chunks.flatten ++ dataBits last true p := by
      rw [← dataBits_flatten hpad hne, dataBits, if_pos ⟨rfl, hflat⟩]
    have hsame := hpass.trans (hone.trans (by rw [hregion]; rfl)).symm
    simpa [Option.map_map, Function.comp_def] using congrArg (Option.map Prod.snd) hsame

/-- Settles O57: the region's bits are the codes of the letters, and each code decodes to its letter. -/
theorem streamRoundTrip : Obligations.StreamRoundTrip := by
  rintro s letters chunks h hv hpend hne rfl hl hx
  obtain ⟨bits, hbits⟩ := codesOf_of_present hx
  have hnone : s.pendingBits = [] := by rw [State.pendingBits, hpend]; rfl
  have hchunks : chunks ≠ [] := by rintro rfl; exact hne rfl
  obtain ⟨t, hpack, hpad, -, -, hsame⟩ := State.packStream_eq h.params hv hchunks hl hbits
  rw [hnone, List.nil_append] at hpack hpad
  refine ⟨t, pack bits, hpack, fun pieces last hD hlast hfits => ?_⟩
  have hstart : s.SameTree { t with cursor := t.root } := hsame.trans ⟨rfl, rfl, rfl, rfl, rfl⟩
  have hregion : bitsOf pieces.flatten ++ dataBits last true t.dataPad.toNat = bits := by
    rw [← dataBits_flatten t.dataPad.isLt hlast, hD, hpad, toNat_ofNat_of_lt (Nat.lt_succ_of_le (padOf_le _)),
      take_bitsOf_pack]
  obtain ⟨u, hu, -⟩ := State.unpackStream_of_ends (s := { t with cursor := t.root }) (out := chunks.flatten)
    (p := t.dataPad.toNat) (hstart.params ▸ h.params) (hstart.treeValid.trans hv) (hstart.params ▸ hfits) (by
      rw [hregion, State.decodeFrom_congr hstart]
      exact hsame.root ▸ h.decodeFrom_codesOf hv hbits)
  exact ⟨u, hu⟩

end Sys2Proof.Machine
end

section
/-! SUPPORT. The container: what HPARSE answers on loaded bytes, by the header checks in their order and by what the
parser makes of the tree region, and that HPARSE takes back what HBUILD and TSER put out (rules R300 to R310). -/

namespace Sys2Proof.Machine

section StreamFraming

variable {s : State} {h b1 b2 b3 b4 : Byte} {rest : List Byte} {L : Nat} {sh : Shape} {bits cs : BitString}

/-! ### The tree region (rules R222 to R227) -/

/-- Rules R222 to R225: on nbits bits that are all there to be taken the parser accepts exactly the serialization of a
shape with distinct letters. -/
theorem Takes.parseTree_iff {m : Memory} {off nbits : Nat} (ht : Takes m off nbits 0 bits)
    (hl : bits.length = nbits) : parseTree m off nbits = .ok sh ↔ sh.letters.Nodup ∧ sh.bits = bits := by
  rw [parseTree_ok_iff]
  constructor
  · rintro ⟨hn, hlen, htakes⟩
    exact ⟨hn, htakes.unique ht (hlen.trans hl.symm)⟩
  · rintro ⟨hn, rfl⟩
    exact ⟨hn, hl, ht⟩

theorem Shape.bits_ne_nil (sh : Shape) : sh.bits ≠ [] := by
  cases sh <;> exact List.cons_ne_nil _ _

/-- A string is all but the last p bits of another where the other is the string and p bits of padding. -/
theorem eq_take_iff_padded (hne : bits ≠ []) {p : Nat} :
    bits = cs.take (cs.length - p) ↔ ∃ pad : BitString, cs = bits ++ pad ∧ pad.length = p := by
  constructor
  · intro hb
    have hpos := List.length_pos_of_ne_nil hne
    rw [hb, List.length_take] at hpos
    exact ⟨cs.drop (cs.length - p), by rw [hb, List.take_append_drop], by rw [List.length_drop]; omega⟩
  · rintro ⟨pad, rfl, rfl⟩
    rw [List.length_append, Nat.add_sub_cancel, List.take_left]

theorem Stands.take {m : Memory} {j : Nat} {xs : List Byte} (hs : Stands m j xs) (n : Nat) : Stands m j (xs.take n) := by
  intro i hi
  rw [List.getElem_take]
  exact hs i (by rw [List.length_take] at hi; omega)

/-! ### The header (rules R94, R303) -/

theorem extractLsb'_high_nibble (h : Byte) : (h.extractLsb' 4 4).toNat = h.toNat / 16 := by
  have := h.isLt
  rw [BitVec.extractLsb'_toNat, Nat.shiftRight_eq_div_pow]
  omega

theorem extractLsb'_low_nibble (h : Byte) : (h.extractLsb' 0 4).toNat = h.toNat % 16 := by
  rw [BitVec.extractLsb'_toNat, Nat.shiftRight_zero]

theorem exists_header {bs : List Byte} (h5 : 5 ≤ bs.length) :
    ∃ h b1 b2 b3 b4 rest, bs = h :: b1 :: b2 :: b3 :: b4 :: rest := by
  match bs, h5 with
  | h :: b1 :: b2 :: b3 :: b4 :: rest, _ => exact ⟨h, b1, b2, b3, b4, rest, rfl⟩

theorem State.Loaded.header (hl : s.Loaded (h :: b1 :: b2 :: b3 :: b4 :: rest)) :
    readHeader s.ibuf = .ok (h, be32 b1 b2 b3 b4) ∧ Stands s.ibuf 5 rest := by
  have hs := hl.stands
  simp only [Stands.cons] at hs
  obtain ⟨h0, h1, h2, h3, h4, hrest⟩ := hs
  exact ⟨readHeader_ok h0 h1 h2 h3 h4, hrest⟩

theorem State.Loaded.ibufLen_eq (hl : s.Loaded (h :: b1 :: b2 :: b3 :: b4 :: rest)) :
    s.ibufLen.toNat = 5 + rest.length := by
  obtain ⟨hlen, -⟩ := hl
  simp only [hlen, List.length_cons]
  omega

/-- The checks of rule R305 that come after the header has been read pass. -/
structure State.HeaderOk (s : State) (h : Byte) (rest : List Byte) (L : Nat) : Prop where
  fits : 5 + L ≤ s.streamLen.toNat
  small : L ≤ 320
  loaded : L ≤ rest.length
  treePad : h.toNat / 16 ≤ 7
  dataPad : h.toNat % 16 ≤ 7

/-- The bits of the tree region: its L bytes but the padding that the high nibble counts. -/
def regionBits (h : Byte) (rest : List Byte) (L : Nat) : BitString :=
  (bitsOf (rest.take L)).take (8 * L - h.toNat / 16)

theorem State.HeaderOk.length_regionBits (hc : s.HeaderOk h rest L) :
    (regionBits h rest L).length = 8 * L - h.toNat / 16 := by
  have := hc.loaded
  rw [regionBits, List.length_take, length_bitsOf, List.length_take]
  omega

theorem State.Loaded.takes_region (hl : s.Loaded (h :: b1 :: b2 :: b3 :: b4 :: rest)) :
    Takes s.ibuf 5 (8 * L - h.toNat / 16) 0 (regionBits h rest L) :=
  takes_bitsOf (hl.header.2.take L) (Nat.le_refl _)

/-- Rule R303: the parser accepts the tree region where its bytes are the serialization of a shape with distinct
letters and the padding that the high nibble counts. -/
theorem State.Loaded.parseRegion_iff (hl : s.Loaded (h :: b1 :: b2 :: b3 :: b4 :: rest)) (hc : s.HeaderOk h rest L) :
    parseTree s.ibuf 5 (8 * L - h.toNat / 16) = .ok sh ↔
      sh.letters.Nodup ∧ ∃ pad : BitString, bitsOf (rest.take L) = sh.bits ++ pad ∧ pad.length = h.toNat / 16 := by
  have hlen : (bitsOf (rest.take L)).length = 8 * L := by
    rw [length_bitsOf, List.length_take, Nat.min_eq_left hc.loaded]
  rw [hl.takes_region.parseTree_iff hc.length_regionBits, regionBits, ← hlen, eq_take_iff_padded sh.bits_ne_nil]

/-! ### HPARSE on loaded bytes (rules R303 to R308) -/

theorem State.Loaded.body_hparse (hl : s.Loaded (h :: b1 :: b2 :: b3 :: b4 :: rest)) (hs : 5 ≤ s.streamLen.toNat) :
    body .hparse s = parseContainer s h (be32 b1 b2 b3 b4) := by
  have hlen := hl.ibufLen_eq
  simp [body, hl.notTooLong, hl.header.1, Nat.not_lt.2 hs, show ¬ s.ibufLen.toNat < 5 by omega]

/-- Rules R345 and R346: BufferBounds leaves the tree as it is. -/
theorem exec_hparse_bufferBounds {info : Word} (hb : body .hparse s = .error (.err .bufferBounds info)) :
    exec .hparse s = .next (s.failed 0x0D#8 info) := by
  rw [exec_eq, hb, finish_err, State.raise_eq]
  rfl

theorem State.Loaded.exec_hparse (hl : s.Loaded (h :: b1 :: b2 :: b3 :: b4 :: rest)) (hL : L = be32 b1 b2 b3 b4)
    (hc : s.HeaderOk h rest L) (hp : parseTree s.ibuf 5 (8 * L - h.toNat / 16) = .ok sh) :
    exec .hparse s = .next
      { s.withParsedTree sh L (h.toNat / 16) (5 + L) with dataPad := BitVec.ofNat 3 (h.toNat % 16) }.succeeded := by
  have hlen := hl.ibufLen_eq
  obtain ⟨hfits, hsmall, hloaded, htree, hdata⟩ := hc
  rw [← extractLsb'_high_nibble] at htree hp
  rw [← extractLsb'_low_nibble] at hdata
  have hcomp : Computes s .hparse _ := .hparse (ibufTooLong_eq_false.1 hl.notTooLong) (by omega) (by omega)
    (hL ▸ hl.header.1) hfits htree hdata hsmall (by omega) hp
  rw [exec_of_computes hcomp, State.setHeader, State.installParsed_eq, extractLsb'_high_nibble, extractLsb'_low_nibble]
  rfl

/-- Rule R307: the tree region's own error becomes InvalidHeader, with the error's code in ERR_INFO. -/
theorem State.Loaded.exec_hparse_parseError (hl : s.Loaded (h :: b1 :: b2 :: b3 :: b4 :: rest))
    (hL : L = be32 b1 b2 b3 b4) (hc : s.HeaderOk h rest L) {e : ErrCode} {info : Word}
    (hp : parseTree s.ibuf 5 (8 * L - h.toNat / 16) = .error (.err e info)) :
    exec .hparse s = .next (s.failed 0x07#8 (0x10#32 ||| e.code.setWidth 32)).withoutTree := by
  have hlen := hl.ibufLen_eq
  obtain ⟨hfits, hsmall, hloaded, htree, hdata⟩ := hc
  have hb : body .hparse s = .error (.err .invalidHeader (0x10#32 ||| e.code.setWidth 32)) := by
    rw [hl.body_hparse (by omega), ← hL, parseContainer]
    simp only [extractLsb'_high_nibble, extractLsb'_low_nibble, Config.treeMaxBytes, hp,
      if_neg (show ¬ s.streamLen.toNat - 5 < L by omega), if_neg (Nat.not_lt.2 htree), if_neg (Nat.not_lt.2 hdata),
      if_neg (Nat.not_lt.2 hsmall), if_neg (show ¬ s.ibufLen.toNat < 5 + L by omega), headerParseStop]
  exact exec_error_withoutTree rfl hb (by decide)

/-- Rule R305: the first check, which no loaded byte can change. -/
theorem State.Loaded.exec_hparse_short {bs : List Byte} (hl : s.Loaded bs) (hs : s.streamLen.toNat < 5) :
    exec .hparse s = .next (s.failed 0x06#8 1#32).withoutTree := by
  have hb : body .hparse s = .error (.err .missingHeader 1#32) := by simp [body, hl.notTooLong, hs]
  exact exec_error_withoutTree rfl hb (by decide)

/-- Rule R303: what HPARSE succeeds on passes the header checks and has a tree region that parses. -/
theorem State.Loaded.hparse_success {bs : List Byte} (hl : s.Loaded bs) {t : State} (he : exec .hparse s = .next t)
    (h0 : t.err = 0#8) :
    ∃ h b1 b2 b3 b4 rest sh, bs = h :: b1 :: b2 :: b3 :: b4 :: rest ∧ s.HeaderOk h rest (be32 b1 b2 b3 b4)
      ∧ parseTree s.ibuf 5 (8 * be32 b1 b2 b3 b4 - h.toNat / 16) = .ok sh := by
  obtain ⟨u, hu, -⟩ := exec_success he h0
  cases hu with
  | @hparse hdr L sh _ _ hfive hh hfits htree hdata hsmall hloaded hp =>
    obtain ⟨h, b1, b2, b3, b4, rest, rfl⟩ := exists_header (bs := bs) (by rwa [← hl.1])
    obtain ⟨rfl, rfl⟩ : h = hdr ∧ be32 b1 b2 b3 b4 = L := by
      simpa using hl.header.1.symm.trans hh
    rw [extractLsb'_high_nibble] at htree hp
    rw [extractLsb'_low_nibble] at hdata
    rw [hl.ibufLen_eq] at hloaded
    exact ⟨h, b1, b2, b3, b4, rest, sh, rfl, ⟨hfits, hsmall, by omega, htree, hdata⟩, hp⟩

/-! ### HBUILD's bytes (rules R94, R300, R309) -/

theorem exec_hbuild (s : State) : exec .hbuild s = .next (s.withOutput (headerBytes s)).succeeded :=
  exec_of_computes .hbuild

theorem State.output_withOutput (s : State) (bs : List Byte) : (s.withOutput bs).succeeded.output = bs :=
  Memory.snd_ofBytes bs

theorem headerBytes_eq (s : State) :
    ∃ h b1 b2 b3 b4, headerBytes s = [h, b1, b2, b3, b4] ∧ h.toNat / 16 = s.treePad.toNat
      ∧ h.toNat % 16 = s.dataPad.toNat ∧ be32 b1 b2 b3 b4 = s.treeLen.toNat := by
  obtain ⟨htree, hdata⟩ := nibbles_or s.treePad s.dataPad
  refine ⟨_, _, _, _, _, rfl, ?_, ?_, bytesBE_toNat s.treeLen⟩
  · rw [← extractLsb'_high_nibble, htree, BitVec.toNat_setWidth_of_le (by omega)]
  · rw [← extractLsb'_low_nibble, hdata, BitVec.toNat_setWidth_of_le (by omega)]

/-- Rules R41 and R42: the registers that HBUILD writes into the header describe TSER's output. -/
theorem State.Inv.treeForm_eq (hi : s.Inv) (hv : s.treeValid = true) :
    s.treeLen.toNat = (pack s.serialized).length ∧ s.treePad.toNat = padOf s.serialized.length := by
  obtain ⟨hvalid, -⟩ := hi.tree
  obtain ⟨-, -, -, hlen, hpad, -⟩ := hvalid hv
  rw [length_pack, hi.length_serialized hv]
  exact ⟨hlen, hpad⟩

end StreamFraming

/-! ### The statements -/

/-- Settles O59: HBUILD's header describes TSER's bytes, which are the serialization of a shape with the tree's codes
and the padding that the header counts. -/
theorem containerRoundTrip : Obligations.ContainerRoundTrip := by
  intro s hi hv
  obtain ⟨sh, hn, hser, hcodes⟩ := hi.exists_shape hv
  obtain ⟨hlen, hpad⟩ := hi.treeForm_eq hv
  obtain ⟨-, -, h320, -⟩ := serializedLength s hi hv
  obtain ⟨h, b1, b2, b3, b4, hheader, htree, hdata, hL⟩ := headerBytes_eq s
  refine ⟨_, _, hi.exec_tser hv, exec_hbuild _, fun u data hu hstream => ?_⟩
  have hheader' : headerBytes (s.withOutput (pack s.serialized)).succeeded = [h, b1, b2, b3, b4] := hheader
  rw [State.output_withOutput, State.output_withOutput, hheader'] at hu hstream
  rw [State.output_withOutput]
  have hc : u.HeaderOk h (pack s.serialized ++ data) s.treeLen.toNat := by
    simp only [List.length_append, List.length_cons, List.length_nil] at hstream
    have := s.treePad.isLt
    have := s.dataPad.isLt
    exact ⟨by omega, by omega, by rw [List.length_append]; omega, by omega, by omega⟩
  have hregion : bitsOf ((pack s.serialized ++ data).take s.treeLen.toNat)
      = sh.bits ++ List.replicate s.treePad.toNat false := by
    rw [hlen, List.take_left, bitsOf_pack, hpad, hser]
  have hparse := (State.Loaded.parseRegion_iff hu hc).2 ⟨hn, _, hregion, by rw [List.length_replicate, htree]⟩
  refine ⟨_, State.Loaded.exec_hparse hu hL.symm hc hparse, rfl, rfl, (Shape.deriveCodes_records hn).trans hcodes.symm,
    ?_, ?_, ?_, ?_, rfl⟩
  · show BitVec.ofNat 3 (h.toNat % 16) = s.dataPad
    simp [hdata]
  · show BitVec.ofNat 32 s.treeLen.toNat = s.treeLen
    simp
  · show BitVec.ofNat 3 (h.toNat / 16) = s.treePad
    simp [htree]
  · show (BitVec.ofNat 32 (5 + s.treeLen.toNat)).toNat = 5 + (pack s.serialized).length
    rw [hlen, toNat_ofNat_of_lt (by omega)]

/-- Settles O45: past the header checks HPARSE succeeds exactly where the parser accepts the tree region. -/
theorem hparseResult : Obligations.HparseResult := by
  intro s bs hl
  constructor
  · rintro h b1 b2 b3 b4 rest L sh pad rfl hL hfits hsmall hloaded htree hdata hn hbits hpad
    have hc : s.HeaderOk h rest L := ⟨hfits, hsmall, hloaded, htree, hdata⟩
    exact hl.exec_hparse hL hc ((hl.parseRegion_iff hc).2 ⟨hn, pad, hbits, hpad⟩)
  · intro t he h0
    obtain ⟨h, b1, b2, b3, b4, rest, sh, rfl, hc, hp⟩ := hl.hparse_success he h0
    obtain ⟨hn, pad, hbits, hpad⟩ := (hl.parseRegion_iff hc).1 hp
    exact ⟨h, b1, b2, b3, b4, rest, _, sh, pad, rfl, rfl, hc.fits, hc.small, hc.loaded, hc.treePad, hc.dataPad, hn,
      hbits, hpad⟩

/-- Settles O46: the checks before the header is read, and then those of parseContainer, in their order. -/
theorem hparseHeaderChecks : Obligations.HparseHeaderChecks := by
  intro s bs hl
  refine ⟨hl.exec_hparse_short, fun hs hshort => ?_, ?_⟩
  · refine exec_hparse_bufferBounds ?_
    have hlen : s.ibufLen.toNat < 5 := by rwa [hl.1]
    simp [body, hl.notTooLong, Nat.not_lt.2 hs, hlen]
  · rintro h b1 b2 b3 b4 rest L rfl hL hs
    have hlen := hl.ibufLen_eq
    have hb := hl.body_hparse hs
    rw [← be32] at hL
    rw [← hL, parseContainer] at hb
    simp only [extractLsb'_high_nibble, extractLsb'_low_nibble, Config.treeMaxBytes] at hb
    refine ⟨fun hlong => ?_, fun hfits => ?_⟩
    · rw [if_pos (by omega)] at hb
      exact exec_error_withoutTree rfl hb (by decide)
    rw [if_neg (by omega)] at hb
    refine ⟨fun htree => ?_, fun htree hdata => ?_, fun htree hdata hbig => ?_, fun htree hdata hsmall hmissing => ?_⟩
    · rw [if_pos htree] at hb
      exact exec_error_withoutTree rfl hb (by decide)
    · rw [if_neg (by omega), if_pos hdata] at hb
      exact exec_error_withoutTree rfl hb (by decide)
    · rw [if_neg (by omega), if_neg (by omega), if_pos hbig] at hb
      exact exec_error_withoutTree rfl hb (by decide)
    · rw [if_neg (by omega), if_neg (by omega), if_neg (by omega), if_pos (by omega)] at hb
      exact exec_hparse_bufferBounds hb

/-- Settles O47: the three ways in which the parser stops on the tree region. -/
theorem hparseParseErrors : Obligations.HparseParseErrors := by
  rintro s h b1 b2 b3 b4 rest L bits hl hL hfits hsmall hloaded htree hdata hbits
  have hc : s.HeaderOk h rest L := ⟨hfits, hsmall, hloaded, htree, hdata⟩
  obtain rfl : bits = regionBits h rest L := hbits
  have hlen := hc.length_regionBits
  have htakes := hl.takes_region (L := L)
  refine ⟨fun sh more hn hsh hm => ?_, fun sh more hn hsh hm => ?_, fun sh ys zs x off hs hn hx hoff hpre => ?_⟩
  · exact hl.exec_hparse_parseError hL hc (parseTree_tooSmall hsh hm hlen htakes hn)
  · have hpos := List.length_pos_of_ne_nil hm
    have hlt : sh.bits.length < 8 * L - h.toNat / 16 := by rw [← hlen, hsh, List.length_append]; omega
    exact hl.exec_hparse_parseError hL hc (parseTree_tooLarge hn hlt (htakes.of_isPrefix ⟨more, hsh.symm⟩))
  · exact hl.exec_hparse_parseError hL hc (parseTree_duplicate hs hn hx hoff hlen htakes hpre)

/-- Settles O48: the first header check, which leaves the block idle. -/
theorem shortContainer : Obligations.ShortContainer := by
  intro s bs hshort hstream hl
  exact ⟨_, hl.exec_hparse_short (by rwa [hstream]), rfl, rfl⟩

end Sys2Proof.Machine
end

section
/-! SUPPORT. How a command ends: with success or with an error of its own, what the error leaves, and the two errors
that are raised before anything is read (rules R330, R333, R334, R342, R345, R346). -/

namespace Sys2Proof.Machine

section Endings

variable {s t : State} {i : Instr} {e : ErrCode} {info : Word}

/-! ### What an error leaves (rules R342, R345, R346) -/

/-- IllegalCommand is an illegal word's error, never a command's (rule R117). -/
theorem ne_illegalCommand_of_body (hb : body i s = .error (.err e info)) : e ≠ .illegalCommand := by
  have hmem : e ∈ errorsOf i := body_error hb
  rintro rfl
  cases i <;> simp [errorsOf] at hmem

theorem exec_error_withoutOutput (ho : isOutputCommand i = true) (hb : body i s = .error (.err e info)) :
    exec i s = .next (s.failed e.code info).withoutOutput := by
  have hill := ne_illegalCommand_of_body hb
  have hm : makesTree i = false := by
    cases i with
    | tser | echunk _ | dchunk _ _ | hbuild => rfl
    | _ => cases ho
  rw [exec_eq, hb, finish_err, State.raise_eq]
  simp [discardsOutput, invalidatesTree, ho, hm, hill]

/-- The other errors change the completion state alone: those of a command that makes neither output nor tree, and
BufferBounds of one that makes no output. -/
theorem exec_error_failed (ho : isOutputCommand i = false) (hm : makesTree i = false ∨ e = .bufferBounds)
    (hb : body i s = .error (.err e info)) : exec i s = .next (s.failed e.code info) := by
  have hkeep : invalidatesTree (some i) e = false := by
    rcases hm with hm | rfl
    · exact invalidatesTree_eq_false hm e
    · simp [invalidatesTree]
  rw [exec_eq, hb, finish_err, State.raise_eq, hkeep]
  simp [discardsOutput, ho]

/-- A command that ends with ERR ≠ 0 has raised that error. -/
theorem exec_error (he : exec i s = .next t) (h0 : t.err ≠ 0#8) :
    ∃ e info, body i s = .error (.err e info) ∧ t.err = e.code ∧ t.errInfo = info := by
  rcases exec_cases he with ⟨u, -, rfl⟩ | ⟨e, info, hb, rfl⟩
  · exact absurd rfl h0
  · exact ⟨e, info, hb, s.raise_err _ e info, s.raise_errInfo _ e info⟩

/-! ### Commands that do not read IBUF (rule R333) -/

/-- s with another input buffer. -/
def State.withInput (s : State) (n : Word) (m : Memory) : State := { s with ibufLen := n, ibuf := m }

theorem State.raise_withInput (s : State) (n : Word) (m : Memory) (cmd : Option Instr) (e : ErrCode) (info : Word) :
    (s.withInput n m).raise cmd e info = (s.raise cmd e info).withInput n m := by
  simp only [State.raise_eq]
  split <;> split <;> rfl

theorem body_withInput (s : State) (n : Word) (m : Memory) (hsreset : i ≠ .sreset) (htdes : ∀ p w, i ≠ .tdes p w)
    (hechunk : ∀ f, i ≠ .echunk f) (hdchunk : ∀ l p, i ≠ .dchunk l p) (hhparse : i ≠ .hparse) :
    body i (s.withInput n m) = (body i s).map (·.withInput n m) := by
  cases i with
  | sreset => exact absurd rfl hsreset
  | tdes p w => exact absurd rfl (htdes p w)
  | echunk f => exact absurd rfl (hechunk f)
  | dchunk l p => exact absurd rfl (hdchunk l p)
  | hparse => exact absurd rfl hhparse
  | build =>
    have hleaves : buildLeaves (s.withInput n m) = buildLeaves s := rfl
    simp only [body, hleaves]
    cases buildLeaves s <;> rfl
  | lookup x =>
    have hcode : (s.withInput n m).code x = s.code x := rfl
    simp only [body, hcode, apply_ite (Except.map _)]
    cases s.code x <;> rfl
  | tser =>
    simp only [body, apply_ite (Except.map _)]
    rfl
  | _ => rfl

end Endings

/-! ### The statements -/

/-- Settles O20: a command fails with an error of its own or on an uncovered byte, and here every byte is covered. -/
theorem everyCommandEnds : Obligations.EveryCommandEnds := by
  intro s i hc
  rw [exec_eq]
  cases hb : body i s with
  | ok t => exact ⟨t.complete, rfl, rfl, rfl, .inl ⟨rfl, rfl⟩⟩
  | error stop =>
    have hstop := body_error hb
    cases stop with
    | err e info =>
      refine ⟨s.raise (some i) e info, rfl, rfl, rfl, .inr ⟨?_, rfl⟩⟩
      rw [State.raise_err]
      exact code_mem_raisable hstop
    | fault f =>
      obtain ⟨j⟩ := f
      obtain ⟨hj, hnone⟩ := hstop
      obtain ⟨b, hsome⟩ := hc j hj
      exact absurd (hnone.symm.trans hsome) (by simp)

/-- Settles O21: each kind of command by what its errors leave. -/
theorem errorEffects : Obligations.ErrorEffects := by
  refine ⟨fun s t i he h0 => ?_, fun s e hb ht hd => step_turn_error ht hb hd⟩
  obtain ⟨e, info, hb, herr, rfl⟩ := exec_error he h0
  have ends {u : State} (hu : exec i s = .next u) : t = u := Host.Outcome.next.inj (he.symm.trans hu)
  have hout (ho : isOutputCommand i = true) : t = (s.failed t.err t.errInfo).withoutOutput := by
    rw [herr]
    exact ends (exec_error_withoutOutput ho hb)
  have htree (hm : makesTree i = true) (hne : t.err ≠ 0x0D#8) : t = (s.failed t.err t.errInfo).withoutTree := by
    have hother : e ≠ .bufferBounds := by rintro rfl; exact hne herr
    rw [herr]
    exact ends (exec_error_withoutTree hm hb hother)
  have hplain (ho : isOutputCommand i = false) (hm : makesTree i = false ∨ t.err = 0x0D#8) :
      t = s.failed t.err t.errInfo := by
    have hkeep := hm.imp_right fun h => ErrCode.code_inj (e' := .bufferBounds) (herr.symm.trans h)
    rw [herr]
    exact ends (exec_error_failed ho hkeep hb)
  cases i with
  | tser | echunk _ | dchunk _ _ | hbuild => exact hout rfl
  | nop | sreset | wclr | lookup _ | estart | dstart => exact hplain rfl (.inl rfl)
  | build =>
    obtain rfl : e = .inputEmpty := List.mem_singleton.1 (body_error hb)
    exact htree rfl (by rw [herr]; decide)
  | tdes _ _ | hparse =>
    by_cases hbounds : t.err = 0x0D#8
    · exact (hplain rfl (.inr hbounds)).trans (if_pos hbounds).symm
    · exact (htree rfl hbounds).trans (if_neg hbounds).symm

/-- Settles O22: the bounds check is the first one of the four, and the others compute the same from any IBUF. -/
theorem bufferBoundsFirst : Obligations.BufferBoundsFirst := by
  refine ⟨fun s hlong => ?_, fun s t i n m hsreset htdes hechunk hdchunk hhparse he => ?_⟩
  · have htoo : ibufTooLong s = true := decide_eq_true hlong
    exact ⟨fun p w => exec_error_failed (e := .bufferBounds) rfl (.inr rfl) (by simp [body, htoo]),
      fun f => exec_error_withoutOutput (e := .bufferBounds) rfl (by simp [body, htoo]),
      fun l p => exec_error_withoutOutput (e := .bufferBounds) rfl (by simp [body, htoo]),
      exec_hparse_bufferBounds (by simp [body, htoo])⟩
  · have hbody := body_withInput s n m hsreset htdes hechunk hdchunk hhparse
    show exec i (s.withInput n m) = .next (t.withInput n m)
    rw [exec_eq] at he
    rw [exec_eq, hbody]
    rcases finish_next he with ⟨u, hu, rfl⟩ | ⟨e, info, hb, rfl⟩
    · rw [hu]
      rfl
    · rw [hb, ← State.raise_withInput]
      rfl

/-- Settles O23: the four check TREE_VALID, after the bounds of IBUF, and NoTree is among no other command's errors. -/
theorem noTreeWithoutTree : Obligations.NoTreeWithoutTree := by
  refine ⟨fun s hv => ⟨fun x => ?_, ?_, fun hfits => ⟨fun f => ?_, fun l p => ?_⟩⟩, fun s t i he herr => ?_⟩
  · exact exec_error_failed (e := .noTree) rfl (.inl rfl) (by simp [body, hv])
  · exact exec_error_withoutOutput (e := .noTree) rfl (by simp [body, hv])
  · exact exec_error_withoutOutput (e := .noTree) rfl (by simp [body, hv, ibufTooLong_eq_false.2 hfits])
  · exact exec_error_withoutOutput (e := .noTree) rfl (by simp [body, hv, ibufTooLong_eq_false.2 hfits])
  · obtain ⟨e, info, hb, hcode, -⟩ := exec_error he (by rw [herr]; decide)
    obtain rfl : e = .noTree := ErrCode.code_inj (hcode.symm.trans herr)
    have hmem : ErrCode.noTree ∈ errorsOf i := body_error hb
    cases i with
    | lookup x => exact .inl ⟨x, rfl⟩
    | tser => exact .inr (.inl rfl)
    | echunk f => exact .inr (.inr (.inl ⟨f, rfl⟩))
    | dchunk l p => exact .inr (.inr (.inr ⟨l, p, rfl⟩))
    | _ => simp [errorsOf] at hmem

end Sys2Proof.Machine
end

section
/-! SUPPORT. The busy block and the interrupt: what the host can do while a command is pending, which steps raise DONE,
and that nothing but DONE and IE makes IRQ (rules R343, R350, R351). -/

namespace Sys2Proof.Machine

section BusyAndInterrupt

variable {s t : State}

/-! ### Accesses while busy (rule R343) -/

theorem memRead_busy {a : Nat} (hb : s.busy = true) (hstatus : a ≠ 0x018) (hcmd : a ≠ 0x014) :
    s.memRead a = Config.freeWord s.draws := by
  simp [State.memRead, hb, hstatus, hcmd]

/-! ### What raises DONE (rules R340, R341, R345, R350) -/

/-- The block's turn while busy ends a command or an illegal word. -/
theorem step_busy_turn (hb : s.busy = true) (ht : s.turn) (hs : step s = .next t) :
    (∃ i, exec i { s with inputs := s.inputs.tail } = .next t)
      ∨ t = { s with inputs := s.inputs.tail }.failed 0x0C#8 0#32 := by
  cases hd : decode s.lastCmd with
  | ok i => exact .inl ⟨i, (step_turn_ok ht hb hd).symm.trans hs⟩
  | error e => exact .inr (Host.Outcome.next.inj (hs.symm.trans (step_turn_error ht hb hd)))

/-- An error keeps CTRL.IE: SRESET alone clears it (rule R151), and it raises none. -/
theorem exec_ie_of_error {i : Instr} (he : exec i s = .next t) (h0 : t.err ≠ 0#8) : t.ie = s.ie := by
  have hi : i ≠ .sreset := by
    rintro rfl
    rw [exec_sreset] at he
    cases he
    exact h0 rfl
  obtain ⟨-, hie, -⟩ := exec_hostRegisters hi he
  exact hie

/-- No host write raises DONE. -/
theorem done_of_memWrite {a : Nat} {v : Word} : (s.memWrite a v).done = true → s.done = true := by
  cases hb : s.busy with
  | true => rw [memWrite_busy hb]; exact id
  | false =>
    rcases memWrite_cases s a v hb with hw | ⟨_, hw⟩ | ⟨-, hw⟩ | ⟨-, hw⟩ | ⟨_, hw⟩ | hw | hw | ⟨_, hw⟩ | ⟨_, hw⟩
      | ⟨x, half, -, hw⟩ | ⟨j, hw⟩ <;> rw [hw]
    · exact id
    · exact id
    · exact fun h => nomatch (h : false = true)
    · exact fun h => (Bool.and_eq_true_iff.1 h).1
    · exact id
    · exact id
    · exact id
    · exact id
    · exact id
    · exact id
    · obtain ⟨m, hm⟩ := s.writeIbufWord_eq j v
      rw [hm]
      exact id

/-- DONE rises in the step that ends a command or an illegal word, and in no other. -/
theorem step_raises_done (hs : step s = .next t) (h0 : s.done = false) (h1 : t.done = true) :
    s.busy = true ∧ s.turn ∧ t.busy = false := by
  have hlow : ¬ s.done = true := by simp [h0]
  rcases step_cases s t hs with ⟨a, rest, -, -, rfl⟩ | ⟨a, v, rest, -, -, rfl⟩ | ⟨rest, -, rfl⟩
    | ⟨hb, ht, i, -, he⟩ | ⟨hb, ht, -, rfl⟩ | ⟨-, -, rfl⟩
  · exact absurd h1 hlow
  · exact absurd (done_of_memWrite h1) hlow
  · cases h1
  · exact ⟨hb, ht, exec_idle he⟩
  · exact ⟨hb, ht, rfl⟩
  · exact absurd h1 hlow

end BusyAndInterrupt

/-! ### The statements -/

/-- Settles O6: a busy write is dropped, STATUS and CMD read in every state, and any other read draws. -/
theorem busyAccesses : Obligations.BusyAccesses := by
  intro s hb
  refine ⟨fun a v ha => writes_busy hb ha v, reads_statusWord s, reads_cmd s, fun hreg => ?_, fun a ha hstatus hcmd => ?_⟩
  · obtain ⟨hdone, -⟩ := hreg
    exact ⟨(s.getLsbD_statusWord 0).trans hb, (s.getLsbD_statusWord 1).trans (hdone hb)⟩
  · rw [← memRead_busy hb hstatus hcmd]
    exact reads_memRead ha

/-- Settles O9: IRQ is made of DONE and IE, which the turn of a busy block, a dropped write and the register writes
change as the rules say. -/
theorem interruptIsCompletion : Obligations.InterruptIsCompletion := by
  refine ⟨fun s => ⟨s.getLsbD_statusWord 5, rfl⟩, fun s t hb ht hs => ?_, fun s t => step_raises_done,
    fun s a v hb ha => ⟨_, writes_busy hb ha v, rfl⟩, fun s hb => ⟨fun v hv => ?_, fun w => ?_, ?_, ?_⟩⟩
  · have hirq (hdone : t.done = true) : t.irq = t.ie := by rw [State.irq, hdone, Bool.true_and]
    rcases step_busy_turn hb ht hs with ⟨i, he⟩ | rfl
    · have hie := exec_ie_of_error he
      exact ⟨exec_done he, hirq (exec_done he), hie⟩
    · exact ⟨rfl, hirq rfl, fun _ => rfl⟩
  · obtain ⟨-, hstatus, -⟩ := plain_writes hb v
    exact ⟨_, hstatus, by simp [State.irq, hv], rfl⟩
  · exact ⟨_, writes_reg hb (r := .cmd) rfl w, rfl, rfl⟩
  · obtain ⟨hctrl, -⟩ := plain_writes hb 1#32
    exact ⟨_, hctrl, Bool.and_true _, rfl⟩
  · obtain ⟨hctrl, -⟩ := plain_writes hb 0#32
    exact ⟨_, hctrl, Bool.and_false _, rfl⟩

end Sys2Proof.Machine
end

section
/-! SUPPORT. The stops: a step that answers no next state is a command on an unwritten IBUF byte or an access the bus
does not admit, and the commands that read IBUF stop on the first unwritten byte they come to (rules R56, R80, R348). -/

namespace Sys2Proof.Machine

section ModelStops

variable {s : State} {bs : List Byte}

/-! ### Which steps stop -/

theorem exec_fault_iff {i : Instr} {f : Fault} : exec i s = .fault f ↔ body i s = .error (.fault f) := by
  rw [exec_eq]
  match body i s with
  | .ok t => simp
  | .error (.err e info) => simp
  | .error (.fault g) => simp

theorem exec_ne_refused (i : Instr) (s : State) (r : Refusal) : exec i s ≠ .refused r := by
  rw [exec_eq]
  match body i s with
  | .ok t => simp
  | .error (.err e info) => simp
  | .error (.fault g) => simp

theorem step_event {e : Input} {rest : List Input} (h : s.inputs = e :: rest) :
    step s = handleInput e { s with inputs := rest } := by
  unfold step stepOnce
  rw [h]

/-- A turn that answers no next state performs a command. -/
theorem step_turn_stop (ht : s.turn) (h : ∀ t, step s ≠ .next t) :
    s.busy = true ∧ ∃ i, decode s.lastCmd = .ok i ∧ step s = exec i { s with inputs := s.inputs.tail } := by
  by_cases hb : s.busy = true
  · cases hd : decode s.lastCmd with
    | error e => exact absurd (step_turn_error ht hb hd) (h _)
    | ok i => exact ⟨hb, i, rfl, step_turn_ok ht hb hd⟩
  · exact absurd ((step_turn ht).trans (if_neg hb)) (h _)

/-- A step that answers no next state is a command's, in the block's turn, or an access the bus does not admit. -/
theorem step_stop (h : ∀ t, step s ≠ .next t) :
    (s.busy = true ∧ s.turn ∧ ∃ i, decode s.lastCmd = .ok i ∧ step s = exec i { s with inputs := s.inputs.tail })
      ∨ ∃ a size, step s = .refused (.busAccessNotAdmitted a size) ∧ ¬ (size = 4 ∧ BusAddress a)
        ∧ ((∃ rest, s.inputs = .busRead a size :: rest) ∨ ∃ v rest, s.inputs = .busWrite a size v :: rest) := by
  cases hi : s.inputs with
  | nil =>
    have ht : s.turn := .inl hi
    obtain ⟨hb, hcmd⟩ := step_turn_stop ht h
    exact .inl ⟨hb, ht, hi ▸ hcmd⟩
  | cons e rest =>
    have he := step_event hi
    cases e with
    | blockTurn =>
      have ht : s.turn := .inr ⟨rest, hi⟩
      obtain ⟨hb, hcmd⟩ := step_turn_stop ht h
      exact .inl ⟨hb, ht, hi ▸ hcmd⟩
    | hardReset => exact absurd he (h _)
    | busRead a size =>
      by_cases ha : admitted a size = true
      · exact absurd (he.trans (if_pos ha)) (h _)
      · exact .inr ⟨a, size, he.trans (if_neg ha), mt admitted_iff.2 ha, .inl ⟨rest, rfl⟩⟩
    | busWrite a size v =>
      by_cases ha : admitted a size = true
      · exact absurd (he.trans (if_pos ha)) (h _)
      · exact .inr ⟨a, size, he.trans (if_neg ha), mt admitted_iff.2 ha, .inr ⟨v, rest, rfl⟩⟩

/-- A fault is a command's that reads IBUF, on a byte below IBUF_LEN that holds no value. -/
theorem step_fault {f : Fault} (h : step s = .fault f) :
    s.busy = true ∧ s.turn
      ∧ (∃ j, f = .ibufByteUnwritten j ∧ j < s.ibufLen.toNat ∧ Memory.read s.ibuf j = none)
      ∧ ∃ i, decode s.lastCmd = .ok i
          ∧ ((∃ p w, i = .tdes p w) ∨ (∃ f, i = .echunk f) ∨ (∃ l p, i = .dchunk l p) ∨ i = .hparse) := by
  rcases step_stop (fun t ht => by rw [h] at ht; cases ht) with ⟨hb, ht, i, hd, hexec⟩ | ⟨a, size, hr, -⟩
  · have hbody := exec_fault_iff.1 (hexec.symm.trans h)
    obtain ⟨j⟩ := f
    exact ⟨hb, ht, ⟨j, rfl, body_error hbody⟩, i, hd, body_fault hbody⟩
  · rw [h] at hr
    cases hr

/-- A refusal is of an access that the bus does not admit. -/
theorem step_refused {r : Refusal} (h : step s = .refused r) :
    ∃ a size, r = .busAccessNotAdmitted a size ∧ ¬ (size = 4 ∧ BusAddress a)
      ∧ ((∃ rest, s.inputs = .busRead a size :: rest) ∨ ∃ v rest, s.inputs = .busWrite a size v :: rest) := by
  rcases step_stop (fun t ht => by rw [h] at ht; cases ht) with ⟨-, -, i, -, hexec⟩ | ⟨a, size, hr, hrest⟩
  · exact absurd (hexec.symm.trans h) (exec_ne_refused _ _ _)
  · exact ⟨a, size, Host.Outcome.refused.inj (h.symm.trans hr), hrest⟩

/-! ### Where a command stops on an unwritten byte (rules R56, R348) -/

/-- The parser stops on the byte after those that stand in the buffer, if it holds no value and the bits before it are
a proper beginning of a serialization. -/
theorem parseTree_unwritten {m : Memory} {off nbits : Nat} {sh : Shape} {more : BitString} (hs : Stands m off bs)
    (hu : Memory.read m (off + bs.length) = none) (hb : sh.bits = bitsOf bs ++ more) (hm : more ≠ [])
    (hn : (sh.lettersWithin (8 * bs.length)).Nodup) (hl : 8 * bs.length < nbits) :
    parseTree m off nbits = .error (.fault (.ibufByteUnwritten (off + bs.length))) := by
  have hlen := length_bitsOf bs
  have htakes : Takes m off nbits 0 (bitsOf bs) := by
    simpa [← hlen] using takes_bitsOf hs (Nat.le_of_lt hl)
  refine parseTree_stop hb hm (by omega) htakes ?_ (by rwa [hlen])
  rw [hlen]
  exact takeBit_unwritten hu hl

theorem State.WrittenUpTo.exec_tdes (h : s.WrittenUpTo bs) {tpad : Nat} {sh : Shape} {more : BitString}
    (hb : sh.bits = bitsOf bs ++ more) (hm : more ≠ []) (hn : (sh.lettersWithin (8 * bs.length)).Nodup)
    (hl : 8 * bs.length < 8 * s.ibufLen.toNat - tpad) :
    exec (.tdes tpad 1) s = .fault (.ibufByteUnwritten bs.length) := by
  have hp := parseTree_unwritten h.stands (by rw [Nat.zero_add]; exact h.unwritten) hb hm hn hl
  rw [Nat.zero_add] at hp
  exact exec_fault_iff.2 (by simp [body, h.notTooLong, Config.lwNative, hp])

theorem State.WrittenUpTo.exec_echunk (h : s.WrittenUpTo bs) {f : Bool} {codes : BitString}
    (hv : s.treeValid = true) (hc : codesOf s bs = some codes) :
    exec (.echunk f) s = .fault (.ibufByteUnwritten bs.length) := by
  have hstop := chunkCodes_unwritten h.stands hc (by rw [Nat.zero_add]; exact h.unwritten) h.counted
  rw [Nat.zero_add] at hstop
  exact exec_fault_iff.2 (by simp [body, h.notTooLong, hv, hstop])

/-- The bits of the written bytes decode, under a tree of two leaves or more and, if all are 0, under one leaf. -/
theorem State.WrittenUpTo.exists_decodeBits (h : s.WrittenUpTo bs)
    (htree : internalAt s.nodes s.root
      ∨ ∃ x w, s.nodes[s.root.toNat]? = some (.leaf x w) ∧ ∀ b ∈ bitsOf bs, b = false) :
    ∃ q, decodeBits s (bitsOf bs).length 0 s.cursor = .ok q := by
  have hbits : ∀ k, (hk : k < (bitsOf bs).length) → bitAt s.ibuf (0 + k) = some (bitsOf bs)[k] := fun k hk => by
    simpa using bitAt_stands h.stands k hk
  rcases htree with hi | ⟨x, w, hx, hzero⟩
  · exact ⟨_, decodeBits_internal hi hbits⟩
  · exact ⟨_, decodeBits_leaf hx fun k hk => by rw [hbits k hk, hzero _ (List.getElem_mem hk)]⟩

theorem State.WrittenUpTo.exec_dchunk (h : s.WrittenUpTo bs) {l : Bool} {dpad : Nat} (hv : s.treeValid = true)
    (hd : dpad < 8)
    (htree : internalAt s.nodes s.root
      ∨ ∃ x w, s.nodes[s.root.toNat]? = some (.leaf x w) ∧ ∀ b ∈ bitsOf bs, b = false) :
    exec (.dchunk l dpad) s = .fault (.ibufByteUnwritten bs.length) := by
  obtain ⟨q, hq⟩ := h.exists_decodeBits htree
  have hcounted := h.counted
  have hbit : ibufBit s.ibuf (0 + (bitsOf bs).length) = .error (.fault (.ibufByteUnwritten bs.length)) := by
    simp [length_bitsOf, ibufBit, bitAt, h.unwritten]
  have hlt : (bitsOf bs).length < chunkBits s.ibufLen.toNat l dpad := by
    rw [length_bitsOf, chunkBits]
    split <;> omega
  have hstop := decodeBits_stop hq hbit hlt
  exact exec_fault_iff.2 (by simp [body, h.notTooLong, hv, hstop])

theorem State.WrittenUpTo.exec_hparse_header (h : s.WrittenUpTo bs) (hstream : 5 ≤ s.streamLen.toNat)
    (hfive : 5 ≤ s.ibufLen.toNat) (hshort : bs.length < 5) :
    exec .hparse s = .fault (.ibufByteUnwritten bs.length) := by
  have hread := readHeader_unwritten hshort (fun j hj => ⟨_, h.written j hj⟩) h.unwritten
  exact exec_fault_iff.2 (by simp [body, h.notTooLong, Nat.not_lt.2 hstream, Nat.not_lt.2 hfive, hread])

theorem State.WrittenUpTo.exec_hparse_region {h b1 b2 b3 b4 : Byte} {ts : List Byte} {L : Nat} {sh : Shape}
    {more : BitString} (hw : s.WrittenUpTo (h :: b1 :: b2 :: b3 :: b4 :: ts)) (hL : L = be32 b1 b2 b3 b4)
    (hfits : 5 + L ≤ s.streamLen.toNat) (hsmall : L ≤ 320) (hloaded : 5 + L ≤ s.ibufLen.toNat)
    (htree : h.toNat / 16 ≤ 7) (hdata : h.toNat % 16 ≤ 7) (hb : sh.bits = bitsOf ts ++ more) (hm : more ≠ [])
    (hn : (sh.lettersWithin (8 * ts.length)).Nodup) (hl : 8 * ts.length < 8 * L - h.toNat / 16) :
    exec .hparse s = .fault (.ibufByteUnwritten (5 + ts.length)) := by
  have hs := hw.stands
  simp only [Stands.cons] at hs
  obtain ⟨h0, h1, h2, h3, h4, hts⟩ := hs
  have hu : Memory.read s.ibuf (5 + ts.length) = none := by
    rw [Nat.add_comm]
    exact hw.unwritten
  have hread := readHeader_ok h0 h1 h2 h3 h4
  have hp := parseTree_unwritten hts hu hb hm hn hl
  rw [← extractLsb'_high_nibble] at htree hp
  rw [← extractLsb'_low_nibble] at hdata
  have hcontainer : parseContainer s h L = .error (.fault (.ibufByteUnwritten (5 + ts.length))) := by
    simp only [parseContainer, Config.treeMaxBytes, hp, headerParseStop,
      if_neg (show ¬ s.streamLen.toNat - 5 < L by omega), if_neg (Nat.not_lt.2 htree), if_neg (Nat.not_lt.2 hdata),
      if_neg (Nat.not_lt.2 hsmall), if_neg (Nat.not_lt.2 hloaded)]
  have hstream : ¬ s.streamLen.toNat < 5 := by omega
  have hfive : ¬ s.ibufLen.toNat < 5 := by omega
  exact exec_fault_iff.2 (by simp [body, hw.notTooLong, hstream, hfive, hread, ← hL, hcontainer])

end ModelStops

/-! ### The statement -/

/-- Settles O8: the inversion of a step that stops, and one lemma for each place where a command comes to the
unwritten byte. -/
theorem modelStops : Obligations.ModelStops := by
  refine fun s => ⟨fun f => step_fault, fun r => step_refused, fun bs hw => ⟨?_, ?_, ?_, ?_, ?_⟩⟩
  · exact fun tpad sh more _ hb hm hn hl => hw.exec_tdes hb hm hn hl
  · exact fun f codes hv hc => hw.exec_echunk hv hc
  · exact fun l dpad hv hd htree => hw.exec_dchunk hv hd htree
  · exact hw.exec_hparse_header
  · rintro h b1 b2 b3 b4 ts L sh more rfl hL hfits hsmall hloaded htree hdata hb hm hn hl
    rw [hw.exec_hparse_region hL hfits hsmall hloaded htree hdata hb hm hn hl, Nat.add_comm]
    rfl

end Sys2Proof.Machine
end

section
/-! SUPPORT. The bytes of IBUF that a command reads: all of them are below IBUF_LEN, so two input buffers that agree
there have the same effect (rules R272, R303, R333, R384). -/

namespace Sys2Proof.Machine

/-! ### A state with another input buffer -/

section Input

variable (s : State) (n : Word) (m : Memory)

@[simp] theorem State.withInput_ibufLen : (s.withInput n m).ibufLen = n := rfl
@[simp] theorem State.withInput_ibuf : (s.withInput n m).ibuf = m := rfl
@[simp] theorem State.withInput_streamLen : (s.withInput n m).streamLen = s.streamLen := rfl
@[simp] theorem State.withInput_treeValid : (s.withInput n m).treeValid = s.treeValid := rfl
@[simp] theorem State.withInput_cursor : (s.withInput n m).cursor = s.cursor := rfl
@[simp] theorem State.withInput_root : (s.withInput n m).root = s.root := rfl
@[simp] theorem ibufTooLong_withInput : ibufTooLong (s.withInput s.ibufLen m) = ibufTooLong s := rfl

end Input

/-- A command that computes the same from another input buffer ends the same. -/
theorem exec_withInput {i : Instr} {s t : State} {n : Word} {m : Memory}
    (hb : body i (s.withInput n m) = (body i s).map (·.withInput n m)) (he : exec i s = .next t) :
    exec i (s.withInput n m) = .next (t.withInput n m) := by
  rw [exec_eq] at he
  rw [exec_eq, hb]
  rcases finish_next he with ⟨u, hu, rfl⟩ | ⟨e, info, hstop, rfl⟩
  · rw [hu]
    rfl
  · rw [hstop, ← State.raise_withInput]
    rfl

/-- The header is the first five bytes (rules R94, R303). -/
theorem readHeader_congr {m m' : Memory} {n : Nat} (hn : 5 ≤ n)
    (h : ∀ j, j < n → Memory.read m j = Memory.read m' j) : readHeader m = readHeader m' := by
  have hbyte : ∀ j, j < 5 → ibufByte m j = ibufByte m' j := fun j hj => by
    simp only [ibufByte, h j (Nat.lt_of_lt_of_le hj hn)]
  simp only [readHeader, hbyte 0 (by decide), hbyte 1 (by decide), hbyte 2 (by decide), hbyte 3 (by decide),
    hbyte 4 (by decide)]

/-! ### The commands that read IBUF, on a buffer that agrees below IBUF_LEN -/

section AgreeingInput

variable {s : State} {m : Memory} (hm : ∀ j, j < s.ibufLen.toNat → Memory.read m j = Memory.read s.ibuf j)
include hm

theorem chunkCodes_withInput :
    chunkCodes (s.withInput s.ibufLen m) s.ibufLen.toNat 0 = chunkCodes s s.ibufLen.toNat 0 :=
  chunkCodes_congr (s := s.withInput s.ibufLen m) hm rfl _ 0 (Nat.zero_add _).le

/-- DCHUNK decodes at most 8 · IBUF_LEN bits (rule R272). -/
theorem decodeBits_withInput (l : Bool) (dpad : Nat) (c : BitVec 9) :
    decodeBits (s.withInput s.ibufLen m) (chunkBits s.ibufLen.toNat l dpad) 0 c
      = decodeBits s (chunkBits s.ibufLen.toNat l dpad) 0 c := by
  have hbits : chunkBits s.ibufLen.toNat l dpad ≤ 8 * s.ibufLen.toNat := by unfold chunkBits; split <;> omega
  exact decodeBits_congr (s := s.withInput s.ibufLen m) hm rfl rfl _ 0 c (by omega)

/-- HPARSE parses a tree region only where IBUF_LEN covers it (rule R305). -/
theorem parseContainer_withInput (h : Byte) (L : Nat) :
    parseContainer (s.withInput s.ibufLen m) h L = (parseContainer s h L).map (·.withInput s.ibufLen m) := by
  simp only [parseContainer, State.withInput_streamLen, State.withInput_ibufLen, State.withInput_ibuf,
    apply_ite (Except.map _)]
  by_cases hshort : s.ibufLen.toNat < 5 + L
  · simp only [hshort, if_true]
    rfl
  · have hparse : parseTree m 5 (8 * L - (h.extractLsb' 4 4).toNat)
        = parseTree s.ibuf 5 (8 * L - (h.extractLsb' 4 4).toNat) := parseTree_congr hm (by omega)
    rw [hparse]
    cases parseTree s.ibuf 5 (8 * L - (h.extractLsb' 4 4).toNat) <;> rfl

/-- HPARSE reads the header only where IBUF_LEN covers it (rule R305). -/
theorem body_hparse_withInput :
    body .hparse (s.withInput s.ibufLen m) = (body .hparse s).map (·.withInput s.ibufLen m) := by
  simp only [body, ibufTooLong_withInput, State.withInput_streamLen, State.withInput_ibufLen, State.withInput_ibuf,
    parseContainer_withInput hm, apply_ite (Except.map _)]
  by_cases hshort : s.ibufLen.toNat < 5
  · simp only [hshort, if_true]
    rfl
  · rw [readHeader_congr (Nat.le_of_not_lt hshort) hm]
    cases readHeader s.ibuf <;> rfl

/-- No command's computation reads IBUF at or past IBUF_LEN. -/
theorem body_withInput_of_agree {i : Instr} (hi : i ≠ .sreset) :
    body i (s.withInput s.ibufLen m) = (body i s).map (·.withInput s.ibufLen m) := by
  cases i with
  | tdes tpad lw =>
    have hparse : parseTree m 0 (8 * s.ibufLen.toNat - tpad) = parseTree s.ibuf 0 (8 * s.ibufLen.toNat - tpad) :=
      parseTree_congr hm (by omega)
    simp only [body, ibufTooLong_withInput, State.withInput_ibufLen, State.withInput_ibuf, hparse,
      apply_ite (Except.map _)]
    cases parseTree s.ibuf 0 (8 * s.ibufLen.toNat - tpad) <;> rfl
  | echunk f =>
    simp only [body, ibufTooLong_withInput, State.withInput_ibufLen, State.withInput_treeValid,
      chunkCodes_withInput hm, apply_ite (Except.map _)]
    cases chunkCodes s s.ibufLen.toNat 0 with
    | error e => rfl
    | ok bs => cases f <;> rfl
  | dchunk l dpad =>
    simp only [body, ibufTooLong_withInput, State.withInput_ibufLen, State.withInput_treeValid,
      State.withInput_cursor, decodeBits_withInput hm, apply_ite (Except.map _)]
    cases decodeBits s (chunkBits s.ibufLen.toNat l dpad) 0 s.cursor with
    | error e => rfl
    | ok r =>
      simp only [State.withInput_root, apply_ite (Except.map _)]
      rfl
  | hparse => exact body_hparse_withInput hm
  | _ => exact body_withInput s s.ibufLen m hi nofun nofun nofun nofun

end AgreeingInput

/-! ### The statement -/

/-- Settles O51: no command stores to IBUF, and each reads only the bytes on which the two buffers agree. -/
theorem inputPastLengthIgnored : Obligations.InputPastLengthIgnored := by
  intro s t i m hi hm he
  obtain ⟨-, -, -, hlen, -⟩ := exec_hostRegisters hi he
  have hexec := exec_withInput (body_withInput_of_agree hm hi) he
  have hnext : t.withInput s.ibufLen m = { t with ibuf := m } := by
    rw [← hlen]
    rfl
  exact ⟨exec_ibuf hi he, hnext ▸ hexec⟩

end Sys2Proof.Machine
end
